-- ==== Sys2Proof/Word.lean ====
section
/-! DEFINITION. The word types of the machine: the bit vectors the spec itself treats as bits. -/

namespace Sys2Proof

/-- A 64-bit value: register contents, `pc`, addresses while they are computed (R5: XLEN, PCLEN, ALEN = 64). -/
abbrev Word := BitVec 64

/-- One byte of memory (R30). -/
abbrev Byte := BitVec 8

/-- One instruction word (R5, R70: ILEN = 32). -/
abbrev InstrWord := BitVec 32

/-- The number of a general register, a 5-bit field of the instruction (R20, R72). -/
abbrev Reg := BitVec 5

end Sys2Proof
end

