-- ==== Sys2Proof/Config.lean ====
section
/-! DEFINITION. What an implementation or a launch fixes (the parameters of R5), as plain data, and the free values.
`Params` stands in State and no step changes it, so a statement about every state holds for every value of the parameters.
The values `Params.reset` names for the open ones are the model's own (log entries 5, 6, 7). -/

namespace Sys2Proof

/-- One region of `MEM_MAP`: "a base address, a length and the permissions readable, writable, executable" (R41). -/
structure Region where
  base : Nat
  length : Nat
  readable : Bool
  writable : Bool
  executable : Bool
  deriving DecidableEq, Repr

/-- `MISALIGNED_DATA`: what a misaligned load or store does (R43). -/
inductive MisalignedData where
  | fault
  | supported
  deriving DecidableEq, Repr

/-- One of the two `DIV_NUMERICS` results that are functions of the dividend, `div_by_zero(n)` and `rem_by_zero(n)`
(R227, R228): a fixed value, the dividend itself, or a function about which nothing is known (log entry 12). -/
inductive DivCorner where
  | value (v : Word)
  | dividend
  | free
  deriving DecidableEq, Repr

/-- `DIV_NUMERICS` (R5, R227, R228): the results of `div` and `rem` at a zero divisor and at -2^63 divided by -1. -/
structure DivNumerics where
  divByZero : DivCorner
  divOverflow : Word
  remByZero : DivCorner
  remOverflow : Word
  deriving DecidableEq, Repr

/-- The defaults R227 and R228 state for `DIV_NUMERICS`: quotient by zero all ones, overflow quotient -2^63, remainder by
zero the dividend, overflow remainder 0. -/
def DivNumerics.standard : DivNumerics where
  divByZero := .value 0xFFFFFFFFFFFFFFFF#64
  divOverflow := 0x8000000000000000#64
  remByZero := .dividend
  remOverflow := 0#64

/-- The parameters of R5 that a step reads. `RESET_PC` and `INIT_REGS` are arguments of the launch instead
(`State.launch`): after it they are the first contents of `pc` and `x1` to `x31`. -/
structure Params where
  /-- `MEM_MAP`, "a finite set of disjoint regions" (R41). -/
  memMap : List Region
  /-- `END_PC`, the address at which a run is over (R276). -/
  endPc : Word
  /-- `EXT_M`: `mul`, `div`, `rem` are present (R225). -/
  extM : Bool
  /-- `MISALIGNED_DATA` (R43). -/
  misalignedData : MisalignedData
  /-- `TEXT_WRITABLE`: a store may change bytes of an executable region (R45, R54). -/
  textWritable : Bool
  /-- `DIV_NUMERICS` (R227, R228). -/
  divNumerics : DivNumerics
  deriving DecidableEq, Repr

/-- DESIGN CHOICE (log entry 5, unsafe): `RESET_PC` of the reset state, the address the spec's own programs start at. -/
def Config.resetPc : Word := 0x400000#64

/-- DESIGN CHOICE (log entry 5, unsafe): `END_PC` of the reset state, the address the spec's own programs end at. -/
def Config.resetEndPc : Word := 0x500000#64

/-- DESIGN CHOICE (log entry 6, unsafe): `MEM_MAP` of the reset state. One readable and executable page at `RESET_PC`
(the text region of the spec's programs); every other address readable and writable, so that no ordinary access of a run
from reset meets an address the model left out. -/
def Config.resetMemMap : List Region :=
  [{ base := 0, length := 0x400000, readable := true, writable := true, executable := false },
   { base := 0x400000, length := 0x1000, readable := true, writable := false, executable := true },
   { base := 0x401000, length := 0xFFFFFFFFFFBFF000, readable := true, writable := true, executable := false }]

/-- The parameters of the reset state. `misalignedData`, `textWritable` and `divNumerics` are the defaults of R5, R227 and
R228. DESIGN CHOICE: the open ones, `memMap` (log entry 6), `endPc` (log entry 5) and `extM` (log entry 7). -/
def Params.reset : Params where
  memMap := Config.resetMemMap
  endPc := Config.resetEndPc
  extM := true
  misalignedData := .fault
  textWritable := false
  divNumerics := .standard

/-- FREE VALUE (log entry 8): the byte at an address that nothing has placed or written. "every other byte unspecified"
(R32), treatment "any value" (U8). -/
opaque Config.unspecifiedByte : Nat → Byte

/-- FREE VALUE (log entry 12): the quotient of a dividend by zero when `DIV_NUMERICS` leaves it open (R227, D15). -/
opaque Config.freeQuotientByZero : Word → Word

/-- FREE VALUE (log entry 12): the remainder of a dividend by zero when `DIV_NUMERICS` leaves it open (R228, D15). -/
opaque Config.freeRemainderByZero : Word → Word

end Sys2Proof
end

