-- ==== Sys2Proof/Machine/State.lean ====
section
/-! DEFINITION. The state of the machine as plain data, the reasons a step stops, and the reset state. -/

namespace Sys2Proof.Machine

/-- The bytes that have a value of their own, because the loader placed them or a store wrote them, by address
(R30, R40). Canonical form: addresses strictly rising, all below 2^64 (`Memory.wf`). An address that is not listed has no
value of its own and reads as the free value `Config.unspecifiedByte` (R32, U8; log entry 8), so no entry repeats it. -/
abbrev Memory := List Host.Cell

/-- The complete architectural state, `x1` to `x31`, `pc` and memory (R20, R24, R30), and the parameters of R5 as a
constant record. `x0` is hard-wired (R21) and has no storage: entry `k` of `regs` is `x[k+1]`. -/
structure State where
  regs : Vector Word 31
  pc : Word
  mem : Memory
  params : Params
  deriving DecidableEq, Repr

/-- The kinds of fault of R242, each with the information it records. Every one is terminal (R241): the outcome carries no
state, and the instruction that raised it changed no register, no byte of memory and not `pc`. -/
inductive Fault where
  /-- Raised by `jal`, `jalr` and the taken branches whose target `t` is not a multiple of 4, and by a step that starts at
  such a `pc` (R244). Safe: the model stops where the sources say nothing (D3). -/
  | instructionAddressMisaligned (t : Word)
  /-- Raised by instruction fetch when a byte of `a` to `a + 3` is in no executable region (R245). Safe (D9). -/
  | instructionAccessFault (a : Word)
  /-- Raised by decode when the word at `pc` matches no row of the opcode table (R243, R101). Safe (D4). -/
  | illegalInstruction (pc : Word) (inst : InstrWord)
  /-- Raised by `ld`, `lw`, `lwu`, `lh`, `lhu` at a misaligned address while MISALIGNED_DATA is `fault` (R246).
  Safe (D2). -/
  | loadAddressMisaligned (a : Word)
  /-- Raised by the loads when a byte is not readable or lies past 2^64 - 1 (R247). Safe (D9, D12). -/
  | loadAccessFault (a : Word)
  /-- Raised by `sd`, `sw`, `sh` at a misaligned address while MISALIGNED_DATA is `fault` (R248). Safe (D2). -/
  | storeAddressMisaligned (a : Word)
  /-- Raised by the stores when a byte is not writable, is executable while TEXT_WRITABLE is false, or lies past 2^64 - 1
  (R249). Safe (D9, D11, D12). -/
  | storeAccessFault (a : Word)
  deriving DecidableEq, Repr

/-- The reasons a step is refused. -/
inductive Refusal where
  /-- An instruction of the opcode table that the model gives no meaning yet. Safe: nothing can be proved of it. No arm of
  `exec` answers with it. -/
  | notModelled (mnemonic : String)
  /-- `Refused(UnspecifiedInstruction, pc, inst)`: raised by decode for the SYSTEM and MISC-MEM opcodes, which no source
  describes (R104, R251). Safe (D19). -/
  | unspecifiedInstruction (pc : Word) (inst : InstrWord)
  deriving DecidableEq, Repr

/-- `INIT_REGS` of the reset state. DESIGN CHOICE (log entry 4, unsafe): the spec states no reset value (R32). `ra` holds
END_PC and `sp` the address the spec's own programs start with (R275); every other register holds 0. -/
def resetRegs : Vector Word 31 :=
  ((Vector.replicate 31 (0#64)).set 0 Config.resetEndPc).set 1 0x7FFFF000#64

/-- The machine right after reset: the launch state of R271 with no program placed. The spec gives no reset value of any
piece of state (R32, R270); log entries 4 to 8 name the values taken here. -/
def State.reset : State where
  regs := resetRegs
  pc := Config.resetPc
  mem := []
  params := Params.reset

end Sys2Proof.Machine
end

