-- ==== Sys2Proof/Machine/Ops.lean ====
section
/-! DEFINITION. The named operations every meaning goes through: the register file (R20, R21), `pc` (R24, R25), bytes of
memory (R30, R40, R42), MEM_MAP (R41), MemRead (R44), MemWrite (R45), FetchWord's access (R46), and raising a fault (R241). -/

namespace Sys2Proof.Machine

/-- The outcome of a step or of an instruction, in the host's form. -/
abbrev Result := Host.Outcome State Fault Refusal

/-- `raise E(info)` (R241): taking an exception. The machine stops with the fault, and the instruction has no effect on
registers, memory or `pc`. The spec describes no trap entry and no return from one (R256, R257), so this is the whole of
it and there is no return operation beside it. -/
def raise (f : Fault) : Result := .fault f

/-! The register file. -/

/-- `x[i]` (R20, R21): `x0` reads as 64 zero bits. -/
def readReg (s : State) (r : Reg) : Word :=
  match r.toNat with
  | 0 => 0#64
  | k + 1 => s.regs[k]?.getD 0#64

/-- `x[i] <- v` (R20, R21): a write to `x0` is performed without error and has no effect. -/
def writeReg (s : State) (r : Reg) (v : Word) : State :=
  match r.toNat with
  | 0 => s
  | k + 1 => { s with regs := s.regs.setIfInBounds k v }

/-! The program counter. -/

/-- `pc <- t`. -/
def setPc (s : State) (t : Word) : State := { s with pc := t }

/-- `pc + 4` modulo 2^64: the next instruction in sequence and the return address of a jump (R25). -/
def nextPc (s : State) : Word := s.pc + 4#64

/-- The implicit `pc <- pc + 4` of an instruction that writes no `pc` (R25, R26). -/
def advance (s : State) : State := setPc s (nextPc s)

/-- `t[1:0] = 0`: `t` is the address of a 32-bit word (R25). -/
def isWordAddress (t : Word) : Bool := t.extractLsb' 0 2 == 0#2

/-- The end of an instruction whose one effect is `x[rd] <- v` and the implicit `pc <- pc + 4`. -/
def writeBack (rd : Reg) (v : Word) (s : State) : Result := .next (advance (writeReg s rd v))

/-! The bytes of memory. -/

/-- The byte listed at an address, if the loader placed one or a store wrote one. -/
def Memory.lookup : Memory → Nat → Option Byte
  | [], _ => none
  | c :: cs, a => if c.1 = a then some c.2 else Memory.lookup cs a

/-- `Mem[a]` (R40): the most recent byte written there, or the initial one (R51), which is unspecified where nothing was
placed (R32, U8; log entry 8). -/
def Memory.byteAt (m : Memory) (a : Nat) : Byte := (Memory.lookup m a).getD (Config.unspecifiedByte a)

/-- `Mem[a] <- b`, keeping the canonical form. -/
def Memory.put : Memory → Nat → Byte → Memory
  | [], a, b => [(a, b)]
  | c :: cs, a, b =>
    if a < c.1 then (a, b) :: c :: cs
    else if a = c.1 then (a, b) :: cs
    else c :: Memory.put cs a b

/-- Addresses strictly rising from `lo` on, each below 2^64. -/
def Memory.risingFrom : Nat → Memory → Bool
  | _, [] => true
  | lo, c :: cs => decide (lo ≤ c.1) && decide (c.1 < 2 ^ 64) && Memory.risingFrom (c.1 + 1) cs

/-- The canonical form of memory: addresses strictly rising, each a 64-bit address. -/
def Memory.wf (m : Memory) : Bool := Memory.risingFrom 0 m

/-- The `n` bytes at `a`, `a + 1`, … -/
def Memory.bytesAt (m : Memory) (a : Nat) : Nat → List Byte
  | 0 => []
  | n + 1 => Memory.byteAt m a :: Memory.bytesAt m (a + 1) n

/-- The bytes written at `a`, `a + 1`, … -/
def Memory.putBytes (m : Memory) (a : Nat) : List Byte → Memory
  | [] => m
  | b :: bs => Memory.putBytes (Memory.put m a b) (a + 1) bs

/-- The value of bytes in memory order, little-endian: the first byte holds bits 7 to 0 (R42). -/
def valueOfBytes : List Byte → Word
  | [] => 0#64
  | b :: bs => b.setWidth 64 ||| (valueOfBytes bs <<< 8)

/-- The low `n` bytes of a value in memory order, little-endian (R42): byte `i` is `v[8i+7 : 8i]`. -/
def bytesOfValue (v : Word) : Nat → List Byte
  | 0 => []
  | n + 1 => v.setWidth 8 :: bytesOfValue (v >>> 8) n

/-! MEM_MAP. -/

/-- The byte address lies in the region (R41). -/
def Region.contains (g : Region) (a : Nat) : Bool := decide (g.base ≤ a) && decide (a < g.base + g.length)

/-- The byte is in a readable region of MEM_MAP. -/
def readableAt (p : Params) (a : Nat) : Bool := p.memMap.any fun g => Region.contains g a && g.readable

/-- The byte is in a writable region of MEM_MAP. -/
def writableAt (p : Params) (a : Nat) : Bool := p.memMap.any fun g => Region.contains g a && g.writable

/-- The byte is in an executable region of MEM_MAP. -/
def executableAt (p : Params) (a : Nat) : Bool := p.memMap.any fun g => Region.contains g a && g.executable

/-- What R45 asks of each byte of a store: it is in a writable region, and in no executable one while TEXT_WRITABLE is
false. -/
def storableAt (p : Params) (a : Nat) : Bool := writableAt p a && (p.textWritable || !executableAt p a)

/-- Each of the `n` bytes from `a` on is an address of the space, "a + i >= 2^64" failing, and has the permission. -/
def allBytes (permitted : Nat → Bool) (a n : Nat) : Bool :=
  (List.range n).all fun i => decide (a + i < 2 ^ 64) && permitted (a + i)

/-- A data access of `n` bytes at `a` is misaligned and MISALIGNED_DATA says that this faults (R43). -/
def misalignedFaults (p : Params) (a : Word) (n : Nat) : Bool :=
  decide (a.toNat % n ≠ 0) && decide (p.misalignedData = .fault)

/-! The access primitives. -/

/-- `MemRead(a, n)` (R44): the value of the `n` bytes at `a`, in the low `8n` bits. -/
def memRead (s : State) (a : Word) (n : Nat) : Except Fault Word :=
  if misalignedFaults s.params a n then .error (.loadAddressMisaligned a)
  else if allBytes (readableAt s.params) a.toNat n then .ok (valueOfBytes (Memory.bytesAt s.mem a.toNat n))
  else .error (.loadAccessFault a)

/-- `MemWrite(a, n, v)` (R45): the low `8n` bits of `v` to the `n` bytes at `a`, all checks before any write. -/
def memWrite (s : State) (a : Word) (n : Nat) (v : Word) : Except Fault State :=
  if misalignedFaults s.params a n then .error (.storeAddressMisaligned a)
  else if allBytes (storableAt s.params) a.toNat n then
    .ok { s with mem := Memory.putBytes s.mem a.toNat (bytesOfValue v n) }
  else .error (.storeAccessFault a)

/-- `FetchWord(a)` (R46): the instruction word at a multiple of 4, its four bytes all executable. -/
def fetchWord (s : State) (a : Word) : Except Fault InstrWord :=
  if allBytes (executableAt s.params) a.toNat 4 then
    .ok ((valueOfBytes (Memory.bytesAt s.mem a.toNat 4)).setWidth 32)
  else .error (.instructionAccessFault a)

end Sys2Proof.Machine
end

