-- ==== Sys2Proof/Machine/Operands.lean ====
section
/-! DEFINITION. The operand forms: immediates extended to 64 bits (R80 to R87), effective addresses (R185), targets
(R161, R162, R170), shift amounts (R150, R210) and the 32-bit operands and results of the `*w` instructions (R210). -/

namespace Sys2Proof.Machine

/-- `cost12` or a byte `spi12`: "estende in segno la costante cost12 da 12 bit fino a 64 bit" (R81, R82). -/
def imm12 (imm : BitVec 12) : Word := imm.signExtend 64

/-- The U-immediate: `sext_64({ inst[31:12], 0^12 })` (R83). -/
def upperImm (imm : BitVec 20) : Word := (imm ++ 0#12 : BitVec 32).signExtend 64

/-- The byte displacement of a branch, `sext_64(imm13)` (R84). -/
def branchOffset (imm : BitVec 13) : Word := imm.signExtend 64

/-- The byte displacement of `jal`, `sext_64(imm21)` (R86). -/
def jumpOffset (imm : BitVec 21) : Word := imm.signExtend 64

/-- The displacement of `jalr`: `sext_64({ inst[31:21], 0 })`, the I-immediate with its bit 0 overwritten with 0 (R87). -/
def jalrOffset (imm : BitVec 12) : Word := (imm.extractLsb' 1 11 ++ 0#1 : BitVec 12).signExtend 64

/-- The effective address of a load or store, `x[rs1] + sext_64(imm12)` modulo 2^64 (R185). -/
def effectiveAddress (s : State) (rs1 : Reg) (imm : BitVec 12) : Word := readReg s rs1 + imm12 imm

/-- The target of a taken branch, `pc + sext_64(imm13)` (R170). -/
def branchTarget (s : State) (imm : BitVec 13) : Word := s.pc + branchOffset imm

/-- The target of `jal`, `pc + sext_64(imm21)` (R161). -/
def jalTarget (s : State) (imm : BitVec 21) : Word := s.pc + jumpOffset imm

/-- The target of `jalr`, `x[rs1] + off` (R162). -/
def jalrTarget (s : State) (rs1 : Reg) (imm : BitVec 12) : Word := readReg s rs1 + jalrOffset imm

/-- The amount of `sll`, `srl`, `sra`: `x[rs2][5:0]` (R150). -/
def shiftAmount64 (v : Word) : Nat := (v.extractLsb' 0 6).toNat

/-- The amount of `sllw`, `srlw`, `sraw`: `x[rs2][4:0]` (R217 to R219). -/
def shiftAmount32 (v : Word) : Nat := (v.extractLsb' 0 5).toNat

/-- `v[31:0]`, the low word of a 64-bit value (R210). -/
def lowWord (v : Word) : BitVec 32 := v.extractLsb' 0 32

/-- `sext_64` of a 32-bit result (R210). -/
def wordResult (v : BitVec 32) : Word := v.signExtend 64

/-- The value a signed load of `n` bits extends: `sext_64` of the low `n` bits (R47). -/
def signExtendLow (n : Nat) (v : Word) : Word := (v.setWidth n).signExtend 64

/-- The value an unsigned load of `n` bits extends: `zext_64` of the low `n` bits (R47). -/
def zeroExtendLow (n : Nat) (v : Word) : Word := (v.setWidth n).setWidth 64

/-! The quotient and remainder of R227 and R228, with the corners DIV_NUMERICS decides. -/

/-- A `DIV_NUMERICS` result that is a function of the dividend; `free` is what is known when nothing is (log entry 12). -/
def divCorner (c : DivCorner) (free : Word → Word) (n : Word) : Word :=
  match c with
  | .value v => v
  | .dividend => n
  | .free => free n

/-- -2^63 divided by -1, the one quotient that overflows (R227). -/
def divOverflows (n d : Word) : Bool := n.toInt == -2 ^ 63 && d.toInt == -1

/-- The quotient: truncated toward zero, but for the two corners (R227). -/
def quotient (c : DivNumerics) (n d : Word) : Word :=
  if d.toInt = 0 then divCorner c.divByZero Config.freeQuotientByZero n
  else if divOverflows n d then c.divOverflow
  else BitVec.ofInt 64 (n.toInt.tdiv d.toInt)

/-- The remainder: `n - d * trunc(n / d)`, with the sign of the dividend, but for the two corners (R228). -/
def remainder (c : DivNumerics) (n d : Word) : Word :=
  if d.toInt = 0 then divCorner c.remByZero Config.freeRemainderByZero n
  else if divOverflows n d then c.remOverflow
  else BitVec.ofInt 64 (n.toInt - d.toInt * n.toInt.tdiv d.toInt)

end Sys2Proof.Machine
end

