-- ==== Sys2Proof/Machine/Arith.lean ====
section
/-! DEFINITION. The arithmetic family `add`, `addi`, `sub` (40_arithmetic.md): 64-bit results modulo 2^64, no flag, no trap (R120). -/

namespace Sys2Proof.Machine

/-- `x[rd] <- x[rs1] + x[rs2]` (R121). -/
def execAdd (rd rs1 rs2 : Reg) (s : State) : Result :=
  writeBack rd (readReg s rs1 + readReg s rs2) s

/-- `x[rd] <- x[rs1] + sext_64(imm12)` (R122). -/
def execAddi (rd rs1 : Reg) (imm : BitVec 12) (s : State) : Result :=
  writeBack rd (readReg s rs1 + imm12 imm) s

/-- `x[rd] <- x[rs1] - x[rs2]` (R123). -/
def execSub (rd rs1 rs2 : Reg) (s : State) : Result :=
  writeBack rd (readReg s rs1 - readReg s rs2) s

end Sys2Proof.Machine
end

