-- ==== Sys2Proof/Machine/Flags.lean ====
section
/-! DEFINITION. The machine has no status flag and no condition code (R27): what other machines keep in flags is computed
here as a condition and used at once, by the comparisons that write it to a register (R130) and by the branches (R170). -/

namespace Sys2Proof.Machine

/-- `a == b`, all 64 bits (R171). -/
def condEqual (a b : Word) : Bool := a == b

/-- `a <s b`, two's complement (R8, R131). -/
def condLessSigned (a b : Word) : Bool := decide (a.toInt < b.toInt)

/-- `a <u b`, natural arithmetic (R8, R133). -/
def condLessUnsigned (a b : Word) : Bool := decide (a.toNat < b.toNat)

/-- A condition as the 64-bit value 1 or 0 (R130). -/
def condWord (c : Bool) : Word := if c then 1#64 else 0#64

end Sys2Proof.Machine
end

