-- ==== Sys2Proof/Machine/Branch.lean ====
section
/-! DEFINITION. The conditional branches (45_branch.md). -/

namespace Sys2Proof.Machine

/-- The common rule of the family (R170): taken, `pc <- pc + sext_64(imm13)`, which raises if that is not a multiple of 4;
not taken, `pc <- pc + 4` whatever the displacement. -/
def branchIf (c : Bool) (imm : BitVec 13) (s : State) : Result :=
  if c then
    if isWordAddress (branchTarget s imm) then .next (setPc s (branchTarget s imm))
    else raise (.instructionAddressMisaligned (branchTarget s imm))
  else .next (advance s)

/-- Branch if `x[rs1] == x[rs2]` (R171). -/
def execBeq (rs1 rs2 : Reg) (imm : BitVec 13) (s : State) : Result :=
  branchIf (condEqual (readReg s rs1) (readReg s rs2)) imm s

/-- Branch if `x[rs1] != x[rs2]` (R172). -/
def execBne (rs1 rs2 : Reg) (imm : BitVec 13) (s : State) : Result :=
  branchIf (!condEqual (readReg s rs1) (readReg s rs2)) imm s

/-- Branch if `x[rs1] >=s x[rs2]` (R173). -/
def execBge (rs1 rs2 : Reg) (imm : BitVec 13) (s : State) : Result :=
  branchIf (!condLessSigned (readReg s rs1) (readReg s rs2)) imm s

/-- Branch if `x[rs1] <s x[rs2]` (R174). -/
def execBlt (rs1 rs2 : Reg) (imm : BitVec 13) (s : State) : Result :=
  branchIf (condLessSigned (readReg s rs1) (readReg s rs2)) imm s

/-- Branch if `x[rs1] >=u x[rs2]` (R175). -/
def execBgeu (rs1 rs2 : Reg) (imm : BitVec 13) (s : State) : Result :=
  branchIf (!condLessUnsigned (readReg s rs1) (readReg s rs2)) imm s

/-- Branch if `x[rs1] <u x[rs2]` (R176). -/
def execBltu (rs1 rs2 : Reg) (imm : BitVec 13) (s : State) : Result :=
  branchIf (condLessUnsigned (readReg s rs1) (readReg s rs2)) imm s

end Sys2Proof.Machine
end

