-- ==== Sys2Proof/Machine/Compare.lean ====
section
/-! DEFINITION. The comparison family `slt`, `slti`, `sltu`, `sltiu` (41_compare.md): 1 or 0 in a register (R130). -/

namespace Sys2Proof.Machine

/-- `x[rd] <- (x[rs1] <s x[rs2]) ? 1 : 0` (R131). -/
def execSlt (rd rs1 rs2 : Reg) (s : State) : Result :=
  writeBack rd (condWord (condLessSigned (readReg s rs1) (readReg s rs2))) s

/-- `x[rd] <- (x[rs1] <s sext_64(imm12)) ? 1 : 0` (R132). -/
def execSlti (rd rs1 : Reg) (imm : BitVec 12) (s : State) : Result :=
  writeBack rd (condWord (condLessSigned (readReg s rs1) (imm12 imm))) s

/-- `x[rd] <- (x[rs1] <u x[rs2]) ? 1 : 0` (R133). -/
def execSltu (rd rs1 rs2 : Reg) (s : State) : Result :=
  writeBack rd (condWord (condLessUnsigned (readReg s rs1) (readReg s rs2))) s

/-- `x[rd] <- (x[rs1] <u sext_64(imm12)) ? 1 : 0`, the constant sign-extended first (R134). -/
def execSltiu (rd rs1 : Reg) (imm : BitVec 12) (s : State) : Result :=
  writeBack rd (condWord (condLessUnsigned (readReg s rs1) (imm12 imm))) s

end Sys2Proof.Machine
end

