-- ==== Sys2Proof/Machine/Constants.lean ====
section
/-! DEFINITION. The upper-immediate instructions `lui`, `auipc` (47_constants.md). -/

namespace Sys2Proof.Machine

/-- `x[rd] <- sext_64({ inst[31:12], 0^12 })` (R201). -/
def execLui (rd : Reg) (imm : BitVec 20) (s : State) : Result := writeBack rd (upperImm imm) s

/-- `x[rd] <- pc + sext_64({ inst[31:12], 0^12 })`, `pc` the address of the `auipc` itself (R202, C4). -/
def execAuipc (rd : Reg) (imm : BitVec 20) (s : State) : Result := writeBack rd (s.pc + upperImm imm) s

end Sys2Proof.Machine
end

