-- ==== Sys2Proof/Machine/Jump.lean ====
section
/-! DEFINITION. The unconditional jumps `jal`, `jalr` (44_jump.md). -/

namespace Sys2Proof.Machine

/-- A jump to `t` that saves `pc + 4` in `rd` (R160): a misaligned target raises and writes neither `rd` nor `pc`. The
target is computed before `rd` is written (D27). -/
def jumpTo (rd : Reg) (t : Word) (s : State) : Result :=
  if isWordAddress t then .next (setPc (writeReg s rd (nextPc s)) t)
  else raise (.instructionAddressMisaligned t)

/-- `t <- pc + sext_64(imm21)`; jump to `t` (R161). -/
def execJal (rd : Reg) (imm : BitVec 21) (s : State) : Result := jumpTo rd (jalTarget s imm) s

/-- `t <- x[rs1] + sext_64({ inst[31:21], 0 })`; jump to `t` (R162): bit 0 of the displacement is cleared, not of the sum
(D17). -/
def execJalr (rd rs1 : Reg) (imm : BitVec 12) (s : State) : Result := jumpTo rd (jalrTarget s rs1 imm) s

end Sys2Proof.Machine
end

