-- ==== Sys2Proof/Machine/LoadStore.lean ====
section
/-! DEFINITION. The loads and stores (46_load_store.md). -/

namespace Sys2Proof.Machine

/-- A load of `n` bytes at the effective address (R185, R47): one MemRead, extended, to `rd`. When the read raises, nothing
is written and `pc` does not advance; with `rd = x0` the access is still made (D18). -/
def loadInto (n : Nat) (extend : Word → Word) (rd rs1 : Reg) (imm : BitVec 12) (s : State) : Result :=
  match memRead s (effectiveAddress s rs1 imm) n with
  | .ok v => writeBack rd (extend v) s
  | .error f => raise f

/-- A store of the low `n` bytes of `rs2` at the effective address (R185, R47): one MemWrite. When it raises, no byte is
written and `pc` does not advance. -/
def storeFrom (n : Nat) (rs2 rs1 : Reg) (imm : BitVec 12) (s : State) : Result :=
  match memWrite s (effectiveAddress s rs1 imm) n (readReg s rs2) with
  | .ok t => .next (advance t)
  | .error f => raise f

/-- `x[rd] <- MemRead(a, 8)` (R186). -/
def execLd (rd rs1 : Reg) (imm : BitVec 12) (s : State) : Result :=
  loadInto 8 id rd rs1 imm s

/-- `x[rd] <- sext_64(MemRead(a, 4))` (R188). -/
def execLw (rd rs1 : Reg) (imm : BitVec 12) (s : State) : Result :=
  loadInto 4 (signExtendLow 32) rd rs1 imm s

/-- `x[rd] <- zext_64(MemRead(a, 4))` (R189). -/
def execLwu (rd rs1 : Reg) (imm : BitVec 12) (s : State) : Result :=
  loadInto 4 (zeroExtendLow 32) rd rs1 imm s

/-- `x[rd] <- sext_64(MemRead(a, 2))` (R191). -/
def execLh (rd rs1 : Reg) (imm : BitVec 12) (s : State) : Result :=
  loadInto 2 (signExtendLow 16) rd rs1 imm s

/-- `x[rd] <- zext_64(MemRead(a, 2))` (R192). -/
def execLhu (rd rs1 : Reg) (imm : BitVec 12) (s : State) : Result :=
  loadInto 2 (zeroExtendLow 16) rd rs1 imm s

/-- `x[rd] <- sext_64(MemRead(a, 1))` (R194). -/
def execLb (rd rs1 : Reg) (imm : BitVec 12) (s : State) : Result :=
  loadInto 1 (signExtendLow 8) rd rs1 imm s

/-- `x[rd] <- zext_64(MemRead(a, 1))` (R195). -/
def execLbu (rd rs1 : Reg) (imm : BitVec 12) (s : State) : Result :=
  loadInto 1 (zeroExtendLow 8) rd rs1 imm s

/-- `MemWrite(a, 8, x[rs2])` (R187). -/
def execSd (rs2 rs1 : Reg) (imm : BitVec 12) (s : State) : Result :=
  storeFrom 8 rs2 rs1 imm s

/-- `MemWrite(a, 4, x[rs2][31:0])` (R190). -/
def execSw (rs2 rs1 : Reg) (imm : BitVec 12) (s : State) : Result :=
  storeFrom 4 rs2 rs1 imm s

/-- `MemWrite(a, 2, x[rs2][15:0])` (R193). -/
def execSh (rs2 rs1 : Reg) (imm : BitVec 12) (s : State) : Result :=
  storeFrom 2 rs2 rs1 imm s

/-- `MemWrite(a, 1, x[rs2][7:0])` (R196). -/
def execSb (rs2 rs1 : Reg) (imm : BitVec 12) (s : State) : Result :=
  storeFrom 1 rs2 rs1 imm s

end Sys2Proof.Machine
end

