-- ==== Sys2Proof/Machine/Logic.lean ====
section
/-! DEFINITION. The logic family `or`, `ori`, `and`, `andi`, `xor`, `xori` (42_logic.md): bit by bit (R140). -/

namespace Sys2Proof.Machine

/-- `x[rd] <- x[rs1] | x[rs2]` (R141). -/
def execOr (rd rs1 rs2 : Reg) (s : State) : Result :=
  writeBack rd (readReg s rs1 ||| readReg s rs2) s

/-- `x[rd] <- x[rs1] | sext_64(imm12)` (R142). -/
def execOri (rd rs1 : Reg) (imm : BitVec 12) (s : State) : Result :=
  writeBack rd (readReg s rs1 ||| imm12 imm) s

/-- `x[rd] <- x[rs1] & x[rs2]` (R143). -/
def execAnd (rd rs1 rs2 : Reg) (s : State) : Result :=
  writeBack rd (readReg s rs1 &&& readReg s rs2) s

/-- `x[rd] <- x[rs1] & sext_64(imm12)` (R144). -/
def execAndi (rd rs1 : Reg) (imm : BitVec 12) (s : State) : Result :=
  writeBack rd (readReg s rs1 &&& imm12 imm) s

/-- `x[rd] <- x[rs1] ^ x[rs2]` (R145). -/
def execXor (rd rs1 rs2 : Reg) (s : State) : Result :=
  writeBack rd (readReg s rs1 ^^^ readReg s rs2) s

/-- `x[rd] <- x[rs1] ^ sext_64(imm12)` (R146). -/
def execXori (rd rs1 : Reg) (imm : BitVec 12) (s : State) : Result :=
  writeBack rd (readReg s rs1 ^^^ imm12 imm) s

end Sys2Proof.Machine
end

