-- ==== Sys2Proof/Machine/MulDiv.lean ====
section
/-! DEFINITION. The instructions EXT_M adds (49_muldiv.md). Whether they are present is the decoder's question (R100, R225); here is what
they do when they are. Product half, rounding and signs: log entry 12. -/

namespace Sys2Proof.Machine

/-- `p <- x[rs1] * x[rs2]`; `x[rd] <- p[63:0]` (R226). -/
def execMul (rd rs1 rs2 : Reg) (s : State) : Result :=
  writeBack rd (readReg s rs1 * readReg s rs2) s

/-- `x[rd] <- trunc(n / d)`, with the corners of DIV_NUMERICS (R227). -/
def execDiv (rd rs1 rs2 : Reg) (s : State) : Result :=
  writeBack rd (quotient s.params.divNumerics (readReg s rs1) (readReg s rs2)) s

/-- `x[rd] <- n - d * trunc(n / d)`, with the corners of DIV_NUMERICS (R228). -/
def execRem (rd rs1 rs2 : Reg) (s : State) : Result :=
  writeBack rd (remainder s.params.divNumerics (readReg s rs1) (readReg s rs2)) s

end Sys2Proof.Machine
end

