-- ==== Sys2Proof/Machine/Shift.lean ====
section
/-! DEFINITION. The shift family (43_shift.md): amounts 0 to 63, `x[rs2][5:0]` in the register forms (R150). -/

namespace Sys2Proof.Machine

/-- `x[rd] <- x[rs1] << shamt` (R151). -/
def execSlli (rd rs1 : Reg) (shamt : BitVec 6) (s : State) : Result :=
  writeBack rd (readReg s rs1 <<< shamt.toNat) s

/-- `x[rd] <- x[rs1] >>u shamt` (R152). -/
def execSrli (rd rs1 : Reg) (shamt : BitVec 6) (s : State) : Result :=
  writeBack rd (readReg s rs1 >>> shamt.toNat) s

/-- `x[rd] <- x[rs1] >>s shamt` (R153). -/
def execSrai (rd rs1 : Reg) (shamt : BitVec 6) (s : State) : Result :=
  writeBack rd ((readReg s rs1).sshiftRight shamt.toNat) s

/-- `x[rd] <- x[rs1] << x[rs2][5:0]` (R154). -/
def execSll (rd rs1 rs2 : Reg) (s : State) : Result :=
  writeBack rd (readReg s rs1 <<< shiftAmount64 (readReg s rs2)) s

/-- `x[rd] <- x[rs1] >>u x[rs2][5:0]` (R155). -/
def execSrl (rd rs1 rs2 : Reg) (s : State) : Result :=
  writeBack rd (readReg s rs1 >>> shiftAmount64 (readReg s rs2)) s

/-- `x[rd] <- x[rs1] >>s x[rs2][5:0]` (R156). -/
def execSra (rd rs1 rs2 : Reg) (s : State) : Result :=
  writeBack rd ((readReg s rs1).sshiftRight (shiftAmount64 (readReg s rs2))) s

end Sys2Proof.Machine
end

