-- ==== Sys2Proof/Machine/WordOps.lean ====
section
/-! DEFINITION. The instructions with a 32-bit result, sign-extended to 64 bits (48_word_ops.md, R210). -/

namespace Sys2Proof.Machine

/-- `s <- x[rs1] + sext_64(imm12)`; `x[rd] <- sext_64(s[31:0])` (R211). -/
def execAddiw (rd rs1 : Reg) (imm : BitVec 12) (s : State) : Result :=
  writeBack rd (wordResult (lowWord (readReg s rs1 + imm12 imm))) s

/-- `x[rd] <- sext_64((x[rs1][31:0] << shamt)[31:0])` (R212). -/
def execSlliw (rd rs1 : Reg) (shamt : BitVec 5) (s : State) : Result :=
  writeBack rd (wordResult (lowWord (readReg s rs1) <<< shamt.toNat)) s

/-- `x[rd] <- sext_64(x[rs1][31:0] >>u shamt)` (R213). -/
def execSrliw (rd rs1 : Reg) (shamt : BitVec 5) (s : State) : Result :=
  writeBack rd (wordResult (lowWord (readReg s rs1) >>> shamt.toNat)) s

/-- `x[rd] <- sext_64(x[rs1][31:0] >>s shamt)` (R214). -/
def execSraiw (rd rs1 : Reg) (shamt : BitVec 5) (s : State) : Result :=
  writeBack rd (wordResult ((lowWord (readReg s rs1)).sshiftRight shamt.toNat)) s

/-- `s <- x[rs1] + x[rs2]`; `x[rd] <- sext_64(s[31:0])` (R215). -/
def execAddw (rd rs1 rs2 : Reg) (s : State) : Result :=
  writeBack rd (wordResult (lowWord (readReg s rs1 + readReg s rs2))) s

/-- `s <- x[rs1] - x[rs2]`; `x[rd] <- sext_64(s[31:0])` (R216). -/
def execSubw (rd rs1 rs2 : Reg) (s : State) : Result :=
  writeBack rd (wordResult (lowWord (readReg s rs1 - readReg s rs2))) s

/-- `x[rd] <- sext_64((x[rs1][31:0] << x[rs2][4:0])[31:0])` (R217). -/
def execSllw (rd rs1 rs2 : Reg) (s : State) : Result :=
  writeBack rd (wordResult (lowWord (readReg s rs1) <<< shiftAmount32 (readReg s rs2))) s

/-- `x[rd] <- sext_64(x[rs1][31:0] >>u x[rs2][4:0])` (R218). -/
def execSrlw (rd rs1 rs2 : Reg) (s : State) : Result :=
  writeBack rd (wordResult (lowWord (readReg s rs1) >>> shiftAmount32 (readReg s rs2))) s

/-- `x[rd] <- sext_64(x[rs1][31:0] >>s x[rs2][4:0])` (R219). -/
def execSraw (rd rs1 rs2 : Reg) (s : State) : Result :=
  writeBack rd (wordResult ((lowWord (readReg s rs1)).sshiftRight (shiftAmount32 (readReg s rs2)))) s

end Sys2Proof.Machine
end

