-- ==== Sys2Proof/Syntax.lean ====
section
/-! DEFINITION. The instructions: one constructor per row of spec/opcode_table.json, operands as R9 and R106 name them.
Immediates are the bit fields of the spec: `imm12` (I, S), the even byte displacements `imm13` (B, R84) and `imm21`
(J, R86), `imm20` (U, R83), shift amounts of 6 and 5 bits (R85). Operand order follows the assembler forms of R106. -/

namespace Sys2Proof

/-- The 52 native instructions (R2). -/
inductive Instr where
  -- arithmetic, comparison, logic and shift, register forms (format R, R94)
  | add (rd rs1 rs2 : Reg)
  | sub (rd rs1 rs2 : Reg)
  | sll (rd rs1 rs2 : Reg)
  | slt (rd rs1 rs2 : Reg)
  | sltu (rd rs1 rs2 : Reg)
  | xor (rd rs1 rs2 : Reg)
  | srl (rd rs1 rs2 : Reg)
  | sra (rd rs1 rs2 : Reg)
  | or (rd rs1 rs2 : Reg)
  | and (rd rs1 rs2 : Reg)
  -- the constant forms (format I, R93)
  | addi (rd rs1 : Reg) (imm : BitVec 12)
  | slti (rd rs1 : Reg) (imm : BitVec 12)
  | sltiu (rd rs1 : Reg) (imm : BitVec 12)
  | xori (rd rs1 : Reg) (imm : BitVec 12)
  | ori (rd rs1 : Reg) (imm : BitVec 12)
  | andi (rd rs1 : Reg) (imm : BitVec 12)
  | slli (rd rs1 : Reg) (shamt : BitVec 6)
  | srli (rd rs1 : Reg) (shamt : BitVec 6)
  | srai (rd rs1 : Reg) (shamt : BitVec 6)
  -- loads (format I, R91)
  | lb (rd rs1 : Reg) (imm : BitVec 12)
  | lh (rd rs1 : Reg) (imm : BitVec 12)
  | lw (rd rs1 : Reg) (imm : BitVec 12)
  | ld (rd rs1 : Reg) (imm : BitVec 12)
  | lbu (rd rs1 : Reg) (imm : BitVec 12)
  | lhu (rd rs1 : Reg) (imm : BitVec 12)
  | lwu (rd rs1 : Reg) (imm : BitVec 12)
  -- stores (format S, R92)
  | sb (rs2 rs1 : Reg) (imm : BitVec 12)
  | sh (rs2 rs1 : Reg) (imm : BitVec 12)
  | sw (rs2 rs1 : Reg) (imm : BitVec 12)
  | sd (rs2 rs1 : Reg) (imm : BitVec 12)
  -- branches (format B, R97)
  | beq (rs1 rs2 : Reg) (imm : BitVec 13)
  | bne (rs1 rs2 : Reg) (imm : BitVec 13)
  | blt (rs1 rs2 : Reg) (imm : BitVec 13)
  | bge (rs1 rs2 : Reg) (imm : BitVec 13)
  | bltu (rs1 rs2 : Reg) (imm : BitVec 13)
  | bgeu (rs1 rs2 : Reg) (imm : BitVec 13)
  -- jumps (formats I and J, R98)
  | jalr (rd rs1 : Reg) (imm : BitVec 12)
  | jal (rd : Reg) (imm : BitVec 21)
  -- constants and addresses (format U, R98)
  | lui (rd : Reg) (imm : BitVec 20)
  | auipc (rd : Reg) (imm : BitVec 20)
  -- 32-bit results (formats I and R, R95, R96)
  | addiw (rd rs1 : Reg) (imm : BitVec 12)
  | slliw (rd rs1 : Reg) (shamt : BitVec 5)
  | srliw (rd rs1 : Reg) (shamt : BitVec 5)
  | sraiw (rd rs1 : Reg) (shamt : BitVec 5)
  | addw (rd rs1 rs2 : Reg)
  | subw (rd rs1 rs2 : Reg)
  | sllw (rd rs1 rs2 : Reg)
  | srlw (rd rs1 rs2 : Reg)
  | sraw (rd rs1 rs2 : Reg)
  -- present only when EXT_M is true (format R, R94, R225)
  | mul (rd rs1 rs2 : Reg)
  | div (rd rs1 rs2 : Reg)
  | rem (rd rs1 rs2 : Reg)
  deriving DecidableEq, Repr

end Sys2Proof
end

