-- ==== Sys2Proof/Decode.lean ====
section
/-! DEFINITION. The encodings (30_encoding.md): the fields of a word, the opcode table, the decoder, and the encoder.
The decoder is R100's: the row whose pattern the masked word equals. The encoder is written from the formats R73 to R78
and the function codes R90 to R98, not from the rows. Opcode values and the B and J bit orders are the spec's decisions
D22 and D23 (UNVERIFIED by any source, log entry 10). -/

namespace Sys2Proof

/-! The fields of an instruction word (R72) and its immediates (R81 to R86). -/

/-- `opcode`, `inst[6:0]` (R71). -/
def fieldOpcode (w : InstrWord) : BitVec 7 := w.extractLsb' 0 7

/-- `rd`, `inst[11:7]` (R72). -/
def fieldRd (w : InstrWord) : Reg := w.extractLsb' 7 5

/-- `rs1`, `inst[19:15]` (R72). -/
def fieldRs1 (w : InstrWord) : Reg := w.extractLsb' 15 5

/-- `rs2`, `inst[24:20]` (R72). -/
def fieldRs2 (w : InstrWord) : Reg := w.extractLsb' 20 5

/-- `shamt6`, `inst[25:20]` (R85). -/
def fieldShamt6 (w : InstrWord) : BitVec 6 := w.extractLsb' 20 6

/-- `shamt5`, `inst[24:20]` (R85). -/
def fieldShamt5 (w : InstrWord) : BitVec 5 := w.extractLsb' 20 5

/-- The I-immediate, `inst[31:20]` (R81). -/
def immI (w : InstrWord) : BitVec 12 := w.extractLsb' 20 12

/-- The S-immediate, `{ inst[31:25], inst[11:7] }` (R82). -/
def immS (w : InstrWord) : BitVec 12 := w.extractLsb' 25 7 ++ w.extractLsb' 7 5

/-- The B-immediate in bytes, `{ inst[31], inst[7], inst[30:25], inst[11:8], 0 }` (R84). -/
def immB (w : InstrWord) : BitVec 13 :=
  w.extractLsb' 31 1 ++ w.extractLsb' 7 1 ++ w.extractLsb' 25 6 ++ w.extractLsb' 8 4 ++ 0#1

/-- The U-immediate field, `inst[31:12]` (R83). -/
def immU (w : InstrWord) : BitVec 20 := w.extractLsb' 12 20

/-- The J-immediate in bytes, `{ inst[31], inst[19:12], inst[20], inst[30:21], 0 }` (R86). -/
def immJ (w : InstrWord) : BitVec 21 :=
  w.extractLsb' 31 1 ++ w.extractLsb' 12 8 ++ w.extractLsb' 20 1 ++ w.extractLsb' 21 10 ++ 0#1

/-! The opcode table. -/

/-- One row of opcode_table.json: its mnemonic, its `match` and `mask`, whether it is there only when EXT_M is true (R100),
and the instruction its operand fields give. -/
structure OpcodeRow where
  mnemonic : String
  pattern : InstrWord
  mask : InstrWord
  needsM : Bool
  build : InstrWord → Instr

/-- `(inst & mask) == match` (R100). -/
def OpcodeRow.admits (r : OpcodeRow) (w : InstrWord) : Bool := w &&& r.mask == r.pattern

/-- The rows of OP (R94), but for the three rows of EXT_M. -/
def rowsOp : List OpcodeRow :=
  [⟨"add", 0x00000033#32, 0xFE00707F#32, false, fun w => .add (fieldRd w) (fieldRs1 w) (fieldRs2 w)⟩,
   ⟨"sub", 0x40000033#32, 0xFE00707F#32, false, fun w => .sub (fieldRd w) (fieldRs1 w) (fieldRs2 w)⟩,
   ⟨"sll", 0x00001033#32, 0xFE00707F#32, false, fun w => .sll (fieldRd w) (fieldRs1 w) (fieldRs2 w)⟩,
   ⟨"slt", 0x00002033#32, 0xFE00707F#32, false, fun w => .slt (fieldRd w) (fieldRs1 w) (fieldRs2 w)⟩,
   ⟨"sltu", 0x00003033#32, 0xFE00707F#32, false, fun w => .sltu (fieldRd w) (fieldRs1 w) (fieldRs2 w)⟩,
   ⟨"xor", 0x00004033#32, 0xFE00707F#32, false, fun w => .xor (fieldRd w) (fieldRs1 w) (fieldRs2 w)⟩,
   ⟨"srl", 0x00005033#32, 0xFE00707F#32, false, fun w => .srl (fieldRd w) (fieldRs1 w) (fieldRs2 w)⟩,
   ⟨"sra", 0x40005033#32, 0xFE00707F#32, false, fun w => .sra (fieldRd w) (fieldRs1 w) (fieldRs2 w)⟩,
   ⟨"or", 0x00006033#32, 0xFE00707F#32, false, fun w => .or (fieldRd w) (fieldRs1 w) (fieldRs2 w)⟩,
   ⟨"and", 0x00007033#32, 0xFE00707F#32, false, fun w => .and (fieldRd w) (fieldRs1 w) (fieldRs2 w)⟩]

/-- The rows of OP-IMM (R93). -/
def rowsOpImm : List OpcodeRow :=
  [⟨"addi", 0x00000013#32, 0x0000707F#32, false, fun w => .addi (fieldRd w) (fieldRs1 w) (immI w)⟩,
   ⟨"slti", 0x00002013#32, 0x0000707F#32, false, fun w => .slti (fieldRd w) (fieldRs1 w) (immI w)⟩,
   ⟨"sltiu", 0x00003013#32, 0x0000707F#32, false, fun w => .sltiu (fieldRd w) (fieldRs1 w) (immI w)⟩,
   ⟨"xori", 0x00004013#32, 0x0000707F#32, false, fun w => .xori (fieldRd w) (fieldRs1 w) (immI w)⟩,
   ⟨"ori", 0x00006013#32, 0x0000707F#32, false, fun w => .ori (fieldRd w) (fieldRs1 w) (immI w)⟩,
   ⟨"andi", 0x00007013#32, 0x0000707F#32, false, fun w => .andi (fieldRd w) (fieldRs1 w) (immI w)⟩,
   ⟨"slli", 0x00001013#32, 0xFC00707F#32, false, fun w => .slli (fieldRd w) (fieldRs1 w) (fieldShamt6 w)⟩,
   ⟨"srli", 0x00005013#32, 0xFC00707F#32, false, fun w => .srli (fieldRd w) (fieldRs1 w) (fieldShamt6 w)⟩,
   ⟨"srai", 0x40005013#32, 0xFC00707F#32, false, fun w => .srai (fieldRd w) (fieldRs1 w) (fieldShamt6 w)⟩]

/-- The rows of LOAD (R91). -/
def rowsLoad : List OpcodeRow :=
  [⟨"lb", 0x00000003#32, 0x0000707F#32, false, fun w => .lb (fieldRd w) (fieldRs1 w) (immI w)⟩,
   ⟨"lh", 0x00001003#32, 0x0000707F#32, false, fun w => .lh (fieldRd w) (fieldRs1 w) (immI w)⟩,
   ⟨"lw", 0x00002003#32, 0x0000707F#32, false, fun w => .lw (fieldRd w) (fieldRs1 w) (immI w)⟩,
   ⟨"ld", 0x00003003#32, 0x0000707F#32, false, fun w => .ld (fieldRd w) (fieldRs1 w) (immI w)⟩,
   ⟨"lbu", 0x00004003#32, 0x0000707F#32, false, fun w => .lbu (fieldRd w) (fieldRs1 w) (immI w)⟩,
   ⟨"lhu", 0x00005003#32, 0x0000707F#32, false, fun w => .lhu (fieldRd w) (fieldRs1 w) (immI w)⟩,
   ⟨"lwu", 0x00006003#32, 0x0000707F#32, false, fun w => .lwu (fieldRd w) (fieldRs1 w) (immI w)⟩]

/-- The rows of STORE (R92). -/
def rowsStore : List OpcodeRow :=
  [⟨"sb", 0x00000023#32, 0x0000707F#32, false, fun w => .sb (fieldRs2 w) (fieldRs1 w) (immS w)⟩,
   ⟨"sh", 0x00001023#32, 0x0000707F#32, false, fun w => .sh (fieldRs2 w) (fieldRs1 w) (immS w)⟩,
   ⟨"sw", 0x00002023#32, 0x0000707F#32, false, fun w => .sw (fieldRs2 w) (fieldRs1 w) (immS w)⟩,
   ⟨"sd", 0x00003023#32, 0x0000707F#32, false, fun w => .sd (fieldRs2 w) (fieldRs1 w) (immS w)⟩]

/-- The rows of BRANCH (R97). -/
def rowsBranch : List OpcodeRow :=
  [⟨"beq", 0x00000063#32, 0x0000707F#32, false, fun w => .beq (fieldRs1 w) (fieldRs2 w) (immB w)⟩,
   ⟨"bne", 0x00001063#32, 0x0000707F#32, false, fun w => .bne (fieldRs1 w) (fieldRs2 w) (immB w)⟩,
   ⟨"blt", 0x00004063#32, 0x0000707F#32, false, fun w => .blt (fieldRs1 w) (fieldRs2 w) (immB w)⟩,
   ⟨"bge", 0x00005063#32, 0x0000707F#32, false, fun w => .bge (fieldRs1 w) (fieldRs2 w) (immB w)⟩,
   ⟨"bltu", 0x00006063#32, 0x0000707F#32, false, fun w => .bltu (fieldRs1 w) (fieldRs2 w) (immB w)⟩,
   ⟨"bgeu", 0x00007063#32, 0x0000707F#32, false, fun w => .bgeu (fieldRs1 w) (fieldRs2 w) (immB w)⟩]

/-- The rows of JALR, JAL, LUI, AUIPC (R98). -/
def rowsJumpUpper : List OpcodeRow :=
  [⟨"jalr", 0x00000067#32, 0x0000707F#32, false, fun w => .jalr (fieldRd w) (fieldRs1 w) (immI w)⟩,
   ⟨"jal", 0x0000006F#32, 0x0000007F#32, false, fun w => .jal (fieldRd w) (immJ w)⟩,
   ⟨"lui", 0x00000037#32, 0x0000007F#32, false, fun w => .lui (fieldRd w) (immU w)⟩,
   ⟨"auipc", 0x00000017#32, 0x0000007F#32, false, fun w => .auipc (fieldRd w) (immU w)⟩]

/-- The rows of OP-IMM-32 and OP-32 (R95, R96). -/
def rowsWord : List OpcodeRow :=
  [⟨"addiw", 0x0000001B#32, 0x0000707F#32, false, fun w => .addiw (fieldRd w) (fieldRs1 w) (immI w)⟩,
   ⟨"slliw", 0x0000101B#32, 0xFE00707F#32, false, fun w => .slliw (fieldRd w) (fieldRs1 w) (fieldShamt5 w)⟩,
   ⟨"srliw", 0x0000501B#32, 0xFE00707F#32, false, fun w => .srliw (fieldRd w) (fieldRs1 w) (fieldShamt5 w)⟩,
   ⟨"sraiw", 0x4000501B#32, 0xFE00707F#32, false, fun w => .sraiw (fieldRd w) (fieldRs1 w) (fieldShamt5 w)⟩,
   ⟨"addw", 0x0000003B#32, 0xFE00707F#32, false, fun w => .addw (fieldRd w) (fieldRs1 w) (fieldRs2 w)⟩,
   ⟨"subw", 0x4000003B#32, 0xFE00707F#32, false, fun w => .subw (fieldRd w) (fieldRs1 w) (fieldRs2 w)⟩,
   ⟨"sllw", 0x0000103B#32, 0xFE00707F#32, false, fun w => .sllw (fieldRd w) (fieldRs1 w) (fieldRs2 w)⟩,
   ⟨"srlw", 0x0000503B#32, 0xFE00707F#32, false, fun w => .srlw (fieldRd w) (fieldRs1 w) (fieldRs2 w)⟩,
   ⟨"sraw", 0x4000503B#32, 0xFE00707F#32, false, fun w => .sraw (fieldRd w) (fieldRs1 w) (fieldRs2 w)⟩]

/-- The rows of OP that EXT_M adds (R94, R225). -/
def rowsMulDiv : List OpcodeRow :=
  [⟨"mul", 0x02000033#32, 0xFE00707F#32, true, fun w => .mul (fieldRd w) (fieldRs1 w) (fieldRs2 w)⟩,
   ⟨"div", 0x02004033#32, 0xFE00707F#32, true, fun w => .div (fieldRd w) (fieldRs1 w) (fieldRs2 w)⟩,
   ⟨"rem", 0x02006033#32, 0xFE00707F#32, true, fun w => .rem (fieldRd w) (fieldRs1 w) (fieldRs2 w)⟩]

/-- The whole opcode table, in its order. -/
def opcodeRows : List OpcodeRow :=
  rowsOp ++ rowsOpImm ++ rowsLoad ++ rowsStore ++ rowsBranch ++ rowsJumpUpper ++ rowsWord ++ rowsMulDiv

/-- The rows a machine has: "If EXT_M is false the rows mul, div, rem are removed before decoding" (R100). -/
def presentRows (extM : Bool) : List OpcodeRow := opcodeRows.filter fun r => extM || !r.needsM

/-! The decoder. -/

/-- What decoding a word gives. -/
inductive Decoded where
  /-- The instruction of the row that matches. -/
  | instr (i : Instr)
  /-- The SYSTEM and MISC-MEM opcodes, refused by name (R104). -/
  | unspecified
  /-- No row matches (R101). -/
  | illegal
  /-- Not four bytes: there is no other instruction length (R70). -/
  | wrongLength
  deriving DecidableEq, Repr

/-- The opcodes `1110011` (SYSTEM) and `0001111` (MISC-MEM) (R104). -/
def isUnspecifiedOpcode (w : InstrWord) : Bool :=
  fieldOpcode w == 0b1110011#7 || fieldOpcode w == 0b0001111#7

/-- Decoding of a word (R100), the refused opcodes first (R253, items 4 and 5). -/
def decode (extM : Bool) (w : InstrWord) : Decoded :=
  if isUnspecifiedOpcode w then .unspecified
  else match (presentRows extM).find? (·.admits w) with
    | some r => .instr (r.build w)
    | none => .illegal

/-- The word whose four bytes stand at rising addresses, low byte first (R42, R46). -/
def wordOfBytes (b0 b1 b2 b3 : Byte) : InstrWord := b3 ++ b2 ++ b1 ++ b0

/-- The four bytes of a word, in the order memory holds them (R42, R46). -/
def bytesOfWord (w : InstrWord) : List Byte :=
  [w.extractLsb' 0 8, w.extractLsb' 8 8, w.extractLsb' 16 8, w.extractLsb' 24 8]

/-- Decoding of bytes, total: anything but four bytes is rejected. -/
def decodeBytes (extM : Bool) : List Byte → Decoded
  | [b0, b1, b2, b3] => decode extM (wordOfBytes b0 b1 b2 b3)
  | _ => .wrongLength

/-- The instruction a table row's word decodes to, for the host: the `nbits` bits of `w` are laid out as memory holds them
and given to the decoder, every row of the table present (EXT_M = true). -/
def decodeTableWord (nbits w : Nat) : Option Instr :=
  match decodeBytes true (bytesOfWord (BitVec.ofNat 32 (w % 2 ^ nbits))) with
  | .instr i => if nbits ≤ 32 then some i else none
  | _ => none

/-! The encoder. -/

/-- Format R (R73). -/
def encodeR (funct7 : BitVec 7) (rs2 rs1 : Reg) (funct3 : BitVec 3) (rd : Reg) (opcode : BitVec 7) : InstrWord :=
  funct7 ++ rs2 ++ rs1 ++ funct3 ++ rd ++ opcode

/-- Format I (R74). -/
def encodeI (imm : BitVec 12) (rs1 : Reg) (funct3 : BitVec 3) (rd : Reg) (opcode : BitVec 7) : InstrWord :=
  imm ++ rs1 ++ funct3 ++ rd ++ opcode

/-- Format I with a 6-bit shift amount in `inst[25:20]` and a function code above it (R85). -/
def encodeShift6 (funct6 shamt : BitVec 6) (rs1 : Reg) (funct3 : BitVec 3) (rd : Reg) (opcode : BitVec 7) : InstrWord :=
  funct6 ++ shamt ++ rs1 ++ funct3 ++ rd ++ opcode

/-- Format S (R75). -/
def encodeS (imm : BitVec 12) (rs2 rs1 : Reg) (funct3 : BitVec 3) (opcode : BitVec 7) : InstrWord :=
  imm.extractLsb' 5 7 ++ rs2 ++ rs1 ++ funct3 ++ imm.extractLsb' 0 5 ++ opcode

/-- Format B (R76): bit 0 of the byte displacement has no place in the word. -/
def encodeB (imm : BitVec 13) (rs2 rs1 : Reg) (funct3 : BitVec 3) (opcode : BitVec 7) : InstrWord :=
  imm.extractLsb' 12 1 ++ imm.extractLsb' 5 6 ++ rs2 ++ rs1 ++ funct3 ++ imm.extractLsb' 1 4 ++ imm.extractLsb' 11 1 ++
    opcode

/-- Format U (R77). -/
def encodeU (imm : BitVec 20) (rd : Reg) (opcode : BitVec 7) : InstrWord := imm ++ rd ++ opcode

/-- Format J (R78): bit 0 of the byte displacement has no place in the word. -/
def encodeJ (imm : BitVec 21) (rd : Reg) (opcode : BitVec 7) : InstrWord :=
  imm.extractLsb' 20 1 ++ imm.extractLsb' 1 10 ++ imm.extractLsb' 11 1 ++ imm.extractLsb' 12 8 ++ rd ++ opcode

/-- The word of an instruction, from the function codes of R90 to R98 and the shift amounts of R85. -/
def encode : Instr → InstrWord
  | .add rd rs1 rs2 => encodeR 0b0000000#7 rs2 rs1 0b000#3 rd 0b0110011#7
  | .sub rd rs1 rs2 => encodeR 0b0100000#7 rs2 rs1 0b000#3 rd 0b0110011#7
  | .sll rd rs1 rs2 => encodeR 0b0000000#7 rs2 rs1 0b001#3 rd 0b0110011#7
  | .slt rd rs1 rs2 => encodeR 0b0000000#7 rs2 rs1 0b010#3 rd 0b0110011#7
  | .sltu rd rs1 rs2 => encodeR 0b0000000#7 rs2 rs1 0b011#3 rd 0b0110011#7
  | .xor rd rs1 rs2 => encodeR 0b0000000#7 rs2 rs1 0b100#3 rd 0b0110011#7
  | .srl rd rs1 rs2 => encodeR 0b0000000#7 rs2 rs1 0b101#3 rd 0b0110011#7
  | .sra rd rs1 rs2 => encodeR 0b0100000#7 rs2 rs1 0b101#3 rd 0b0110011#7
  | .or rd rs1 rs2 => encodeR 0b0000000#7 rs2 rs1 0b110#3 rd 0b0110011#7
  | .and rd rs1 rs2 => encodeR 0b0000000#7 rs2 rs1 0b111#3 rd 0b0110011#7
  | .addi rd rs1 imm => encodeI imm rs1 0b000#3 rd 0b0010011#7
  | .slti rd rs1 imm => encodeI imm rs1 0b010#3 rd 0b0010011#7
  | .sltiu rd rs1 imm => encodeI imm rs1 0b011#3 rd 0b0010011#7
  | .xori rd rs1 imm => encodeI imm rs1 0b100#3 rd 0b0010011#7
  | .ori rd rs1 imm => encodeI imm rs1 0b110#3 rd 0b0010011#7
  | .andi rd rs1 imm => encodeI imm rs1 0b111#3 rd 0b0010011#7
  | .slli rd rs1 sh => encodeShift6 0b000000#6 sh rs1 0b001#3 rd 0b0010011#7
  | .srli rd rs1 sh => encodeShift6 0b000000#6 sh rs1 0b101#3 rd 0b0010011#7
  | .srai rd rs1 sh => encodeShift6 0b010000#6 sh rs1 0b101#3 rd 0b0010011#7
  | .lb rd rs1 imm => encodeI imm rs1 0b000#3 rd 0b0000011#7
  | .lh rd rs1 imm => encodeI imm rs1 0b001#3 rd 0b0000011#7
  | .lw rd rs1 imm => encodeI imm rs1 0b010#3 rd 0b0000011#7
  | .ld rd rs1 imm => encodeI imm rs1 0b011#3 rd 0b0000011#7
  | .lbu rd rs1 imm => encodeI imm rs1 0b100#3 rd 0b0000011#7
  | .lhu rd rs1 imm => encodeI imm rs1 0b101#3 rd 0b0000011#7
  | .lwu rd rs1 imm => encodeI imm rs1 0b110#3 rd 0b0000011#7
  | .sb rs2 rs1 imm => encodeS imm rs2 rs1 0b000#3 0b0100011#7
  | .sh rs2 rs1 imm => encodeS imm rs2 rs1 0b001#3 0b0100011#7
  | .sw rs2 rs1 imm => encodeS imm rs2 rs1 0b010#3 0b0100011#7
  | .sd rs2 rs1 imm => encodeS imm rs2 rs1 0b011#3 0b0100011#7
  | .beq rs1 rs2 imm => encodeB imm rs2 rs1 0b000#3 0b1100011#7
  | .bne rs1 rs2 imm => encodeB imm rs2 rs1 0b001#3 0b1100011#7
  | .blt rs1 rs2 imm => encodeB imm rs2 rs1 0b100#3 0b1100011#7
  | .bge rs1 rs2 imm => encodeB imm rs2 rs1 0b101#3 0b1100011#7
  | .bltu rs1 rs2 imm => encodeB imm rs2 rs1 0b110#3 0b1100011#7
  | .bgeu rs1 rs2 imm => encodeB imm rs2 rs1 0b111#3 0b1100011#7
  | .jalr rd rs1 imm => encodeI imm rs1 0b000#3 rd 0b1100111#7
  | .jal rd imm => encodeJ imm rd 0b1101111#7
  | .lui rd imm => encodeU imm rd 0b0110111#7
  | .auipc rd imm => encodeU imm rd 0b0010111#7
  | .addiw rd rs1 imm => encodeI imm rs1 0b000#3 rd 0b0011011#7
  | .slliw rd rs1 sh => encodeR 0b0000000#7 sh rs1 0b001#3 rd 0b0011011#7
  | .srliw rd rs1 sh => encodeR 0b0000000#7 sh rs1 0b101#3 rd 0b0011011#7
  | .sraiw rd rs1 sh => encodeR 0b0100000#7 sh rs1 0b101#3 rd 0b0011011#7
  | .addw rd rs1 rs2 => encodeR 0b0000000#7 rs2 rs1 0b000#3 rd 0b0111011#7
  | .subw rd rs1 rs2 => encodeR 0b0100000#7 rs2 rs1 0b000#3 rd 0b0111011#7
  | .sllw rd rs1 rs2 => encodeR 0b0000000#7 rs2 rs1 0b001#3 rd 0b0111011#7
  | .srlw rd rs1 rs2 => encodeR 0b0000000#7 rs2 rs1 0b101#3 rd 0b0111011#7
  | .sraw rd rs1 rs2 => encodeR 0b0100000#7 rs2 rs1 0b101#3 rd 0b0111011#7
  | .mul rd rs1 rs2 => encodeR 0b0000001#7 rs2 rs1 0b000#3 rd 0b0110011#7
  | .div rd rs1 rs2 => encodeR 0b0000001#7 rs2 rs1 0b100#3 rd 0b0110011#7
  | .rem rd rs1 rs2 => encodeR 0b0000001#7 rs2 rs1 0b110#3 rd 0b0110011#7

/-- The mnemonic of an instruction, as opcode_table.json has it. -/
def Instr.mnemonic : Instr → String
  | .add _ _ _ => "add"
  | .sub _ _ _ => "sub"
  | .sll _ _ _ => "sll"
  | .slt _ _ _ => "slt"
  | .sltu _ _ _ => "sltu"
  | .xor _ _ _ => "xor"
  | .srl _ _ _ => "srl"
  | .sra _ _ _ => "sra"
  | .or _ _ _ => "or"
  | .and _ _ _ => "and"
  | .addi _ _ _ => "addi"
  | .slti _ _ _ => "slti"
  | .sltiu _ _ _ => "sltiu"
  | .xori _ _ _ => "xori"
  | .ori _ _ _ => "ori"
  | .andi _ _ _ => "andi"
  | .slli _ _ _ => "slli"
  | .srli _ _ _ => "srli"
  | .srai _ _ _ => "srai"
  | .lb _ _ _ => "lb"
  | .lh _ _ _ => "lh"
  | .lw _ _ _ => "lw"
  | .ld _ _ _ => "ld"
  | .lbu _ _ _ => "lbu"
  | .lhu _ _ _ => "lhu"
  | .lwu _ _ _ => "lwu"
  | .sb _ _ _ => "sb"
  | .sh _ _ _ => "sh"
  | .sw _ _ _ => "sw"
  | .sd _ _ _ => "sd"
  | .beq _ _ _ => "beq"
  | .bne _ _ _ => "bne"
  | .blt _ _ _ => "blt"
  | .bge _ _ _ => "bge"
  | .bltu _ _ _ => "bltu"
  | .bgeu _ _ _ => "bgeu"
  | .jalr _ _ _ => "jalr"
  | .jal _ _ => "jal"
  | .lui _ _ => "lui"
  | .auipc _ _ => "auipc"
  | .addiw _ _ _ => "addiw"
  | .slliw _ _ _ => "slliw"
  | .srliw _ _ _ => "srliw"
  | .sraiw _ _ _ => "sraiw"
  | .addw _ _ _ => "addw"
  | .subw _ _ _ => "subw"
  | .sllw _ _ _ => "sllw"
  | .srlw _ _ _ => "srlw"
  | .sraw _ _ _ => "sraw"
  | .mul _ _ _ => "mul"
  | .div _ _ _ => "div"
  | .rem _ _ _ => "rem"

/-- The instruction is one of the three that only EXT_M adds (R225). -/
def Instr.needsM : Instr → Bool
  | .mul _ _ _ => true
  | .div _ _ _ => true
  | .rem _ _ _ => true
  | _ => false

end Sys2Proof
end

