-- ==== Sys2Proof/Machine/Fetch.lean ====
section
/-! DEFINITION. What a step does before it executes: the checks of R26 in the order of R253, the fetch and the decoding. -/

namespace Sys2Proof.Machine

/-- What the checks before execution find. -/
inductive Fetched where
  /-- `pc == END_PC`: the run is over, no step (R276). -/
  | ended
  /-- A fault before execution: misaligned `pc`, fetch not permitted, or no row matches. -/
  | stop (f : Fault)
  /-- A refused opcode (R251). -/
  | refuse (r : Refusal)
  /-- The instruction to execute. -/
  | run (i : Instr)
  deriving DecidableEq, Repr

/-- What a fetched word leads to: items 4 and 5 of R253. -/
def decoded (s : State) (inst : InstrWord) : Fetched :=
  match decode s.params.extM inst with
  | .instr i => .run i
  | .unspecified => .refuse (.unspecifiedInstruction s.pc inst)
  | .illegal => .stop (.illegalInstruction s.pc inst)
  | .wrongLength => .stop (.illegalInstruction s.pc inst)

/-- The checks of R26 in the order of R253: end of the run, alignment of `pc`, fetch, refused opcodes, illegal words. -/
def fetch (s : State) : Fetched :=
  if s.pc = s.params.endPc then .ended
  else if isWordAddress s.pc then
    match fetchWord s s.pc with
    | .ok inst => decoded s inst
    | .error f => .stop f
  else .stop (.instructionAddressMisaligned s.pc)

/-- The word aligned at or below an address. -/
def alignWord (a : Word) : Word := a &&& 0xFFFFFFFFFFFFFFFC#64

/-- The region of one word that makes its four bytes executable. -/
def wordRegion (a : Word) : Region :=
  { base := a.toNat, length := 4, readable := true, writable := false, executable := true }

/-- The parameters under which a word at `a` can be fetched: where MEM_MAP already has it executable and END_PC is
elsewhere, `p` itself. -/
def fetchableAt (p : Params) (a : Word) : Params :=
  { p with
    memMap := if allBytes (executableAt p) a.toNat 4 then p.memMap else wordRegion a :: p.memMap
    endPc := if p.endPc = a then a + 4#64 else p.endPc }

/-- The word placed at `pc` as a loader places it (R271), where the next step fetches it. -/
def placeAtPc (s : State) (inst : InstrWord) : State :=
  let a := alignWord s.pc
  { s with
    pc := a
    mem := Memory.putBytes s.mem a.toNat (bytesOfWord inst)
    params := fetchableAt s.params a }

end Sys2Proof.Machine
end

