-- ==== Sys2Proof/Machine/Step.lean ====
section
/-! DEFINITION. One step of the machine (R26). -/

namespace Sys2Proof.Machine

/-- One step (R26). At END_PC the run is over and the state is the final state (R276): the model answers that state
unchanged, DESIGN CHOICE, log entry 2. -/
def step (s : State) : Host.Outcome State Fault Refusal :=
  match fetch s with
  | .ended => .next s
  | .stop f => raise f
  | .refuse r => .refused r
  | .run i => exec i s

/-- For the host: `s` with the instruction whose `nbits` bits are `w` placed where `step` fetches next. From the reset
state only the four bytes at `pc` change (log entry 19). -/
def State.withFetchWord (s : State) (nbits w : Nat) : State := placeAtPc s (BitVec.ofNat 32 (w % 2 ^ nbits))

end Sys2Proof.Machine
end

