-- ==== Sys2Proof/Machine/Launch.lean ====
section
/-! DEFINITION. The launch (70_reset_and_hazards.md): "The spec therefore does not model a hardware reset; it models a
launch" (R270). A launcher outside the machine supplies everything the sources leave open. -/

namespace Sys2Proof.Machine

/-- The bytes the loader places (R271 a). DESIGN CHOICE (log entry 28): in the order of the list, so that a later byte at an
address stands over an earlier one, and an address outside the 64-bit space places nothing. DESIGN CHOICE (log entry 29):
MEM_MAP is not asked, so a byte is placed although it lies in no region, or in one without the permissions of R41. -/
def placeCells : Memory → List Host.Cell → Memory
  | m, [] => m
  | m, c :: cs => placeCells (if c.1 < 2 ^ 64 then Memory.put m c.1 c.2 else m) cs

/-- The launch state of R271: MEM_MAP and END_PC in the parameters, RESET_PC in `pc`, INIT_REGS in `x1` to `x31`, the image
in memory, and no fault recorded (a fault is an outcome, log entry 3). DESIGN CHOICE (log entry 29): it refuses no launcher's
choice, also where MEM_MAP, END_PC, RESET_PC or the image is not as R41, R271 and R276 ask. -/
def State.launch (p : Params) (resetPc : Word) (initRegs : Vector Word 31) (image : List Host.Cell) : State :=
  { regs := initRegs, pc := resetPc, mem := placeCells [] image, params := p }

end Sys2Proof.Machine
end

