-- ==== Sys2Proof/Machine/Assembler.lean ====
section
/-! DEFINITION. The assembler level the scope file names (00_scope.md, section 3): register names, roles and save groups
(R22, R23), the modifiers (R108), the pseudo-instructions (R107), the written form of an instruction (R106) and the
directives (R109, R112). Nothing here is executed by the machine: it makes the bytes the launcher places (R271). -/

namespace Sys2Proof.Machine

/-! Register names, roles and save groups. -/

/-- The number form and the ABI name of each register, in order of number (R22). -/
def regNames : List (String × String) :=
  [("x0", "zero"), ("x1", "ra"), ("x2", "sp"), ("x3", "gp"), ("x4", "tp"), ("x5", "t0"), ("x6", "t1"), ("x7", "t2"),
   ("x8", "s0"), ("x9", "s1"), ("x10", "a0"), ("x11", "a1"), ("x12", "a2"), ("x13", "a3"), ("x14", "a4"), ("x15", "a5"),
   ("x16", "a6"), ("x17", "a7"), ("x18", "s2"), ("x19", "s3"), ("x20", "s4"), ("x21", "s5"), ("x22", "s6"), ("x23", "s7"),
   ("x24", "s8"), ("x25", "s9"), ("x26", "s10"), ("x27", "s11"), ("x28", "t3"), ("x29", "t4"), ("x30", "t5"), ("x31", "t6")]

/-- The ABI name of a register (R22); `x8` is also `fp`. -/
def abiName (r : Reg) : String := ((regNames[r.toNat]?).map Prod.snd).getD ""

/-- The register an assembler name denotes: "the number form x0 to x31 and the ABI name", `fp` being `x8` (R22). -/
def regNamed (name : String) : Option Reg :=
  if name == "fp" then some 8#5
  else (regNames.findIdx? fun p => p.1 == name || p.2 == name).map (BitVec.ofNat 5)

/-- The use the source's register table states (R22). No instruction depends on it. -/
inductive RegRole where
  | constantZero
  | returnAddress
  | stackPointer
  | globalPointer
  | threadPointer
  | temporary
  | localOrFramePointer
  | localVariable
  | returnValue
  | argument
  deriving DecidableEq, Repr

/-- The role of a register number (R22). -/
def regRole (r : Reg) : RegRole :=
  let n := r.toNat
  if n = 0 then .constantZero
  else if n = 1 then .returnAddress
  else if n = 2 then .stackPointer
  else if n = 3 then .globalPointer
  else if n = 4 then .threadPointer
  else if n ≤ 7 then .temporary
  else if n = 8 then .localOrFramePointer
  else if n = 9 then .localVariable
  else if n ≤ 11 then .returnValue
  else if n ≤ 17 then .argument
  else if n ≤ 27 then .localVariable
  else .temporary

/-- Who saves a register across a call, by the source's convention (R23). -/
inductive SaveGroup where
  | callerSaved
  | calleeSaved
  | neither
  deriving DecidableEq, Repr

/-- "Caller-saved: t0 to t6, a0 to a7. Callee-saved: fp, ra, s0 to s11" (R23). -/
def saveGroup (r : Reg) : SaveGroup :=
  match regRole r with
  | .temporary => .callerSaved
  | .returnValue => .callerSaved
  | .argument => .callerSaved
  | .returnAddress => .calleeSaved
  | .localOrFramePointer => .calleeSaved
  | .localVariable => .calleeSaved
  | .constantZero => .neither
  | .stackPointer => .neither
  | .globalPointer => .neither
  | .threadPointer => .neither

/-! The modifiers (R108). -/

/-- `%hi(val) = val[31:12] + val[11]`, modulo 2^20. -/
def hiPart (val : BitVec 32) : BitVec 20 := val.extractLsb' 12 20 + (val.extractLsb' 11 1).setWidth 20

/-- `%lo(val) = val[11:0]`. -/
def loPart (val : BitVec 32) : BitVec 12 := val.extractLsb' 0 12

/-- `delta = ind - pc`, a 32-bit number, `pc` the address of the `auipc` of the pair (R108, R205; log entry 23). -/
def pcDelta (ind : BitVec 32) (pc : Word) : BitVec 32 := ind - pc.setWidth 32

/-- `%pcrel_hi(ind) = delta[31:12] + delta[11]`, modulo 2^20. -/
def pcrelHi (ind : BitVec 32) (pc : Word) : BitVec 20 := hiPart (pcDelta ind pc)

/-- `%pcrel_lo(ind) = delta[11:0]`. -/
def pcrelLo (ind : BitVec 32) (pc : Word) : BitVec 12 := loPart (pcDelta ind pc)

/-! The pseudo-instructions (R107). -/

/-- The 16 pseudo-instructions. Branch and jump operands are byte displacements, as in `Instr`. -/
inductive Pseudo where
  | nop
  | neg (rd rs1 : Reg)
  | not (rd rs1 : Reg)
  | mv (rd rs1 : Reg)
  | li (rd : Reg) (val : BitVec 32)
  | la (rd : Reg) (ind : BitVec 32)
  | j (imm : BitVec 21)
  | jr (rs1 : Reg)
  | jalSpi (imm : BitVec 21)
  | jalrReg (rs1 : Reg)
  | ret
  | bgt (rs1 rs2 : Reg) (imm : BitVec 13)
  | ble (rs1 rs2 : Reg) (imm : BitVec 13)
  | bgtu (rs1 rs2 : Reg) (imm : BitVec 13)
  | bleu (rs1 rs2 : Reg) (imm : BitVec 13)
  | sextW (rd rs1 : Reg)
  deriving DecidableEq, Repr

/-- The expansion the assembler puts in place of a pseudo-instruction that stands at `pc` (R107). -/
def Pseudo.expand (pc : Word) : Pseudo → List Instr
  | .nop => [.addi 0#5 0#5 0#12]
  | .neg rd rs1 => [.sub rd 0#5 rs1]
  | .not rd rs1 => [.xori rd rs1 0xFFF#12]
  | .mv rd rs1 => [.addi rd rs1 0#12]
  | .li rd val => [.lui rd (hiPart val), .addi rd rd (loPart val)]
  | .la rd ind => [.auipc rd (pcrelHi ind pc), .addi rd rd (pcrelLo ind pc)]
  | .j imm => [.jal 0#5 imm]
  | .jr rs1 => [.jalr 0#5 rs1 0#12]
  | .jalSpi imm => [.jal 1#5 imm]
  | .jalrReg rs1 => [.jalr 1#5 rs1 0#12]
  | .ret => [.jalr 0#5 1#5 0#12]
  | .bgt rs1 rs2 imm => [.blt rs2 rs1 imm]
  | .ble rs1 rs2 imm => [.bge rs2 rs1 imm]
  | .bgtu rs1 rs2 imm => [.bltu rs2 rs1 imm]
  | .bleu rs1 rs2 imm => [.bgeu rs2 rs1 imm]
  | .sextW rd rs1 => [.addiw rd rs1 0#12]

/-! The written form of an instruction (R106). -/

/-- `op a, b`. -/
def asmTwo (op a b : String) : String := op ++ " " ++ a ++ ", " ++ b

/-- `op a, b, c`. -/
def asmThree (op a b c : String) : String := op ++ " " ++ a ++ ", " ++ b ++ ", " ++ c

/-- `op a, spi(base)`. -/
def asmMem (op a spi base : String) : String := op ++ " " ++ a ++ ", " ++ spi ++ "(" ++ base ++ ")"

/-- An instruction as R106 writes it, registers by ABI name ("di preferenza", R22), branch and `jal` operands as byte
distances as in the spec's examples (N24, log entry 23). -/
def asmText : Instr → String
  | .add rd rs1 rs2 => asmThree "add" (abiName rd) (abiName rs1) (abiName rs2)
  | .sub rd rs1 rs2 => asmThree "sub" (abiName rd) (abiName rs1) (abiName rs2)
  | .sll rd rs1 rs2 => asmThree "sll" (abiName rd) (abiName rs1) (abiName rs2)
  | .slt rd rs1 rs2 => asmThree "slt" (abiName rd) (abiName rs1) (abiName rs2)
  | .sltu rd rs1 rs2 => asmThree "sltu" (abiName rd) (abiName rs1) (abiName rs2)
  | .xor rd rs1 rs2 => asmThree "xor" (abiName rd) (abiName rs1) (abiName rs2)
  | .srl rd rs1 rs2 => asmThree "srl" (abiName rd) (abiName rs1) (abiName rs2)
  | .sra rd rs1 rs2 => asmThree "sra" (abiName rd) (abiName rs1) (abiName rs2)
  | .or rd rs1 rs2 => asmThree "or" (abiName rd) (abiName rs1) (abiName rs2)
  | .and rd rs1 rs2 => asmThree "and" (abiName rd) (abiName rs1) (abiName rs2)
  | .addi rd rs1 imm => asmThree "addi" (abiName rd) (abiName rs1) (toString imm.toInt)
  | .slti rd rs1 imm => asmThree "slti" (abiName rd) (abiName rs1) (toString imm.toInt)
  | .sltiu rd rs1 imm => asmThree "sltiu" (abiName rd) (abiName rs1) (toString imm.toInt)
  | .xori rd rs1 imm => asmThree "xori" (abiName rd) (abiName rs1) (toString imm.toInt)
  | .ori rd rs1 imm => asmThree "ori" (abiName rd) (abiName rs1) (toString imm.toInt)
  | .andi rd rs1 imm => asmThree "andi" (abiName rd) (abiName rs1) (toString imm.toInt)
  | .slli rd rs1 shamt => asmThree "slli" (abiName rd) (abiName rs1) (toString shamt.toNat)
  | .srli rd rs1 shamt => asmThree "srli" (abiName rd) (abiName rs1) (toString shamt.toNat)
  | .srai rd rs1 shamt => asmThree "srai" (abiName rd) (abiName rs1) (toString shamt.toNat)
  | .lb rd rs1 imm => asmMem "lb" (abiName rd) (toString imm.toInt) (abiName rs1)
  | .lh rd rs1 imm => asmMem "lh" (abiName rd) (toString imm.toInt) (abiName rs1)
  | .lw rd rs1 imm => asmMem "lw" (abiName rd) (toString imm.toInt) (abiName rs1)
  | .ld rd rs1 imm => asmMem "ld" (abiName rd) (toString imm.toInt) (abiName rs1)
  | .lbu rd rs1 imm => asmMem "lbu" (abiName rd) (toString imm.toInt) (abiName rs1)
  | .lhu rd rs1 imm => asmMem "lhu" (abiName rd) (toString imm.toInt) (abiName rs1)
  | .lwu rd rs1 imm => asmMem "lwu" (abiName rd) (toString imm.toInt) (abiName rs1)
  | .sb rs2 rs1 imm => asmMem "sb" (abiName rs2) (toString imm.toInt) (abiName rs1)
  | .sh rs2 rs1 imm => asmMem "sh" (abiName rs2) (toString imm.toInt) (abiName rs1)
  | .sw rs2 rs1 imm => asmMem "sw" (abiName rs2) (toString imm.toInt) (abiName rs1)
  | .sd rs2 rs1 imm => asmMem "sd" (abiName rs2) (toString imm.toInt) (abiName rs1)
  | .beq rs1 rs2 imm => asmThree "beq" (abiName rs1) (abiName rs2) (toString imm.toInt)
  | .bne rs1 rs2 imm => asmThree "bne" (abiName rs1) (abiName rs2) (toString imm.toInt)
  | .blt rs1 rs2 imm => asmThree "blt" (abiName rs1) (abiName rs2) (toString imm.toInt)
  | .bge rs1 rs2 imm => asmThree "bge" (abiName rs1) (abiName rs2) (toString imm.toInt)
  | .bltu rs1 rs2 imm => asmThree "bltu" (abiName rs1) (abiName rs2) (toString imm.toInt)
  | .bgeu rs1 rs2 imm => asmThree "bgeu" (abiName rs1) (abiName rs2) (toString imm.toInt)
  | .jalr rd rs1 imm => asmMem "jalr" (abiName rd) (toString imm.toInt) (abiName rs1)
  | .jal rd imm => asmTwo "jal" (abiName rd) (toString imm.toInt)
  | .lui rd imm => asmTwo "lui" (abiName rd) (toString imm.toNat)
  | .auipc rd imm => asmTwo "auipc" (abiName rd) (toString imm.toNat)
  | .addiw rd rs1 imm => asmThree "addiw" (abiName rd) (abiName rs1) (toString imm.toInt)
  | .slliw rd rs1 shamt => asmThree "slliw" (abiName rd) (abiName rs1) (toString shamt.toNat)
  | .srliw rd rs1 shamt => asmThree "srliw" (abiName rd) (abiName rs1) (toString shamt.toNat)
  | .sraiw rd rs1 shamt => asmThree "sraiw" (abiName rd) (abiName rs1) (toString shamt.toNat)
  | .addw rd rs1 rs2 => asmThree "addw" (abiName rd) (abiName rs1) (abiName rs2)
  | .subw rd rs1 rs2 => asmThree "subw" (abiName rd) (abiName rs1) (abiName rs2)
  | .sllw rd rs1 rs2 => asmThree "sllw" (abiName rd) (abiName rs1) (abiName rs2)
  | .srlw rd rs1 rs2 => asmThree "srlw" (abiName rd) (abiName rs1) (abiName rs2)
  | .sraw rd rs1 rs2 => asmThree "sraw" (abiName rd) (abiName rs1) (abiName rs2)
  | .mul rd rs1 rs2 => asmThree "mul" (abiName rd) (abiName rs1) (abiName rs2)
  | .div rd rs1 rs2 => asmThree "div" (abiName rd) (abiName rs1) (abiName rs2)
  | .rem rd rs1 rs2 => asmThree "rem" (abiName rd) (abiName rs1) (abiName rs2)

/-- The operands are in the range the source states for them: the constant of `slli`, `srli`, `srai` is "compresa
nell'intervallo da 1 a 63" (R85, R106). The decoder admits 0 too (R103). -/
def inSourceRange : Instr → Bool
  | .slli _ _ shamt => shamt != 0#6
  | .srli _ _ shamt => shamt != 0#6
  | .srai _ _ shamt => shamt != 0#6
  | _ => true

/-! The directives (R109, R112). -/

/-- The twelve directives of the source's table; `.ascii(z)` is two of them (G18). -/
inductive Directive where
  | align (n : Fin 4)
  | ascii (chars : List Byte)
  | asciiz (chars : List Byte)
  | byte (values : List (BitVec 8))
  | data (ind : Option Word)
  | dword (values : List (BitVec 64))
  | eqv (sym : String) (val : Int)
  | globl (sym : String)
  | half (values : List (BitVec 16))
  | space (num : Nat)
  | text (ind : Option Word)
  | word (values : List (BitVec 32))
  | zero (num : Nat)
  deriving DecidableEq, Repr

/-- The two segments (R41). -/
inductive Segment where
  | text
  | data
  deriving DecidableEq, Repr

/-- What the assembler has placed so far: the segment being filled, the next free byte of each, the labels, the symbolic
constants, the exported symbols, and the bytes. -/
structure Assembly where
  segment : Segment
  textAt : Nat
  dataAt : Nat
  labels : List (String × Nat)
  constants : List (String × Int)
  globals : List String
  image : List Host.Cell
  deriving DecidableEq, Repr

/-- An empty assembly; where a segment starts without an argument is not stated (N21) and is the caller's. -/
def Assembly.start (textAt dataAt : Nat) : Assembly :=
  { segment := .text, textAt := textAt, dataAt := dataAt, labels := [], constants := [], globals := [], image := [] }

/-- The first free byte of the current segment. -/
def Assembly.here (m : Assembly) : Nat :=
  match m.segment with
  | .text => m.textAt
  | .data => m.dataAt

/-- Move the first free byte of the current segment. -/
def Assembly.moveTo (m : Assembly) (a : Nat) : Assembly :=
  match m.segment with
  | .text => { m with textAt := a }
  | .data => { m with dataAt := a }

/-- Bytes with the addresses they stand at. -/
def cellsAt (a : Nat) : List Byte → List Host.Cell
  | [] => []
  | b :: bs => (a, b) :: cellsAt (a + 1) bs

/-- Place bytes "a partire dal primo byte libero" (R112). -/
def Assembly.place (m : Assembly) (bs : List Byte) : Assembly :=
  { m.moveTo (m.here + bs.length) with image := m.image ++ cellsAt m.here bs }

/-- The next multiple of `2^n` (R109: `.align`). -/
def alignUp (a n : Nat) : Nat := (a + 2 ^ n - 1) / 2 ^ n * 2 ^ n

/-- The effect of a directive (R109). No directive but `.align` aligns ("L'allineamento di default è .align 0", R112);
`.space` leaves its bytes unspecified and `.zero` places zeros. -/
def Assembly.directive (m : Assembly) : Directive → Assembly
  | .align n => m.moveTo (alignUp m.here n.val)
  | .ascii chars => m.place chars
  | .asciiz chars => m.place (chars ++ [0#8])
  | .byte values => m.place values
  | .half values => m.place (values.flatMap fun v => bytesOfValue (v.setWidth 64) 2)
  | .word values => m.place (values.flatMap fun v => bytesOfValue (v.setWidth 64) 4)
  | .dword values => m.place (values.flatMap fun v => bytesOfValue v 8)
  | .space num => m.moveTo (m.here + num)
  | .zero num => m.place (List.replicate num 0#8)
  | .eqv sym val => { m with constants := (sym, val) :: m.constants }
  | .globl sym => { m with globals := sym :: m.globals }
  | .data ind => { m with segment := .data, dataAt := (ind.map (·.toNat)).getD m.dataAt }
  | .text ind => { m with segment := .text, textAt := (ind.map (·.toNat)).getD m.textAt }

/-- A label at the first free byte. -/
def Assembly.label (m : Assembly) (sym : String) : Assembly := { m with labels := (sym, m.here) :: m.labels }

/-- An instruction word placed low byte first (R46). -/
def Assembly.instr (m : Assembly) (i : Instr) : Assembly := m.place (bytesOfWord (encode i))

/-- A pseudo-instruction placed as its expansion (R107). -/
def Assembly.pseudo (m : Assembly) (p : Pseudo) : Assembly :=
  (p.expand (BitVec.ofNat 64 m.here)).foldl Assembly.instr m

end Sys2Proof.Machine
end

