-- ==== Sys2Proof/WellFormed.lean ====
section
/-! DEFINITION. What the types leave to check: an instruction's byte displacement is even (R84, R86), and the parameters
are as R41 and R276 ask. -/

namespace Sys2Proof

/-- The byte displacement of a branch, `{ imm[12:1], 0 }`, is even (R84). -/
def evenBranchOffset (imm : BitVec 13) : Bool := imm.getLsbD 0 == false

/-- The byte displacement of `jal`, `{ imm[20:1], 0 }`, is even (R86). -/
def evenJumpOffset (imm : BitVec 21) : Bool := imm.getLsbD 0 == false

/-- An instruction that has an encoding: every field of the other formats takes every value of its type. -/
def Instr.wf : Instr → Bool
  | .beq _ _ imm => evenBranchOffset imm
  | .bne _ _ imm => evenBranchOffset imm
  | .blt _ _ imm => evenBranchOffset imm
  | .bge _ _ imm => evenBranchOffset imm
  | .bltu _ _ imm => evenBranchOffset imm
  | .bgeu _ _ imm => evenBranchOffset imm
  | .jal _ imm => evenJumpOffset imm
  | .add _ _ _ => true
  | .sub _ _ _ => true
  | .sll _ _ _ => true
  | .slt _ _ _ => true
  | .sltu _ _ _ => true
  | .xor _ _ _ => true
  | .srl _ _ _ => true
  | .sra _ _ _ => true
  | .or _ _ _ => true
  | .and _ _ _ => true
  | .addi _ _ _ => true
  | .slti _ _ _ => true
  | .sltiu _ _ _ => true
  | .xori _ _ _ => true
  | .ori _ _ _ => true
  | .andi _ _ _ => true
  | .slli _ _ _ => true
  | .srli _ _ _ => true
  | .srai _ _ _ => true
  | .lb _ _ _ => true
  | .lh _ _ _ => true
  | .lw _ _ _ => true
  | .ld _ _ _ => true
  | .lbu _ _ _ => true
  | .lhu _ _ _ => true
  | .lwu _ _ _ => true
  | .sb _ _ _ => true
  | .sh _ _ _ => true
  | .sw _ _ _ => true
  | .sd _ _ _ => true
  | .jalr _ _ _ => true
  | .lui _ _ => true
  | .auipc _ _ => true
  | .addiw _ _ _ => true
  | .slliw _ _ _ => true
  | .srliw _ _ _ => true
  | .sraiw _ _ _ => true
  | .addw _ _ _ => true
  | .subw _ _ _ => true
  | .sllw _ _ _ => true
  | .srlw _ _ _ => true
  | .sraw _ _ _ => true
  | .mul _ _ _ => true
  | .div _ _ _ => true
  | .rem _ _ _ => true

/-- A region lies in the 64-bit address space (R40). -/
def Region.wf (g : Region) : Bool := decide (g.base + g.length ≤ 2 ^ 64)

/-- Two regions share no address (R41: "disjoint regions"). -/
def Region.disjoint (g h : Region) : Bool :=
  decide (g.base + g.length ≤ h.base) || decide (h.base + h.length ≤ g.base)

/-- `MEM_MAP` is a set of disjoint regions of the address space (R41). -/
def memMapWf : List Region → Bool
  | [] => true
  | g :: gs => g.wf && gs.all (g.disjoint ·) && memMapWf gs

/-- `END_PC` is a multiple of 4 (R276). -/
def endPcAligned (a : Word) : Bool := decide (a.toNat % 4 = 0)

/-- The parameters are as the spec asks of them. -/
def Params.wf (p : Params) : Bool := memMapWf p.memMap && endPcAligned p.endPc

end Sys2Proof
end

