-- ==== Sys2Proof/Safety.lean ====
section
/-! DEFINITION. What counts as a safe run and as a legal state, and the words the statements are written in: what an
instruction changes, what it leaves, where it stops. -/

namespace Sys2Proof.Machine

/-! Runs. -/

/-- The run is over: `pc == END_PC` at the start of a step (R276). -/
abbrev Ended (s : State) : Prop := s.pc = s.params.endPc

/-- `k` steps from a state, stopping at the first fault or refusal (R241, R276): the host's `Sys2Proof.core.run`, by
`run_eq_core`, in this model's own types. -/
def run : Nat → State → Result
  | 0, s => .next s
  | k + 1, s =>
    match step s with
    | .next t => run k t
    | .fault f => .fault f
    | .refused r => .refused r

/-- `k` steps from `s` all complete and lead to `t`. -/
def RunsTo (k : Nat) (s t : State) : Prop := run k s = .next t

/-- A run that ends with final state `t`: the only outcome of R276 that has one. -/
def EndsIn (s t : State) : Prop := ∃ k, RunsTo k s t ∧ Ended t

/-- The legal states: memory in canonical form, `pc` a multiple of 4 (R25), the parameters as R41 and R276 ask. -/
def Legal (s : State) : Prop := Memory.wf s.mem = true ∧ s.pc.toNat % 4 = 0 ∧ s.params.wf = true

/-! Frames. -/

/-- Every byte of memory reads as before. -/
def SameMemory (s t : State) : Prop := ∀ a, Memory.byteAt t.mem a = Memory.byteAt s.mem a

/-- Every general register reads as before. -/
def SameRegs (s t : State) : Prop := ∀ r, readReg t r = readReg s r

/-- Every general register but one reads as before. -/
def SameRegsBut (rd : Reg) (s t : State) : Prop := ∀ r, r ≠ rd → readReg t r = readReg s r

/-- `t` is `s` after `x[rd] <- v` and `pc <- pc + 4` and nothing else; a write to `x0` is discarded (R21). -/
def WritesReg (rd : Reg) (v : Word) (s t : State) : Prop :=
  readReg t rd = (if rd = 0#5 then 0#64 else v) ∧ SameRegsBut rd s t ∧ t.pc = s.pc + 4#64 ∧ SameMemory s t ∧
    t.params = s.params

/-- `t` is `s` after `pc <- a` and nothing else. -/
def OnlyPc (a : Word) (s t : State) : Prop := t.pc = a ∧ SameRegs s t ∧ SameMemory s t ∧ t.params = s.params

/-- `t` is `s` after `x[rd] <- pc + 4`, `pc <- a` and nothing else (R160). -/
def JumpsTo (rd : Reg) (a : Word) (s t : State) : Prop :=
  t.pc = a ∧ readReg t rd = (if rd = 0#5 then 0#64 else s.pc + 4#64) ∧ SameRegsBut rd s t ∧ SameMemory s t ∧
    t.params = s.params

/-- `t` is `s` after the low `n` bytes of `v` went to the bytes from `a` on, low byte first, and `pc <- pc + 4`, and nothing
else (R42, R45). -/
def StoresBytes (n : Nat) (a v : Word) (s t : State) : Prop :=
  (∀ k, k < n → Memory.byteAt t.mem (a.toNat + k) = v.extractLsb' (8 * k) 8) ∧
  (∀ b, (b < a.toNat ∨ a.toNat + n ≤ b) → Memory.byteAt t.mem b = Memory.byteAt s.mem b) ∧
  SameRegs s t ∧ t.pc = s.pc + 4#64 ∧ t.params = s.params

/-! Completion. -/

/-- The instruction answers a next state, and that state satisfies `P`. -/
def Completes (i : Instr) (s : State) (P : State → Prop) : Prop := ∃ t, exec i s = .next t ∧ P t

/-- The instruction completes and writes one register, with a value of which `P` holds. -/
def Writes (i : Instr) (rd : Reg) (s : State) (P : Word → Prop) : Prop :=
  ∃ v, P v ∧ Completes i s (WritesReg rd v s)

/-- The instructions complete one after another and lead from `s` to `t`. -/
def Runs : List Instr → State → State → Prop
  | [], s, t => t = s
  | i :: is, s, t => ∃ u, exec i s = .next u ∧ Runs is u t

/-! The general shape of the branches, jumps, loads and stores. -/

/-- A transfer to `a`: done where `a` is a multiple of 4, and otherwise the fault of R244 with `a` recorded. -/
def TransfersTo (i : Instr) (a : Word) (s : State) (P : State → Prop) : Prop :=
  (a.toNat % 4 = 0 → Completes i s P) ∧ (a.toNat % 4 ≠ 0 → exec i s = .fault (.instructionAddressMisaligned a))

/-- The common rule of the branches (R170) for the condition `c`, the target `pc + imm13`. -/
def BranchesWhen (c : Prop) (i : Instr) (imm : BitVec 13) (s : State) : Prop :=
  (c → TransfersTo i (s.pc + BitVec.ofInt 64 imm.toInt) s (OnlyPc (s.pc + BitVec.ofInt 64 imm.toInt) s)) ∧
  (¬ c → Completes i s (OnlyPc (s.pc + 4#64) s))

/-- The access of `n` bytes at `a` is one that MISALIGNED_DATA lets pass (R43). -/
abbrev AlignmentOk (p : Params) (a : Word) (n : Nat) : Prop := a.toNat % n = 0 ∨ p.misalignedData = .supported

/-- Every byte of the access is an address of the space and has the permission (R44, R45). -/
abbrev AllPermitted (permitted : Nat → Bool) (a : Word) (n : Nat) : Prop :=
  ∀ k, k < n → a.toNat + k < 2 ^ 64 ∧ permitted (a.toNat + k) = true

/-- `v` is the `n` bytes of memory at `a`, low byte first, extended to 64 bits by sign or by zeros (R42, R44, R47). -/
def IsLoaded (n : Nat) (signed : Bool) (a : Word) (s : State) (v : Word) : Prop :=
  (∀ k, k < n → v.extractLsb' (8 * k) 8 = Memory.byteAt s.mem (a.toNat + k)) ∧
  (∀ j, 8 * n ≤ j → j < 64 → v.getLsbD j = (signed && v.getLsbD (8 * n - 1)))

/-- The base register plus the displacement, modulo 2^64 (R185). -/
def IsEffectiveAddress (a : Word) (rs1 : Reg) (imm : BitVec 12) (s : State) : Prop :=
  (a.toNat : Int) = ((readReg s rs1).toNat + imm.toInt) % 2 ^ 64

/-- The rule of a load of `n` bytes (R185, R44, R47), whole: alignment first, then permission, then the value. -/
def Loads (n : Nat) (signed : Bool) (i : Instr) (rd rs1 : Reg) (imm : BitVec 12) (s : State) : Prop :=
  let a := effectiveAddress s rs1 imm
  IsEffectiveAddress a rs1 imm s ∧
  (¬ AlignmentOk s.params a n → exec i s = .fault (.loadAddressMisaligned a)) ∧
  (AlignmentOk s.params a n → ¬ AllPermitted (readableAt s.params) a n → exec i s = .fault (.loadAccessFault a)) ∧
  (AlignmentOk s.params a n → AllPermitted (readableAt s.params) a n → Writes i rd s (IsLoaded n signed a s))

/-- The rule of a store of `n` bytes (R185, R45, R47), whole: alignment first, then permission, then the bytes. -/
def Stores (n : Nat) (i : Instr) (rs2 rs1 : Reg) (imm : BitVec 12) (s : State) : Prop :=
  let a := effectiveAddress s rs1 imm
  IsEffectiveAddress a rs1 imm s ∧
  (¬ AlignmentOk s.params a n → exec i s = .fault (.storeAddressMisaligned a)) ∧
  (AlignmentOk s.params a n → ¬ AllPermitted (storableAt s.params) a n → exec i s = .fault (.storeAccessFault a)) ∧
  (AlignmentOk s.params a n → AllPermitted (storableAt s.params) a n →
    Completes i s (StoresBytes n a (readReg s rs2) s))

/-! Encodings: every word with the given function codes is the instruction of its fields, whatever EXT_M is. -/

/-- A word with these codes under this mask decodes to `build` of the word. -/
def EncodedAs (pattern mask : InstrWord) (build : InstrWord → Instr) : Prop :=
  ∀ (ext : Bool) (w : InstrWord), w &&& mask = pattern → decode ext w = .instr (build w)

/-- Format R (R73). -/
def EncodedR (pattern : InstrWord) (mk : Reg → Reg → Reg → Instr) : Prop :=
  EncodedAs pattern 0xFE00707F#32 fun w => mk (w.extractLsb 11 7) (w.extractLsb 19 15) (w.extractLsb 24 20)

/-- Format I (R74, R81). -/
def EncodedI (pattern : InstrWord) (mk : Reg → Reg → BitVec 12 → Instr) : Prop :=
  EncodedAs pattern 0x0000707F#32 fun w => mk (w.extractLsb 11 7) (w.extractLsb 19 15) (w.extractLsb 31 20)

/-- Format I with a 6-bit shift amount (R85). -/
def EncodedShift6 (pattern : InstrWord) (mk : Reg → Reg → BitVec 6 → Instr) : Prop :=
  EncodedAs pattern 0xFC00707F#32 fun w => mk (w.extractLsb 11 7) (w.extractLsb 19 15) (w.extractLsb 25 20)

/-- Format I with a 5-bit shift amount (R85). -/
def EncodedShift5 (pattern : InstrWord) (mk : Reg → Reg → BitVec 5 → Instr) : Prop :=
  EncodedAs pattern 0xFE00707F#32 fun w => mk (w.extractLsb 11 7) (w.extractLsb 19 15) (w.extractLsb 24 20)

/-- Format S (R75, R82): data register, base register, displacement. -/
def EncodedS (pattern : InstrWord) (mk : Reg → Reg → BitVec 12 → Instr) : Prop :=
  EncodedAs pattern 0x0000707F#32 fun w =>
    mk (w.extractLsb 24 20) (w.extractLsb 19 15) (w.extractLsb 31 25 ++ w.extractLsb 11 7)

/-- Format B (R76, R84). -/
def EncodedB (pattern : InstrWord) (mk : Reg → Reg → BitVec 13 → Instr) : Prop :=
  EncodedAs pattern 0x0000707F#32 fun w =>
    mk (w.extractLsb 19 15) (w.extractLsb 24 20)
      (w.extractLsb 31 31 ++ w.extractLsb 7 7 ++ w.extractLsb 30 25 ++ w.extractLsb 11 8 ++ 0#1)

/-- Format U (R77, R83). -/
def EncodedU (pattern : InstrWord) (mk : Reg → BitVec 20 → Instr) : Prop :=
  EncodedAs pattern 0x0000007F#32 fun w => mk (w.extractLsb 11 7) (w.extractLsb 31 12)

/-- Format J (R78, R86). -/
def EncodedJ (pattern : InstrWord) (mk : Reg → BitVec 21 → Instr) : Prop :=
  EncodedAs pattern 0x0000007F#32 fun w =>
    mk (w.extractLsb 11 7) (w.extractLsb 31 31 ++ w.extractLsb 19 12 ++ w.extractLsb 20 20 ++ w.extractLsb 30 21 ++ 0#1)

/-- A row of EXT_M (R100, R225): the instruction when EXT_M is true, illegal when it is false. -/
def EncodedM (pattern : InstrWord) (mk : Reg → Reg → Reg → Instr) : Prop :=
  ∀ w : InstrWord, w &&& 0xFE00707F#32 = pattern →
    decode true w = .instr (mk (w.extractLsb 11 7) (w.extractLsb 19 15) (w.extractLsb 24 20)) ∧
    decode false w = .illegal

/-! Whole-machine words. -/

/-- The register an instruction may write, its `rd`; branches and stores have none. -/
def destination : Instr → Option Reg
  | .beq _ _ _ => none
  | .bne _ _ _ => none
  | .blt _ _ _ => none
  | .bge _ _ _ => none
  | .bltu _ _ _ => none
  | .bgeu _ _ _ => none
  | .sb _ _ _ => none
  | .sh _ _ _ => none
  | .sw _ _ _ => none
  | .sd _ _ _ => none
  | .add rd _ _ => some rd
  | .sub rd _ _ => some rd
  | .sll rd _ _ => some rd
  | .slt rd _ _ => some rd
  | .sltu rd _ _ => some rd
  | .xor rd _ _ => some rd
  | .srl rd _ _ => some rd
  | .sra rd _ _ => some rd
  | .or rd _ _ => some rd
  | .and rd _ _ => some rd
  | .addi rd _ _ => some rd
  | .slti rd _ _ => some rd
  | .sltiu rd _ _ => some rd
  | .xori rd _ _ => some rd
  | .ori rd _ _ => some rd
  | .andi rd _ _ => some rd
  | .slli rd _ _ => some rd
  | .srli rd _ _ => some rd
  | .srai rd _ _ => some rd
  | .lb rd _ _ => some rd
  | .lh rd _ _ => some rd
  | .lw rd _ _ => some rd
  | .ld rd _ _ => some rd
  | .lbu rd _ _ => some rd
  | .lhu rd _ _ => some rd
  | .lwu rd _ _ => some rd
  | .jalr rd _ _ => some rd
  | .jal rd _ => some rd
  | .lui rd _ => some rd
  | .auipc rd _ => some rd
  | .addiw rd _ _ => some rd
  | .slliw rd _ _ => some rd
  | .srliw rd _ _ => some rd
  | .sraiw rd _ _ => some rd
  | .addw rd _ _ => some rd
  | .subw rd _ _ => some rd
  | .sllw rd _ _ => some rd
  | .srlw rd _ _ => some rd
  | .sraw rd _ _ => some rd
  | .mul rd _ _ => some rd
  | .div rd _ _ => some rd
  | .rem rd _ _ => some rd

/-- The bytes a store writes, as an effective address and a count (R47); every other instruction stores nothing. -/
def storeTarget (s : State) : Instr → Option (Word × Nat)
  | .sb _ rs1 imm => some (effectiveAddress s rs1 imm, 1)
  | .sh _ rs1 imm => some (effectiveAddress s rs1 imm, 2)
  | .sw _ rs1 imm => some (effectiveAddress s rs1 imm, 4)
  | .sd _ rs1 imm => some (effectiveAddress s rs1 imm, 8)
  | _ => none

/-- The bytes a load reads, as an effective address and a count (R47). -/
def loadTarget (s : State) : Instr → Option (Word × Nat)
  | .lb _ rs1 imm => some (effectiveAddress s rs1 imm, 1)
  | .lbu _ rs1 imm => some (effectiveAddress s rs1 imm, 1)
  | .lh _ rs1 imm => some (effectiveAddress s rs1 imm, 2)
  | .lhu _ rs1 imm => some (effectiveAddress s rs1 imm, 2)
  | .lw _ rs1 imm => some (effectiveAddress s rs1 imm, 4)
  | .lwu _ rs1 imm => some (effectiveAddress s rs1 imm, 4)
  | .ld _ rs1 imm => some (effectiveAddress s rs1 imm, 8)
  | _ => none

/-- Where a jump, or a branch if it is taken, would go (R161, R162, R170). -/
def transferTarget (s : State) : Instr → Option Word
  | .jal _ imm => some (jalTarget s imm)
  | .jalr _ rs1 imm => some (jalrTarget s rs1 imm)
  | .beq _ _ imm => some (branchTarget s imm)
  | .bne _ _ imm => some (branchTarget s imm)
  | .blt _ _ imm => some (branchTarget s imm)
  | .bge _ _ imm => some (branchTarget s imm)
  | .bltu _ _ imm => some (branchTarget s imm)
  | .bgeu _ _ imm => some (branchTarget s imm)
  | _ => none

/-- A jump, which transfers control without a condition (R160). -/
def isJump : Instr → Bool
  | .jal _ _ => true
  | .jalr _ _ _ => true
  | _ => false

/-- The word memory holds at an address, low byte first (R42, R46). -/
def memWord (s : State) (a : Nat) : InstrWord :=
  Memory.byteAt s.mem (a + 3) ++ Memory.byteAt s.mem (a + 2) ++ Memory.byteAt s.mem (a + 1) ++ Memory.byteAt s.mem a

/-- The step gets past the end-of-run, alignment and fetch checks of R253 and reads the word `w` at `pc`. -/
def Fetches (s : State) (w : InstrWord) : Prop :=
  ¬ Ended s ∧ s.pc.toNat % 4 = 0 ∧ AllPermitted (executableAt s.params) s.pc 4 ∧ memWord s s.pc.toNat = w

/-- The step gets past the checks of R253 and executes `i`. -/
def Executes (s : State) (i : Instr) : Prop := ∃ w, Fetches s w ∧ decode s.params.extM w = .instr i

/-- The opcode is one of the two R104 and R251 refuse: SYSTEM or MISC-MEM. -/
abbrev RefusedOpcode (w : InstrWord) : Prop := w.extractLsb 6 0 = 0b1110011#7 ∨ w.extractLsb 6 0 = 0b0001111#7

/-- The eleven major opcodes of R90. -/
def listedOpcodes : List (BitVec 7) :=
  [0b0000011#7, 0b0010011#7, 0b0010111#7, 0b0011011#7, 0b0100011#7, 0b0110011#7, 0b0110111#7, 0b0111011#7, 0b1100011#7,
   0b1100111#7, 0b1101111#7]

/-- The instruction transfers control: a jump always (R160), a branch when its condition holds (R171 to R176). -/
def Transfers (s : State) : Instr → Prop
  | .jal _ _ => True
  | .jalr _ _ _ => True
  | .beq rs1 rs2 _ => (readReg s rs1).toNat = (readReg s rs2).toNat
  | .bne rs1 rs2 _ => (readReg s rs1).toNat ≠ (readReg s rs2).toNat
  | .bge rs1 rs2 _ => (readReg s rs1).toInt ≥ (readReg s rs2).toInt
  | .blt rs1 rs2 _ => (readReg s rs1).toInt < (readReg s rs2).toInt
  | .bgeu rs1 rs2 _ => (readReg s rs1).toNat ≥ (readReg s rs2).toNat
  | .bltu rs1 rs2 _ => (readReg s rs1).toNat < (readReg s rs2).toNat
  | _ => False

/-- The condition under which an instruction, once decoded, raises a fault: the rows of the table of R242 that are not about
fetch or decode. -/
def Raisable (s : State) (i : Instr) : Fault → Prop
  | .instructionAddressMisaligned t => Transfers s i ∧ transferTarget s i = some t ∧ t.toNat % 4 ≠ 0
  | .loadAddressMisaligned a => ∃ n, loadTarget s i = some (a, n) ∧ ¬ AlignmentOk s.params a n
  | .loadAccessFault a =>
    ∃ n, loadTarget s i = some (a, n) ∧ AlignmentOk s.params a n ∧ ¬ AllPermitted (readableAt s.params) a n
  | .storeAddressMisaligned a => ∃ n, storeTarget s i = some (a, n) ∧ ¬ AlignmentOk s.params a n
  | .storeAccessFault a =>
    ∃ n, storeTarget s i = some (a, n) ∧ AlignmentOk s.params a n ∧ ¬ AllPermitted (storableAt s.params) a n
  | .instructionAccessFault _ => False
  | .illegalInstruction _ _ => False

/-- The conditions of R253, items 2 to 6, under which a step ends in a fault or a refusal. -/
def StepStops (s : State) : Prop :=
  ¬ Ended s ∧
    (s.pc.toNat % 4 ≠ 0 ∨ ¬ AllPermitted (executableAt s.params) s.pc 4 ∨
      ∃ w, Fetches s w ∧
        (RefusedOpcode w ∨ (∀ r ∈ presentRows s.params.extM, w &&& r.mask ≠ r.pattern) ∨
          ∃ i f, decode s.params.extM w = .instr i ∧ Raisable s i f))

/-- The address is none of the bytes a store instruction stores to. -/
def NotStoredBy (s : State) (i : Instr) (b : Nat) : Prop :=
  ∀ a n, storeTarget s i = some (a, n) → b < a.toNat ∨ a.toNat + n ≤ b

/-- The last byte an image places at an address (R271 a). -/
def lastPlaced (image : List Host.Cell) (a : Nat) : Option Byte := (image.reverse.find? (·.1 = a)).map (·.2)

/-- The 32-bit constants of the exception R204 and R205 name: `0x7FFFF800` to `0x7FFFFFFF`. -/
abbrev HiCarries (v : BitVec 32) : Prop := 0x7FFFF800 ≤ v.toNat ∧ v.toNat ≤ 0x7FFFFFFF

end Sys2Proof.Machine
end

