-- ==== Sys2Proof/Certificates/Slice0/Obligations.lean ====
section
/-! DEFINITION. The statements of this model for the provers, in the words of Sys2Proof/Safety.lean. Each docstring names the rule of
spec/ it formalises; a statement that rests on a choice of the model says so and names the log entry. -/

section

open Sys2Proof Sys2Proof.Machine

/-- The worked examples of the rules cited, at least one word for each family; the last clause is R225 and R100 with
EXT_M false. -/
def Obligations.KnownWordsDecode : Prop :=
  decode false 0x007302B3#32 = .instr (.add 5#5 6#5 7#5) ∧
  decode false 0xFFF30293#32 = .instr (.addi 5#5 6#5 0xFFF#12) ∧
  decode false 0x007322B3#32 = .instr (.slt 5#5 6#5 7#5) ∧
  decode false 0x0FF37293#32 = .instr (.andi 5#5 6#5 255#12) ∧
  decode false 0x40435293#32 = .instr (.srai 5#5 6#5 4#6) ∧
  decode false 0x008000EF#32 = .instr (.jal 1#5 8#21) ∧
  decode false 0x005300E7#32 = .instr (.jalr 1#5 6#5 5#12) ∧
  decode false 0x8062F063#32 = .instr (.bgeu 5#5 6#5 0x1000#13) ∧
  decode false 0x00432283#32 = .instr (.lw 5#5 6#5 4#12) ∧
  decode false 0xFE513C23#32 = .instr (.sd 5#5 2#5 0xFF8#12) ∧
  decode false 0x123452B7#32 = .instr (.lui 5#5 0x12345#20) ∧
  decode false 0x01F3129B#32 = .instr (.slliw 5#5 6#5 31#5) ∧
  decode true 0x027302B3#32 = .instr (.mul 5#5 6#5 7#5) ∧
  decode false 0x027302B3#32 = .illegal

/-- Formats R73 to R78 and function codes R90 to R98 against the rows of R100: no bit of an operand is dropped. -/
def Obligations.DecodeOfEncode : Prop :=
  ∀ (ext : Bool) (i : Instr), i.wf = true → (i.needsM = true → ext = true) → decode ext (encode i) = .instr i

/-- The other direction of the round trip: a decoded word holds no bit its instruction does not account for (R72 to
R86, R100). -/
def Obligations.EncodeOfDecode : Prop :=
  ∀ (ext : Bool) (w : InstrWord) (i : Instr), decode ext w = .instr i →
    i.wf = true ∧ (i.needsM = true → ext = true) ∧ encode i = w

/-- R100: "The rows are pairwise disjoint (no word matches two rows), so the order of the rows does not matter." -/
def Obligations.RowsAreDisjoint : Prop :=
  (∀ (w : InstrWord) (r q : OpcodeRow), r ∈ opcodeRows → q ∈ opcodeRows →
    w &&& r.mask = r.pattern → w &&& q.mask = q.pattern → r = q) ∧
  (∀ (ext : Bool) (w : InstrWord) (r : OpcodeRow), r ∈ presentRows ext → w &&& r.mask = r.pattern → ¬ RefusedOpcode w →
    decode ext w = .instr (r.build w)) ∧
  (∀ r : OpcodeRow, r ∈ presentRows false ↔
    r ∈ opcodeRows ∧ r.mnemonic ≠ "mul" ∧ r.mnemonic ≠ "div" ∧ r.mnemonic ≠ "rem")

/-- R101; the two opcodes R253 checks first are the subject of `RefusedOpcodesAreRefused`. -/
def Obligations.UnlistedWordIsIllegal : Prop :=
  (∀ (s : State) (w : InstrWord), Fetches s w → ¬ RefusedOpcode w →
    (∀ r ∈ presentRows s.params.extM, w &&& r.mask ≠ r.pattern) → step s = .fault (.illegalInstruction s.pc w)) ∧
  (∀ (s : State) (w : InstrWord), Fetches s w →
    w = 0x00000000#32 ∨ w = 0xFFFFFFFF#32 ∨ w.extractLsb 1 0 ≠ 0b11#2 → step s = .fault (.illegalInstruction s.pc w))

/-- R102, on every word and for both values of EXT_M. -/
def Obligations.ReservedShiftWordsAreIllegal : Prop :=
  ∀ (ext : Bool) (w : InstrWord),
    (w.extractLsb 6 0 = 0b0011011#7 → w.extractLsb 14 12 = 0b001#3 ∨ w.extractLsb 14 12 = 0b101#3 →
      w.getLsbD 25 = true → decode ext w = .illegal) ∧
    (w.extractLsb 6 0 = 0b0010011#7 → w.extractLsb 14 12 = 0b001#3 → w.extractLsb 31 26 ≠ 0b000000#6 →
      decode ext w = .illegal) ∧
    (w.extractLsb 6 0 = 0b0010011#7 → w.extractLsb 14 12 = 0b101#3 → w.extractLsb 31 26 ≠ 0b000000#6 →
      w.extractLsb 31 26 ≠ 0b010000#6 → decode ext w = .illegal)

/-- The rows "none: illegal" of R91 to R98 and R105, on every word and for both values of EXT_M. -/
def Obligations.UnlistedCodesAreIllegal : Prop :=
  ∀ (ext : Bool) (w : InstrWord),
    (w.extractLsb 6 0 ∉ listedOpcodes → ¬ RefusedOpcode w → decode ext w = .illegal) ∧
    (w.extractLsb 6 0 = 0b0000011#7 → w.extractLsb 14 12 = 0b111#3 → decode ext w = .illegal) ∧
    (w.extractLsb 6 0 = 0b0100011#7 → w.getLsbD 14 = true → decode ext w = .illegal) ∧
    (w.extractLsb 6 0 = 0b1100011#7 → w.extractLsb 14 13 = 0b01#2 → decode ext w = .illegal) ∧
    (w.extractLsb 6 0 = 0b1100111#7 → w.extractLsb 14 12 ≠ 0b000#3 → decode ext w = .illegal) ∧
    (w.extractLsb 6 0 = 0b0110011#7 →
      ¬ (w.extractLsb 31 25 = 0b0000000#7 ∨
        (w.extractLsb 31 25 = 0b0100000#7 ∧ (w.extractLsb 14 12 = 0b000#3 ∨ w.extractLsb 14 12 = 0b101#3)) ∨
        (ext = true ∧ w.extractLsb 31 25 = 0b0000001#7 ∧
          (w.extractLsb 14 12 = 0b000#3 ∨ w.extractLsb 14 12 = 0b100#3 ∨ w.extractLsb 14 12 = 0b110#3))) →
      decode ext w = .illegal) ∧
    (w.extractLsb 6 0 = 0b0011011#7 →
      ¬ (w.extractLsb 14 12 = 0b000#3 ∨
        (w.extractLsb 14 12 = 0b001#3 ∧ w.extractLsb 31 25 = 0b0000000#7) ∨
        (w.extractLsb 14 12 = 0b101#3 ∧
          (w.extractLsb 31 25 = 0b0000000#7 ∨ w.extractLsb 31 25 = 0b0100000#7))) →
      decode ext w = .illegal) ∧
    (w.extractLsb 6 0 = 0b0111011#7 →
      ¬ ((w.extractLsb 31 25 = 0b0000000#7 ∧
          (w.extractLsb 14 12 = 0b000#3 ∨ w.extractLsb 14 12 = 0b001#3 ∨ w.extractLsb 14 12 = 0b101#3)) ∨
        (w.extractLsb 31 25 = 0b0100000#7 ∧ (w.extractLsb 14 12 = 0b000#3 ∨ w.extractLsb 14 12 = 0b101#3))) →
      decode ext w = .illegal)

/-- R251 (and R104): no instruction of the opcode table has these opcodes, so no instruction of the table is stopped.
-/
def Obligations.RefusedOpcodesAreRefused : Prop :=
  ∀ (s : State) (w : InstrWord), Fetches s w → RefusedOpcode w →
    step s = .refused (.unspecifiedInstruction s.pc w) ∧
    ∀ k, run (k + 1) s = .refused (.unspecifiedInstruction s.pc w)

/-- R26: inst, row, "execute the rule of row". Nothing is added around exec: each meaning advances pc itself. -/
def Obligations.StepRunsDecoded : Prop :=
  ∀ (s : State) (w : InstrWord) (i : Instr), Fetches s w → decode s.params.extM w = .instr i → step s = exec i s

/-- R253, items 1 to 5. The first clause's next state is the model's choice (log entry 2): the spec says only that
there is no step. -/
def Obligations.StepChecksInOrder : Prop :=
  ∀ s : State,
    (Ended s → step s = .next s) ∧
    (¬ Ended s → s.pc.toNat % 4 ≠ 0 → step s = .fault (.instructionAddressMisaligned s.pc)) ∧
    (¬ Ended s → s.pc.toNat % 4 = 0 → ¬ AllPermitted (executableAt s.params) s.pc 4 →
      step s = .fault (.instructionAccessFault s.pc)) ∧
    (∀ w, Fetches s w → decode s.params.extM w = .unspecified →
      step s = .refused (.unspecifiedInstruction s.pc w)) ∧
    (∀ w, Fetches s w → decode s.params.extM w = .illegal → step s = .fault (.illegalInstruction s.pc w))

/-- R271 a, R46; withFetchWord is the model's (log entry 19): it stands for the loader. -/
def Obligations.PlacedInstructionRuns : Prop :=
  ∀ (s : State) (i : Instr), i.wf = true → (i.needsM = true → s.params.extM = true) →
    step (s.withFetchWord 32 (encode i).toNat) = exec i (s.withFetchWord 32 (encode i).toNat)

/-- R276: "A run has exactly one of three outcomes"; only the first has a final state. Rests on log entry 2 for the
steps after the end. -/
def Obligations.OneFinalState : Prop :=
  ∀ s t : State, EndsIn s t →
    (∀ u, EndsIn s u → u = t) ∧
    (∀ k f, run k s ≠ .fault f) ∧ (∀ k r, run k s ≠ .refused r)

/-- R253, items 2 to 6, with R241 ("in which it executes no further step") and R264 ("always takes the next step"). At
END_PC the next state is the model's choice (log entry 2). -/
def Obligations.StoppedRunsNeverEnd : Prop :=
  ∀ s : State,
    (StepStops s →
      (∀ t, ¬ EndsIn s t) ∧
      ((∃ f, ∀ k, run (k + 1) s = .fault f) ∨ (∃ r, ∀ k, run (k + 1) s = .refused r))) ∧
    (¬ StepStops s → ∃ t, step s = .next t)

/-- R264: "jal x0, 0, which repeats forever and never ends the run". -/
def Obligations.JumpToSelfNeverEnds : Prop :=
  ∀ s : State, Fetches s 0x0000006F#32 → (∀ k, RunsTo k s s) ∧ ¬ ∃ t, EndsIn s t

/-- R20 and R21, through the one read and the one write operation every meaning uses. -/
def Obligations.RegistersReadBack : Prop :=
  ∀ (s : State) (r : Reg) (v : Word),
    readReg s 0#5 = 0#64 ∧
    readReg (writeReg s r v) r = (if r = 0#5 then 0#64 else v) ∧
    SameRegsBut r s (writeReg s r v) ∧
    (writeReg s r v).pc = s.pc ∧ (writeReg s r v).mem = s.mem ∧ (writeReg s r v).params = s.params

/-- The spec states no reset value (R32): log entries 4 to 8 name these. The three defaults of the last line are R5.
-/
def Obligations.ResetValues : Prop :=
  State.reset.pc = 0x400000#64 ∧ State.reset.params.endPc = 0x500000#64 ∧
  (∀ r : Reg, readReg State.reset r = if r = 1#5 then 0x500000#64 else if r = 2#5 then 0x7FFFF000#64 else 0#64) ∧
  State.reset.mem = [] ∧
  State.reset.params.memMap =
    [{ base := 0, length := 0x400000, readable := true, writable := true, executable := false },
     { base := 0x400000, length := 0x1000, readable := true, writable := false, executable := true },
     { base := 0x401000, length := 2 ^ 64 - 0x401000, readable := true, writable := true, executable := false }] ∧
  State.reset.params.extM = true ∧
  State.reset.params.misalignedData = .fault ∧ State.reset.params.textWritable = false ∧
  State.reset.params.divNumerics = DivNumerics.standard

/-- R271, items a to d, for every image, address and parameter. Four things here are choices of the model: the free
value of an unplaced byte and the canonical form of memory inside `Legal` (log entry 8), that the last of two bytes
placed at one address wins (log entry 28), and that a byte is placed whether or not a region of MEM_MAP holds its
address (log entry 29). -/
def Obligations.LaunchState : Prop :=
  ∀ (p : Params) (resetPc : Word) (initRegs : Vector Word 31) (image : List Host.Cell),
    (State.launch p resetPc initRegs image).pc = resetPc ∧
    (State.launch p resetPc initRegs image).params = p ∧
    readReg (State.launch p resetPc initRegs image) 0#5 = 0#64 ∧
    (∀ (k : Fin 31), readReg (State.launch p resetPc initRegs image) (BitVec.ofNat 5 (k.val + 1)) = initRegs[k]) ∧
    (∀ a, a < 2 ^ 64 → Memory.byteAt (State.launch p resetPc initRegs image).mem a =
      (lastPlaced image a).getD (Config.unspecifiedByte a)) ∧
    (p.wf = true → resetPc.toNat % 4 = 0 → Legal (State.launch p resetPc initRegs image))

/-- What R25, R41 and R276 ask, of the reset state the model chose (log entries 4 to 8). -/
def Obligations.ResetIsLegal : Prop :=
  Legal State.reset

/-- R244: "pc is a multiple of 4 at the start of every step that follows a step"; the canonical form is the model's
own. -/
def Obligations.StepKeepsLegal : Prop :=
  ∀ s t : State, Legal s → step s = .next t → Legal t

/-- R244: the check of R26 "can fire only for a misaligned RESET_PC". -/
def Obligations.PcAlignedAfterStep : Prop :=
  ∀ s t : State, ¬ Ended s → step s = .next t → t.pc.toNat % 4 = 0

/-- R54: "the program text never changes during a run and every fetch returns the byte the loader placed". -/
def Obligations.TextNeverChanges : Prop :=
  ∀ (k : Nat) (s t : State), s.params.textWritable = false → RunsTo k s t →
    (∀ a, executableAt s.params a = true → Memory.byteAt t.mem a = Memory.byteAt s.mem a) ∧
    (∀ a : Word, fetchWord t a = fetchWord s a)

/-- R5: parameters of the machine; State carries them as a constant record (log entry 1). -/
def Obligations.ParametersNeverChange : Prop :=
  ∀ (k : Nat) (s t : State), RunsTo k s t → t.params = s.params

/-- R51: a load returns "the value of the most recent store in program order to that byte, or the initial value". -/
def Obligations.BytesKeepTheirLastStore : Prop :=
  ∀ (k : Nat) (s t : State) (b : Nat), RunsTo k s t →
    (∀ j u i, j < k → RunsTo j s u → Executes u i → NotStoredBy u i b) →
    Memory.byteAt t.mem b = Memory.byteAt s.mem b

/-- R45: "Only the n addressed bytes change." R47: "No other instruction accesses data memory." -/
def Obligations.OnlyStoresChangeMemory : Prop :=
  ∀ (i : Instr) (s t : State) (b : Nat), exec i s = .next t → NotStoredBy s i b →
    Memory.byteAt t.mem b = Memory.byteAt s.mem b

/-- R47: each load makes one MemRead, each store one MemWrite, and "No other instruction accesses data memory." -/
def Obligations.OnlyLoadsReadMemory : Prop :=
  ∀ (i : Instr) (s t : State) (m : Memory), exec i s = .next t →
    (∀ a n, loadTarget s i = some (a, n) →
      ∀ k, k < n → Memory.byteAt m (a.toNat + k) = Memory.byteAt s.mem (a.toNat + k)) →
    ∃ u, exec i { s with mem := m } = .next u ∧ SameRegs t u ∧ u.pc = t.pc ∧ u.params = t.params

/-- R23: "No instruction saves or restores a register by itself; jal and jalr write only rd and pc." -/
def Obligations.OnlyTheDestinationChanges : Prop :=
  ∀ (i : Instr) (s t : State) (r : Reg), exec i s = .next t → destination i ≠ some r → readReg t r = readReg s r

/-- R25: "Every instruction that is not a taken branch or a jump ends with pc <- pc + 4"; there is no delay slot. -/
def Obligations.NextInstruction : Prop :=
  ∀ (i : Instr) (s t : State), exec i s = .next t →
    (transferTarget s i = none → t.pc = s.pc + 4#64) ∧
    (isJump i = true → transferTarget s i = some t.pc) ∧
    (t.pc = s.pc + 4#64 ∨ transferTarget s i = some t.pc)

/-- R242: "No other instruction and no other condition raises anything"; R252 e: a branch not taken raises nothing. -/
def Obligations.FaultsAsListed : Prop :=
  ∀ (i : Instr) (s : State),
    (∀ f, exec i s = .fault f ↔ Raisable s i f) ∧ (∀ r, exec i s ≠ .refused r) ∧
    (loadTarget s i = none → storeTarget s i = none → transferTarget s i = none → ∃ t, exec i s = .next t)

/-- R44, whole. The read is a function of the state, so it has no effect on memory. -/
def Obligations.MemReadRule : Prop :=
  ∀ (s : State) (a : Word) (n : Nat), n = 1 ∨ n = 2 ∨ n = 4 ∨ n = 8 →
    (¬ AlignmentOk s.params a n → memRead s a n = .error (.loadAddressMisaligned a)) ∧
    (AlignmentOk s.params a n → ¬ AllPermitted (readableAt s.params) a n →
      memRead s a n = .error (.loadAccessFault a)) ∧
    (AlignmentOk s.params a n → AllPermitted (readableAt s.params) a n →
      ∃ v, memRead s a n = .ok v ∧ v.toNat < 2 ^ (8 * n) ∧
        ∀ k, k < n → v.extractLsb' (8 * k) 8 = Memory.byteAt s.mem (a.toNat + k)) ∧
    (a.toNat % n = 0 → a.toNat + n ≤ 2 ^ 64)

/-- R45, whole; "Only the n addressed bytes change." -/
def Obligations.MemWriteRule : Prop :=
  ∀ (s : State) (a v : Word) (n : Nat), n = 1 ∨ n = 2 ∨ n = 4 ∨ n = 8 →
    (¬ AlignmentOk s.params a n → memWrite s a n v = .error (.storeAddressMisaligned a)) ∧
    (AlignmentOk s.params a n →
      (∃ k, k < n ∧ (2 ^ 64 ≤ a.toNat + k ∨ writableAt s.params (a.toNat + k) = false ∨
        (s.params.textWritable = false ∧ executableAt s.params (a.toNat + k) = true))) →
      memWrite s a n v = .error (.storeAccessFault a)) ∧
    (AlignmentOk s.params a n →
      (∀ k, k < n → a.toNat + k < 2 ^ 64 ∧ writableAt s.params (a.toNat + k) = true ∧
        (s.params.textWritable = false → executableAt s.params (a.toNat + k) = false)) →
      ∃ t, memWrite s a n v = .ok t ∧
        (∀ k, k < n → Memory.byteAt t.mem (a.toNat + k) = v.extractLsb' (8 * k) 8) ∧
        (∀ b, b < a.toNat ∨ a.toNat + n ≤ b → Memory.byteAt t.mem b = Memory.byteAt s.mem b) ∧
        t.regs = s.regs ∧ t.pc = s.pc ∧ t.params = s.params)

/-- R46, whole, and the step of R26 that calls it. -/
def Obligations.FetchWordRule : Prop :=
  ∀ (s : State) (a : Word), a.toNat % 4 = 0 →
    (AllPermitted (executableAt s.params) a 4 →
      ∃ w : InstrWord, fetchWord s a = .ok w ∧
        w = Memory.byteAt s.mem (a.toNat + 3) ++ Memory.byteAt s.mem (a.toNat + 2) ++
          Memory.byteAt s.mem (a.toNat + 1) ++ Memory.byteAt s.mem a.toNat ∧
        w.extractLsb 7 0 = Memory.byteAt s.mem a.toNat ∧
        w.extractLsb 6 0 = (Memory.byteAt s.mem a.toNat).extractLsb 6 0) ∧
    (¬ AllPermitted (executableAt s.params) a 4 →
      fetchWord s a = .error (.instructionAccessFault a) ∧
      (s.pc = a → ¬ Ended s → step s = .fault (.instructionAccessFault a)))

/-- R42: "Consequence for mixed widths". The byte order itself is decision D1 (log entry 9). -/
def Obligations.MixedWidthAccess : Prop :=
  ∀ (s t : State) (a v : Word), memWrite s a 8 v = .ok t → AllPermitted (readableAt s.params) a 8 →
    (∀ k, k < 8 → memRead t (a + BitVec.ofNat 64 k) 1 = .ok ((v.extractLsb' (8 * k) 8).setWidth 64)) ∧
    (∀ k, k < 4 → memRead t (a + BitVec.ofNat 64 (2 * k)) 2 = .ok ((v.extractLsb' (16 * k) 16).setWidth 64)) ∧
    (∀ k, k < 2 → memRead t (a + BitVec.ofNat 64 (4 * k)) 4 = .ok ((v.extractLsb' (32 * k) 32).setWidth 64)) ∧
    memRead t a 8 = .ok v

/-- R51, R47: one hart, program order. For rd = x0 the access is made and the value discarded (R21). -/
def Obligations.StoreThenLoad : Prop :=
  ∀ (s t : State) (rs2 rs1 rd : Reg) (imm : BitVec 12),
    (exec (.sd rs2 rs1 imm) s = .next t → AllPermitted (readableAt s.params) (effectiveAddress s rs1 imm) 8 →
      Completes (.ld rd rs1 imm) t (WritesReg rd (readReg s rs2) t)) ∧
    (exec (.sw rs2 rs1 imm) s = .next t → AllPermitted (readableAt s.params) (effectiveAddress s rs1 imm) 4 →
      Completes (.lw rd rs1 imm) t (WritesReg rd (((readReg s rs2).extractLsb' 0 32).signExtend 64) t)) ∧
    (exec (.sh rs2 rs1 imm) s = .next t → AllPermitted (readableAt s.params) (effectiveAddress s rs1 imm) 2 →
      Completes (.lh rd rs1 imm) t (WritesReg rd (((readReg s rs2).extractLsb' 0 16).signExtend 64) t)) ∧
    (exec (.sb rs2 rs1 imm) s = .next t → AllPermitted (readableAt s.params) (effectiveAddress s rs1 imm) 1 →
      Completes (.lb rd rs1 imm) t (WritesReg rd (((readReg s rs2).extractLsb' 0 8).signExtend 64) t))

/-- R121, R122, R123: encoding, result, frame, completion. -/
def Obligations.AddSub : Prop :=
  EncodedR 0x00000033#32 Instr.add ∧ EncodedI 0x00000013#32 Instr.addi ∧ EncodedR 0x40000033#32 Instr.sub ∧
  ∀ (s : State) (rd rs1 rs2 : Reg) (imm : BitVec 12),
    Writes (.add rd rs1 rs2) rd s (fun v => v.toNat = ((readReg s rs1).toNat + (readReg s rs2).toNat) % 2 ^ 64) ∧
    Writes (.addi rd rs1 imm) rd s (fun v => (v.toNat : Int) = ((readReg s rs1).toNat + imm.toInt) % 2 ^ 64) ∧
    Writes (.sub rd rs1 rs2) rd s
      (fun v => (v.toNat : Int) = ((readReg s rs1).toNat - (readReg s rs2).toNat) % 2 ^ 64)

/-- R131 to R134: encoding, result, frame, completion. -/
def Obligations.Comparisons : Prop :=
  EncodedR 0x00002033#32 Instr.slt ∧ EncodedI 0x00002013#32 Instr.slti ∧
  EncodedR 0x00003033#32 Instr.sltu ∧ EncodedI 0x00003013#32 Instr.sltiu ∧
  ∀ (s : State) (rd rs1 rs2 : Reg) (imm : BitVec 12),
    Writes (.slt rd rs1 rs2) rd s
      (fun v => v = if (readReg s rs1).toInt < (readReg s rs2).toInt then 1#64 else 0#64) ∧
    Writes (.slti rd rs1 imm) rd s (fun v => v = if (readReg s rs1).toInt < imm.toInt then 1#64 else 0#64) ∧
    Writes (.sltu rd rs1 rs2) rd s
      (fun v => v = if (readReg s rs1).toNat < (readReg s rs2).toNat then 1#64 else 0#64) ∧
    Writes (.sltiu rd rs1 imm) rd s
      (fun v => v = if ((readReg s rs1).toNat : Int) < imm.toInt % 2 ^ 64 then 1#64 else 0#64)

/-- R140 to R146: encoding, result, frame, completion. -/
def Obligations.Logic : Prop :=
  EncodedR 0x00006033#32 Instr.or ∧ EncodedI 0x00006013#32 Instr.ori ∧ EncodedR 0x00007033#32 Instr.and ∧
  EncodedI 0x00007013#32 Instr.andi ∧ EncodedR 0x00004033#32 Instr.xor ∧ EncodedI 0x00004013#32 Instr.xori ∧
  ∀ (s : State) (rd rs1 rs2 : Reg) (imm : BitVec 12),
    Writes (.or rd rs1 rs2) rd s (fun v => ∀ j, j < 64 →
      v.getLsbD j = ((readReg s rs1).getLsbD j || (readReg s rs2).getLsbD j)) ∧
    Writes (.ori rd rs1 imm) rd s (fun v => ∀ j, j < 64 →
      v.getLsbD j = ((readReg s rs1).getLsbD j || imm.getLsbD (min j 11))) ∧
    Writes (.and rd rs1 rs2) rd s (fun v => ∀ j, j < 64 →
      v.getLsbD j = ((readReg s rs1).getLsbD j && (readReg s rs2).getLsbD j)) ∧
    Writes (.andi rd rs1 imm) rd s (fun v => ∀ j, j < 64 →
      v.getLsbD j = ((readReg s rs1).getLsbD j && imm.getLsbD (min j 11))) ∧
    Writes (.xor rd rs1 rs2) rd s (fun v => ∀ j, j < 64 →
      v.getLsbD j = ((readReg s rs1).getLsbD j != (readReg s rs2).getLsbD j)) ∧
    Writes (.xori rd rs1 imm) rd s (fun v => ∀ j, j < 64 →
      v.getLsbD j = ((readReg s rs1).getLsbD j != imm.getLsbD (min j 11)))

/-- R151 to R153; the amount 0, outside the range the source gives the assembler, copies (R103). -/
def Obligations.ShiftsByConstant : Prop :=
  EncodedShift6 0x00001013#32 Instr.slli ∧ EncodedShift6 0x00005013#32 Instr.srli ∧
  EncodedShift6 0x40005013#32 Instr.srai ∧
  ∀ (s : State) (rd rs1 : Reg) (sh : BitVec 6),
    Writes (.slli rd rs1 sh) rd s (fun v => v.toNat = (readReg s rs1).toNat * 2 ^ sh.toNat % 2 ^ 64) ∧
    Writes (.srli rd rs1 sh) rd s (fun v => v.toNat = (readReg s rs1).toNat / 2 ^ sh.toNat) ∧
    Writes (.srai rd rs1 sh) rd s (fun v => v.toInt = (readReg s rs1).toInt / 2 ^ sh.toNat)

/-- R154 to R156 (the amount: R150, decision D21). -/
def Obligations.ShiftsByRegister : Prop :=
  EncodedR 0x00001033#32 Instr.sll ∧ EncodedR 0x00005033#32 Instr.srl ∧ EncodedR 0x40005033#32 Instr.sra ∧
  ∀ (s : State) (rd rs1 rs2 : Reg),
    Writes (.sll rd rs1 rs2) rd s
      (fun v => v.toNat = (readReg s rs1).toNat * 2 ^ ((readReg s rs2).toNat % 64) % 2 ^ 64) ∧
    Writes (.srl rd rs1 rs2) rd s (fun v => v.toNat = (readReg s rs1).toNat / 2 ^ ((readReg s rs2).toNat % 64)) ∧
    Writes (.sra rd rs1 rs2) rd s (fun v => v.toInt = (readReg s rs1).toInt / 2 ^ ((readReg s rs2).toNat % 64))

/-- R161, whole. -/
def Obligations.JumpAndLink : Prop :=
  EncodedJ 0x0000006F#32 Instr.jal ∧
  ∀ (s : State) (rd : Reg) (imm : BitVec 21),
    TransfersTo (.jal rd imm) (s.pc + BitVec.ofInt 64 imm.toInt) s
      (JumpsTo rd (s.pc + BitVec.ofInt 64 imm.toInt) s)

/-- R162, whole; the bit cleared is that of the displacement, not of the sum (decision D17, log entry 13). -/
def Obligations.JumpAndLinkRegister : Prop :=
  EncodedI 0x00000067#32 Instr.jalr ∧
  ∀ (s : State) (rd rs1 : Reg) (imm : BitVec 12),
    TransfersTo (.jalr rd rs1 imm) (readReg s rs1 + BitVec.ofInt 64 (2 * (imm.toInt / 2))) s
      (JumpsTo rd (readReg s rs1 + BitVec.ofInt 64 (2 * (imm.toInt / 2))) s)

/-- R171, R172 with the common rule R170. -/
def Obligations.BranchesOnEquality : Prop :=
  EncodedB 0x00000063#32 Instr.beq ∧ EncodedB 0x00001063#32 Instr.bne ∧
  ∀ (s : State) (rs1 rs2 : Reg) (imm : BitVec 13),
    BranchesWhen ((readReg s rs1).toNat = (readReg s rs2).toNat) (.beq rs1 rs2 imm) imm s ∧
    BranchesWhen ((readReg s rs1).toNat ≠ (readReg s rs2).toNat) (.bne rs1 rs2 imm) imm s

/-- R173, R174 with the common rule R170. -/
def Obligations.BranchesSigned : Prop :=
  EncodedB 0x00005063#32 Instr.bge ∧ EncodedB 0x00004063#32 Instr.blt ∧
  ∀ (s : State) (rs1 rs2 : Reg) (imm : BitVec 13),
    BranchesWhen ((readReg s rs1).toInt ≥ (readReg s rs2).toInt) (.bge rs1 rs2 imm) imm s ∧
    BranchesWhen ((readReg s rs1).toInt < (readReg s rs2).toInt) (.blt rs1 rs2 imm) imm s

/-- R175, R176 with the common rule R170. -/
def Obligations.BranchesUnsigned : Prop :=
  EncodedB 0x00007063#32 Instr.bgeu ∧ EncodedB 0x00006063#32 Instr.bltu ∧
  ∀ (s : State) (rs1 rs2 : Reg) (imm : BitVec 13),
    BranchesWhen ((readReg s rs1).toNat ≥ (readReg s rs2).toNat) (.bgeu rs1 rs2 imm) imm s ∧
    BranchesWhen ((readReg s rs1).toNat < (readReg s rs2).toNat) (.bltu rs1 rs2 imm) imm s

/-- R186, R188, R191, R194 with R185 and R44. -/
def Obligations.LoadsSigned : Prop :=
  EncodedI 0x00003003#32 Instr.ld ∧ EncodedI 0x00002003#32 Instr.lw ∧
  EncodedI 0x00001003#32 Instr.lh ∧ EncodedI 0x00000003#32 Instr.lb ∧
  ∀ (s : State) (rd rs1 : Reg) (imm : BitVec 12),
    Loads 8 true (.ld rd rs1 imm) rd rs1 imm s ∧ Loads 4 true (.lw rd rs1 imm) rd rs1 imm s ∧
    Loads 2 true (.lh rd rs1 imm) rd rs1 imm s ∧ Loads 1 true (.lb rd rs1 imm) rd rs1 imm s

/-- R189, R192, R195 with R185 and R44. -/
def Obligations.LoadsUnsigned : Prop :=
  EncodedI 0x00006003#32 Instr.lwu ∧ EncodedI 0x00005003#32 Instr.lhu ∧ EncodedI 0x00004003#32 Instr.lbu ∧
  ∀ (s : State) (rd rs1 : Reg) (imm : BitVec 12),
    Loads 4 false (.lwu rd rs1 imm) rd rs1 imm s ∧ Loads 2 false (.lhu rd rs1 imm) rd rs1 imm s ∧
    Loads 1 false (.lbu rd rs1 imm) rd rs1 imm s

/-- R187, R190, R193, R196 with R185 and R45. -/
def Obligations.StoresRule : Prop :=
  EncodedS 0x00003023#32 Instr.sd ∧ EncodedS 0x00002023#32 Instr.sw ∧
  EncodedS 0x00001023#32 Instr.sh ∧ EncodedS 0x00000023#32 Instr.sb ∧
  ∀ (s : State) (rs2 rs1 : Reg) (imm : BitVec 12),
    Stores 8 (.sd rs2 rs1 imm) rs2 rs1 imm s ∧ Stores 4 (.sw rs2 rs1 imm) rs2 rs1 imm s ∧
    Stores 2 (.sh rs2 rs1 imm) rs2 rs1 imm s ∧ Stores 1 (.sb rs2 rs1 imm) rs2 rs1 imm s

/-- R201, R202. -/
def Obligations.UpperImmediates : Prop :=
  EncodedU 0x00000037#32 Instr.lui ∧ EncodedU 0x00000017#32 Instr.auipc ∧
  ∀ (s : State) (rd : Reg) (imm : BitVec 20),
    Writes (.lui rd imm) rd s (fun v => v.toInt = imm.toInt * 4096) ∧
    Writes (.auipc rd imm) rd s (fun v => (v.toNat : Int) = (s.pc.toNat + imm.toInt * 4096) % 2 ^ 64)

/-- R211, R215, R216. `Int.bmod x (2^32)` is the integer from -2^31 to 2^31 - 1 congruent to x. -/
def Obligations.WordAddSub : Prop :=
  EncodedI 0x0000001B#32 Instr.addiw ∧ EncodedR 0x0000003B#32 Instr.addw ∧ EncodedR 0x4000003B#32 Instr.subw ∧
  ∀ (s : State) (rd rs1 rs2 : Reg) (imm : BitVec 12),
    Writes (.addiw rd rs1 imm) rd s (fun v => v.toInt = Int.bmod ((readReg s rs1).toNat + imm.toInt) (2 ^ 32)) ∧
    Writes (.addw rd rs1 rs2) rd s
      (fun v => v.toInt = Int.bmod ((readReg s rs1).toNat + (readReg s rs2).toNat) (2 ^ 32)) ∧
    Writes (.subw rd rs1 rs2) rd s
      (fun v => v.toInt = Int.bmod ((readReg s rs1).toNat - (readReg s rs2).toNat) (2 ^ 32))

/-- R212 to R214; a word with inst[25] = 1 is none of them (`ReservedShiftWordsAreIllegal`). -/
def Obligations.WordShiftsByConstant : Prop :=
  EncodedShift5 0x0000101B#32 Instr.slliw ∧ EncodedShift5 0x0000501B#32 Instr.srliw ∧
  EncodedShift5 0x4000501B#32 Instr.sraiw ∧
  ∀ (s : State) (rd rs1 : Reg) (sh : BitVec 5),
    Writes (.slliw rd rs1 sh) rd s
      (fun v => v.toInt = Int.bmod ((readReg s rs1).toNat % 2 ^ 32 * 2 ^ sh.toNat : Nat) (2 ^ 32)) ∧
    Writes (.srliw rd rs1 sh) rd s
      (fun v => v.toInt = Int.bmod ((readReg s rs1).toNat % 2 ^ 32 / 2 ^ sh.toNat : Nat) (2 ^ 32)) ∧
    Writes (.sraiw rd rs1 sh) rd s
      (fun v => v.toInt = Int.bmod (readReg s rs1).toNat (2 ^ 32) / 2 ^ sh.toNat)

/-- R217 to R219. -/
def Obligations.WordShiftsByRegister : Prop :=
  EncodedR 0x0000103B#32 Instr.sllw ∧ EncodedR 0x0000503B#32 Instr.srlw ∧ EncodedR 0x4000503B#32 Instr.sraw ∧
  ∀ (s : State) (rd rs1 rs2 : Reg),
    Writes (.sllw rd rs1 rs2) rd s (fun v => v.toInt =
      Int.bmod ((readReg s rs1).toNat % 2 ^ 32 * 2 ^ ((readReg s rs2).toNat % 32) : Nat) (2 ^ 32)) ∧
    Writes (.srlw rd rs1 rs2) rd s (fun v => v.toInt =
      Int.bmod ((readReg s rs1).toNat % 2 ^ 32 / 2 ^ ((readReg s rs2).toNat % 32) : Nat) (2 ^ 32)) ∧
    Writes (.sraw rd rs1 rs2) rd s (fun v => v.toInt =
      Int.bmod (readReg s rs1).toNat (2 ^ 32) / 2 ^ ((readReg s rs2).toNat % 32))

/-- R226 (EXT_M: R225). -/
def Obligations.Multiply : Prop :=
  EncodedM 0x02000033#32 Instr.mul ∧
  ∀ (s : State) (rd rs1 rs2 : Reg),
    Writes (.mul rd rs1 rs2) rd s (fun v =>
      v.toNat = (readReg s rs1).toNat * (readReg s rs2).toNat % 2 ^ 64 ∧
      (v.toNat : Int) = (readReg s rs1).toInt * (readReg s rs2).toInt % 2 ^ 64)

/-- R227 (EXT_M: R225), for every DIV_NUMERICS; `Int.tdiv` rounds toward zero. The first clause, which reads the
zero-divisor setting through `divCorner` and a free quotient, rests on the shape of DIV_NUMERICS, a choice of the
model (log entry 12); the last clause says what R227 states for the default. -/
def Obligations.Divide : Prop :=
  EncodedM 0x02004033#32 Instr.div ∧
  ∀ (s : State) (rd rs1 rs2 : Reg),
    Writes (.div rd rs1 rs2) rd s (fun v =>
      ((readReg s rs2).toInt = 0 →
        v = divCorner s.params.divNumerics.divByZero Config.freeQuotientByZero (readReg s rs1)) ∧
      ((readReg s rs1).toInt = -2 ^ 63 → (readReg s rs2).toInt = -1 → v = s.params.divNumerics.divOverflow) ∧
      ((readReg s rs2).toInt ≠ 0 → ¬ ((readReg s rs1).toInt = -2 ^ 63 ∧ (readReg s rs2).toInt = -1) →
        v.toInt = (readReg s rs1).toInt.tdiv (readReg s rs2).toInt) ∧
      (s.params.divNumerics = DivNumerics.standard →
        ((readReg s rs2).toInt = 0 → v = 0xFFFFFFFFFFFFFFFF#64) ∧
        ((readReg s rs1).toInt = -2 ^ 63 → (readReg s rs2).toInt = -1 → v = 0x8000000000000000#64)))

/-- R228 (EXT_M: R225), for every DIV_NUMERICS. The first clause, which reads the zero-divisor setting through
`divCorner` and a free remainder, rests on the shape of DIV_NUMERICS, a choice of the model (log entry 12); the last
clause says what R228 states for the default. -/
def Obligations.Remainder : Prop :=
  EncodedM 0x02006033#32 Instr.rem ∧
  ∀ (s : State) (rd rs1 rs2 : Reg),
    Writes (.rem rd rs1 rs2) rd s (fun v =>
      ((readReg s rs2).toInt = 0 →
        v = divCorner s.params.divNumerics.remByZero Config.freeRemainderByZero (readReg s rs1)) ∧
      ((readReg s rs1).toInt = -2 ^ 63 → (readReg s rs2).toInt = -1 → v = s.params.divNumerics.remOverflow) ∧
      ((readReg s rs2).toInt ≠ 0 → ¬ ((readReg s rs1).toInt = -2 ^ 63 ∧ (readReg s rs2).toInt = -1) →
        v.toInt = (readReg s rs1).toInt -
          (readReg s rs2).toInt * (readReg s rs1).toInt.tdiv (readReg s rs2).toInt ∧
        (v.toInt < 0 → (readReg s rs1).toInt < 0) ∧ (0 < v.toInt → 0 < (readReg s rs1).toInt)) ∧
      (s.params.divNumerics = DivNumerics.standard →
        ((readReg s rs2).toInt = 0 → v = readReg s rs1) ∧
        ((readReg s rs1).toInt = -2 ^ 63 → (readReg s rs2).toInt = -1 → v = 0#64)))

/-- R124, R125, R147, R203, R220, each expansion executed. -/
def Obligations.CopyPseudos : Prop :=
  encode (.addi 0#5 0#5 0#12) = 0x00000013#32 ∧
  ∀ (s : State) (pc : Word) (rd rs1 : Reg),
    Pseudo.expand pc .nop = [.addi 0#5 0#5 0#12] ∧ Pseudo.expand pc (.neg rd rs1) = [.sub rd 0#5 rs1] ∧
    Pseudo.expand pc (.not rd rs1) = [.xori rd rs1 0xFFF#12] ∧ Pseudo.expand pc (.mv rd rs1) = [.addi rd rs1 0#12] ∧
    Pseudo.expand pc (.sextW rd rs1) = [.addiw rd rs1 0#12] ∧
    (∃ t, Runs (Pseudo.expand pc .nop) s t ∧ OnlyPc (s.pc + 4#64) s t) ∧
    (∃ t v, Runs (Pseudo.expand pc (.neg rd rs1)) s t ∧ WritesReg rd v s t ∧
      (v.toNat : Int) = -(readReg s rs1).toNat % 2 ^ 64) ∧
    (∃ t v, Runs (Pseudo.expand pc (.not rd rs1)) s t ∧ WritesReg rd v s t ∧
      ∀ j, j < 64 → v.getLsbD j = !(readReg s rs1).getLsbD j) ∧
    (∃ t, Runs (Pseudo.expand pc (.mv rd rs1)) s t ∧ WritesReg rd (readReg s rs1) s t) ∧
    (∃ t v, Runs (Pseudo.expand pc (.sextW rd rs1)) s t ∧ WritesReg rd v s t ∧
      v.toInt = Int.bmod (readReg s rs1).toNat (2 ^ 32))

/-- R163 to R167, each expansion executed. -/
def Obligations.JumpPseudos : Prop :=
  encode (.jalr 0#5 1#5 0#12) = 0x00008067#32 ∧
  ∀ (s : State) (pc : Word) (rs1 : Reg) (imm : BitVec 21),
    Pseudo.expand pc (.j imm) = [.jal 0#5 imm] ∧ Pseudo.expand pc (.jr rs1) = [.jalr 0#5 rs1 0#12] ∧
    Pseudo.expand pc (.jalSpi imm) = [.jal 1#5 imm] ∧ Pseudo.expand pc (.jalrReg rs1) = [.jalr 1#5 rs1 0#12] ∧
    Pseudo.expand pc .ret = [.jalr 0#5 1#5 0#12] ∧
    TransfersTo (.jal 0#5 imm) (s.pc + BitVec.ofInt 64 imm.toInt) s
      (OnlyPc (s.pc + BitVec.ofInt 64 imm.toInt) s) ∧
    TransfersTo (.jalr 0#5 rs1 0#12) (readReg s rs1) s (OnlyPc (readReg s rs1) s) ∧
    TransfersTo (.jal 1#5 imm) (s.pc + BitVec.ofInt 64 imm.toInt) s
      (JumpsTo 1#5 (s.pc + BitVec.ofInt 64 imm.toInt) s) ∧
    TransfersTo (.jalr 1#5 rs1 0#12) (readReg s rs1) s (JumpsTo 1#5 (readReg s rs1) s) ∧
    TransfersTo (.jalr 0#5 1#5 0#12) (readReg s 1#5) s (OnlyPc (readReg s 1#5) s)

/-- R177 to R180, each expansion executed; the target, the fault and the frame are those of `BranchesWhen`. -/
def Obligations.BranchPseudos : Prop :=
  ∀ (s : State) (pc : Word) (rs1 rs2 : Reg) (imm : BitVec 13),
    Pseudo.expand pc (.bgt rs1 rs2 imm) = [.blt rs2 rs1 imm] ∧
    Pseudo.expand pc (.ble rs1 rs2 imm) = [.bge rs2 rs1 imm] ∧
    Pseudo.expand pc (.bgtu rs1 rs2 imm) = [.bltu rs2 rs1 imm] ∧
    Pseudo.expand pc (.bleu rs1 rs2 imm) = [.bgeu rs2 rs1 imm] ∧
    BranchesWhen ((readReg s rs1).toInt > (readReg s rs2).toInt) (.blt rs2 rs1 imm) imm s ∧
    BranchesWhen ((readReg s rs1).toInt ≤ (readReg s rs2).toInt) (.bge rs2 rs1 imm) imm s ∧
    BranchesWhen ((readReg s rs1).toNat > (readReg s rs2).toNat) (.bltu rs2 rs1 imm) imm s ∧
    BranchesWhen ((readReg s rs1).toNat ≤ (readReg s rs2).toNat) (.bgeu rs2 rs1 imm) imm s

/-- R204, whole, with the modifiers of R108. -/
def Obligations.LoadImmediatePseudo : Prop :=
  ∀ (s : State) (pc : Word) (rd : Reg) (val : BitVec 32),
    (∃ (hi : BitVec 20) (lo : BitVec 12), Pseudo.expand pc (.li rd val) = [.lui rd hi, .addi rd rd lo] ∧
      hi.toNat = (val.toNat / 4096 + val.toNat / 2048 % 2) % 2 ^ 20 ∧ lo.toNat = val.toNat % 4096) ∧
    ∃ (t : State) (v : Word), Runs (Pseudo.expand pc (.li rd val)) s t ∧
      v.toInt = (if HiCarries val then val.toInt - 2 ^ 32 else val.toInt) ∧ v.extractLsb' 0 32 = val ∧
      readReg t rd = (if rd = 0#5 then 0#64 else v) ∧ SameRegsBut rd s t ∧ SameMemory s t ∧
      t.pc = s.pc + 8#64 ∧ t.params = s.params

/-- R205 with the modifiers of R108. That delta is the 32-bit difference of ind and the low 32 bits of pc is the
model's reading, not a sentence of the spec (log entry 23). -/
def Obligations.LoadAddressPseudo : Prop :=
  ∀ (s : State) (rd : Reg) (ind delta : BitVec 32), delta = ind - s.pc.extractLsb' 0 32 →
    (∃ (hi : BitVec 20) (lo : BitVec 12), Pseudo.expand s.pc (.la rd ind) = [.auipc rd hi, .addi rd rd lo] ∧
      hi.toNat = (delta.toNat / 4096 + delta.toNat / 2048 % 2) % 2 ^ 20 ∧ lo.toNat = delta.toNat % 4096) ∧
    ∃ (t : State) (v : Word), Runs (Pseudo.expand s.pc (.la rd ind)) s t ∧
      v = s.pc + BitVec.ofInt 64 (if HiCarries delta then delta.toInt - 2 ^ 32 else delta.toInt) ∧
      (∀ target : Word, ind = target.extractLsb' 0 32 → -2 ^ 31 ≤ (target - s.pc).toInt →
        (target - s.pc).toInt ≤ 2 ^ 31 - 2049 → v = target) ∧
      readReg t rd = (if rd = 0#5 then 0#64 else v) ∧ SameRegsBut rd s t ∧ SameMemory s t ∧
      t.pc = s.pc + 8#64 ∧ t.params = s.params

/-- R112: "a partire dal primo byte libero"; byte order by R42. -/
def Obligations.DataDirectives : Prop :=
  ∀ (m : Assembly) (h : BitVec 16) (w : BitVec 32) (d : BitVec 64) (num : Nat) (n : Fin 4) (chars : List Byte),
    (∀ bs, m.directive (.byte bs) = m.place bs ∧ m.directive (.ascii bs) = m.place bs) ∧
    m.directive (.half []) = m ∧ m.directive (.word []) = m ∧ m.directive (.dword []) = m ∧
    (∀ hs, m.directive (.half (h :: hs)) =
      (m.place [h.extractLsb' 0 8, h.extractLsb' 8 8]).directive (.half hs)) ∧
    (∀ ws, m.directive (.word (w :: ws)) =
      (m.place [w.extractLsb' 0 8, w.extractLsb' 8 8, w.extractLsb' 16 8, w.extractLsb' 24 8]).directive (.word ws)) ∧
    (∀ ds, m.directive (.dword (d :: ds)) =
      (m.place ((List.range 8).map fun k => d.extractLsb' (8 * k) 8)).directive (.dword ds)) ∧
    m.directive (.asciiz chars) = m.place (chars ++ [0#8]) ∧
    m.directive (.zero num) = m.place (List.replicate num 0#8) ∧
    (m.directive (.space num)).image = m.image ∧ (m.directive (.space num)).here = m.here + num ∧
    (∀ bs, (m.place bs).here = m.here + bs.length ∧ (m.place bs).image = m.image ++ cellsAt m.here bs) ∧
    (m.directive (.align n)).image = m.image ∧ (m.directive (.align n)).here % 2 ^ n.val = 0 ∧
    m.here ≤ (m.directive (.align n)).here ∧ (m.directive (.align n)).here < m.here + 2 ^ n.val

end
end

