-- ==== Sys2Proof/Laws/Encoding.lean ====
section
/-! SUPPORT. The formats field by field, and the one lemma through which a word finds its row. -/

namespace Sys2Proof

/-- The function codes of a word of format R: what is left of it under the format's mask. -/
theorem encodeR_masked (f7 : BitVec 7) (rs2 rs1 : Reg) (f3 : BitVec 3) (rd : Reg) (op : BitVec 7) :
    encodeR f7 rs2 rs1 f3 rd op &&& 0xFE00707F#32 = encodeR f7 0#5 0#5 f3 0#5 op := by
  apply BitVec.eq_of_getLsbD_eq
  intro i hi
  simp only [encodeR, BitVec.getLsbD_and, BitVec.getLsbD_append]
  interval_cases i <;> simp

/-- The opcode field of a word of format R. -/
@[simp] theorem fieldOpcode_encodeR (f7 : BitVec 7) (rs2 rs1 : Reg) (f3 : BitVec 3) (rd : Reg) (op : BitVec 7) :
    fieldOpcode (encodeR f7 rs2 rs1 f3 rd op) = op := by
  apply BitVec.eq_of_getLsbD_eq
  intro i hi
  simp only [encodeR, fieldOpcode, BitVec.getLsbD_extractLsb', BitVec.getLsbD_append]
  interval_cases i <;> simp

@[simp] theorem fieldRd_encodeR (f7 : BitVec 7) (rs2 rs1 : Reg) (f3 : BitVec 3) (rd : Reg) (op : BitVec 7) :
    fieldRd (encodeR f7 rs2 rs1 f3 rd op) = rd := by
  apply BitVec.eq_of_getLsbD_eq
  intro i hi
  simp only [encodeR, fieldRd, BitVec.getLsbD_extractLsb', BitVec.getLsbD_append]
  interval_cases i <;> simp

@[simp] theorem fieldRs1_encodeR (f7 : BitVec 7) (rs2 rs1 : Reg) (f3 : BitVec 3) (rd : Reg) (op : BitVec 7) :
    fieldRs1 (encodeR f7 rs2 rs1 f3 rd op) = rs1 := by
  apply BitVec.eq_of_getLsbD_eq
  intro i hi
  simp only [encodeR, fieldRs1, BitVec.getLsbD_extractLsb', BitVec.getLsbD_append]
  interval_cases i <;> simp

@[simp] theorem fieldRs2_encodeR (f7 : BitVec 7) (rs2 rs1 : Reg) (f3 : BitVec 3) (rd : Reg) (op : BitVec 7) :
    fieldRs2 (encodeR f7 rs2 rs1 f3 rd op) = rs2 := by
  apply BitVec.eq_of_getLsbD_eq
  intro i hi
  simp only [encodeR, fieldRs2, BitVec.getLsbD_extractLsb', BitVec.getLsbD_append]
  interval_cases i <;> simp

@[simp] theorem fieldShamt5_encodeR (f7 : BitVec 7) (rs2 rs1 : Reg) (f3 : BitVec 3) (rd : Reg) (op : BitVec 7) :
    fieldShamt5 (encodeR f7 rs2 rs1 f3 rd op) = rs2 := by
  apply BitVec.eq_of_getLsbD_eq
  intro i hi
  simp only [encodeR, fieldShamt5, BitVec.getLsbD_extractLsb', BitVec.getLsbD_append]
  interval_cases i <;> simp

/-- The function codes of a word of format I: what is left of it under the format's mask. -/
theorem encodeI_masked (imm : BitVec 12) (rs1 : Reg) (f3 : BitVec 3) (rd : Reg) (op : BitVec 7) :
    encodeI imm rs1 f3 rd op &&& 0x0000707F#32 = encodeI 0#12 0#5 f3 0#5 op := by
  apply BitVec.eq_of_getLsbD_eq
  intro i hi
  simp only [encodeI, BitVec.getLsbD_and, BitVec.getLsbD_append]
  interval_cases i <;> simp

/-- The opcode field of a word of format I. -/
@[simp] theorem fieldOpcode_encodeI (imm : BitVec 12) (rs1 : Reg) (f3 : BitVec 3) (rd : Reg) (op : BitVec 7) :
    fieldOpcode (encodeI imm rs1 f3 rd op) = op := by
  apply BitVec.eq_of_getLsbD_eq
  intro i hi
  simp only [encodeI, fieldOpcode, BitVec.getLsbD_extractLsb', BitVec.getLsbD_append]
  interval_cases i <;> simp

@[simp] theorem fieldRd_encodeI (imm : BitVec 12) (rs1 : Reg) (f3 : BitVec 3) (rd : Reg) (op : BitVec 7) :
    fieldRd (encodeI imm rs1 f3 rd op) = rd := by
  apply BitVec.eq_of_getLsbD_eq
  intro i hi
  simp only [encodeI, fieldRd, BitVec.getLsbD_extractLsb', BitVec.getLsbD_append]
  interval_cases i <;> simp

@[simp] theorem fieldRs1_encodeI (imm : BitVec 12) (rs1 : Reg) (f3 : BitVec 3) (rd : Reg) (op : BitVec 7) :
    fieldRs1 (encodeI imm rs1 f3 rd op) = rs1 := by
  apply BitVec.eq_of_getLsbD_eq
  intro i hi
  simp only [encodeI, fieldRs1, BitVec.getLsbD_extractLsb', BitVec.getLsbD_append]
  interval_cases i <;> simp

@[simp] theorem immI_encodeI (imm : BitVec 12) (rs1 : Reg) (f3 : BitVec 3) (rd : Reg) (op : BitVec 7) :
    immI (encodeI imm rs1 f3 rd op) = imm := by
  apply BitVec.eq_of_getLsbD_eq
  intro i hi
  simp only [encodeI, immI, BitVec.getLsbD_extractLsb', BitVec.getLsbD_append]
  interval_cases i <;> simp

/-- The function codes of a word of format Shift6: what is left of it under the format's mask. -/
theorem encodeShift6_masked (f6 sh : BitVec 6) (rs1 : Reg) (f3 : BitVec 3) (rd : Reg) (op : BitVec 7) :
    encodeShift6 f6 sh rs1 f3 rd op &&& 0xFC00707F#32 = encodeShift6 f6 0#6 0#5 f3 0#5 op := by
  apply BitVec.eq_of_getLsbD_eq
  intro i hi
  simp only [encodeShift6, BitVec.getLsbD_and, BitVec.getLsbD_append]
  interval_cases i <;> simp

/-- The opcode field of a word of format Shift6. -/
@[simp] theorem fieldOpcode_encodeShift6 (f6 sh : BitVec 6) (rs1 : Reg) (f3 : BitVec 3) (rd : Reg) (op : BitVec 7) :
    fieldOpcode (encodeShift6 f6 sh rs1 f3 rd op) = op := by
  apply BitVec.eq_of_getLsbD_eq
  intro i hi
  simp only [encodeShift6, fieldOpcode, BitVec.getLsbD_extractLsb', BitVec.getLsbD_append]
  interval_cases i <;> simp

@[simp] theorem fieldRd_encodeShift6 (f6 sh : BitVec 6) (rs1 : Reg) (f3 : BitVec 3) (rd : Reg) (op : BitVec 7) :
    fieldRd (encodeShift6 f6 sh rs1 f3 rd op) = rd := by
  apply BitVec.eq_of_getLsbD_eq
  intro i hi
  simp only [encodeShift6, fieldRd, BitVec.getLsbD_extractLsb', BitVec.getLsbD_append]
  interval_cases i <;> simp

@[simp] theorem fieldRs1_encodeShift6 (f6 sh : BitVec 6) (rs1 : Reg) (f3 : BitVec 3) (rd : Reg) (op : BitVec 7) :
    fieldRs1 (encodeShift6 f6 sh rs1 f3 rd op) = rs1 := by
  apply BitVec.eq_of_getLsbD_eq
  intro i hi
  simp only [encodeShift6, fieldRs1, BitVec.getLsbD_extractLsb', BitVec.getLsbD_append]
  interval_cases i <;> simp

@[simp] theorem fieldShamt6_encodeShift6 (f6 sh : BitVec 6) (rs1 : Reg) (f3 : BitVec 3) (rd : Reg) (op : BitVec 7) :
    fieldShamt6 (encodeShift6 f6 sh rs1 f3 rd op) = sh := by
  apply BitVec.eq_of_getLsbD_eq
  intro i hi
  simp only [encodeShift6, fieldShamt6, BitVec.getLsbD_extractLsb', BitVec.getLsbD_append]
  interval_cases i <;> simp

/-- The function codes of a word of format S: what is left of it under the format's mask. -/
theorem encodeS_masked (imm : BitVec 12) (rs2 rs1 : Reg) (f3 : BitVec 3) (op : BitVec 7) :
    encodeS imm rs2 rs1 f3 op &&& 0x0000707F#32 = encodeS 0#12 0#5 0#5 f3 op := by
  apply BitVec.eq_of_getLsbD_eq
  intro i hi
  simp only [encodeS, BitVec.getLsbD_and, BitVec.getLsbD_append]
  interval_cases i <;> simp

/-- The opcode field of a word of format S. -/
@[simp] theorem fieldOpcode_encodeS (imm : BitVec 12) (rs2 rs1 : Reg) (f3 : BitVec 3) (op : BitVec 7) :
    fieldOpcode (encodeS imm rs2 rs1 f3 op) = op := by
  apply BitVec.eq_of_getLsbD_eq
  intro i hi
  simp only [encodeS, fieldOpcode, BitVec.getLsbD_extractLsb', BitVec.getLsbD_append]
  interval_cases i <;> simp

@[simp] theorem fieldRs1_encodeS (imm : BitVec 12) (rs2 rs1 : Reg) (f3 : BitVec 3) (op : BitVec 7) :
    fieldRs1 (encodeS imm rs2 rs1 f3 op) = rs1 := by
  apply BitVec.eq_of_getLsbD_eq
  intro i hi
  simp only [encodeS, fieldRs1, BitVec.getLsbD_extractLsb', BitVec.getLsbD_append]
  interval_cases i <;> simp

@[simp] theorem fieldRs2_encodeS (imm : BitVec 12) (rs2 rs1 : Reg) (f3 : BitVec 3) (op : BitVec 7) :
    fieldRs2 (encodeS imm rs2 rs1 f3 op) = rs2 := by
  apply BitVec.eq_of_getLsbD_eq
  intro i hi
  simp only [encodeS, fieldRs2, BitVec.getLsbD_extractLsb', BitVec.getLsbD_append]
  interval_cases i <;> simp

@[simp] theorem immS_encodeS (imm : BitVec 12) (rs2 rs1 : Reg) (f3 : BitVec 3) (op : BitVec 7) :
    immS (encodeS imm rs2 rs1 f3 op) = imm := by
  apply BitVec.eq_of_getLsbD_eq
  intro i hi
  simp only [encodeS, immS, BitVec.getLsbD_extractLsb', BitVec.getLsbD_append]
  interval_cases i <;> simp

/-- The function codes of a word of format B: what is left of it under the format's mask. -/
theorem encodeB_masked (imm : BitVec 13) (rs2 rs1 : Reg) (f3 : BitVec 3) (op : BitVec 7) :
    encodeB imm rs2 rs1 f3 op &&& 0x0000707F#32 = encodeB 0#13 0#5 0#5 f3 op := by
  apply BitVec.eq_of_getLsbD_eq
  intro i hi
  simp only [encodeB, BitVec.getLsbD_and, BitVec.getLsbD_append]
  interval_cases i <;> simp

/-- The opcode field of a word of format B. -/
@[simp] theorem fieldOpcode_encodeB (imm : BitVec 13) (rs2 rs1 : Reg) (f3 : BitVec 3) (op : BitVec 7) :
    fieldOpcode (encodeB imm rs2 rs1 f3 op) = op := by
  apply BitVec.eq_of_getLsbD_eq
  intro i hi
  simp only [encodeB, fieldOpcode, BitVec.getLsbD_extractLsb', BitVec.getLsbD_append]
  interval_cases i <;> simp

@[simp] theorem fieldRs1_encodeB (imm : BitVec 13) (rs2 rs1 : Reg) (f3 : BitVec 3) (op : BitVec 7) :
    fieldRs1 (encodeB imm rs2 rs1 f3 op) = rs1 := by
  apply BitVec.eq_of_getLsbD_eq
  intro i hi
  simp only [encodeB, fieldRs1, BitVec.getLsbD_extractLsb', BitVec.getLsbD_append]
  interval_cases i <;> simp

@[simp] theorem fieldRs2_encodeB (imm : BitVec 13) (rs2 rs1 : Reg) (f3 : BitVec 3) (op : BitVec 7) :
    fieldRs2 (encodeB imm rs2 rs1 f3 op) = rs2 := by
  apply BitVec.eq_of_getLsbD_eq
  intro i hi
  simp only [encodeB, fieldRs2, BitVec.getLsbD_extractLsb', BitVec.getLsbD_append]
  interval_cases i <;> simp

theorem immB_encodeB (imm : BitVec 13) (rs2 rs1 : Reg) (f3 : BitVec 3) (op : BitVec 7) (h : imm.getLsbD 0 = false) :
    immB (encodeB imm rs2 rs1 f3 op) = imm := by
  apply BitVec.eq_of_getLsbD_eq
  intro i hi
  simp only [encodeB, immB, BitVec.getLsbD_extractLsb', BitVec.getLsbD_append]
  interval_cases i <;> first | (simp; done) | simpa using h.symm

/-- The function codes of a word of format U: what is left of it under the format's mask. -/
theorem encodeU_masked (imm : BitVec 20) (rd : Reg) (op : BitVec 7) :
    encodeU imm rd op &&& 0x0000007F#32 = encodeU 0#20 0#5 op := by
  apply BitVec.eq_of_getLsbD_eq
  intro i hi
  simp only [encodeU, BitVec.getLsbD_and, BitVec.getLsbD_append]
  interval_cases i <;> simp

/-- The opcode field of a word of format U. -/
@[simp] theorem fieldOpcode_encodeU (imm : BitVec 20) (rd : Reg) (op : BitVec 7) :
    fieldOpcode (encodeU imm rd op) = op := by
  apply BitVec.eq_of_getLsbD_eq
  intro i hi
  simp only [encodeU, fieldOpcode, BitVec.getLsbD_extractLsb', BitVec.getLsbD_append]
  interval_cases i <;> simp

@[simp] theorem fieldRd_encodeU (imm : BitVec 20) (rd : Reg) (op : BitVec 7) :
    fieldRd (encodeU imm rd op) = rd := by
  apply BitVec.eq_of_getLsbD_eq
  intro i hi
  simp only [encodeU, fieldRd, BitVec.getLsbD_extractLsb', BitVec.getLsbD_append]
  interval_cases i <;> simp

@[simp] theorem immU_encodeU (imm : BitVec 20) (rd : Reg) (op : BitVec 7) :
    immU (encodeU imm rd op) = imm := by
  apply BitVec.eq_of_getLsbD_eq
  intro i hi
  simp only [encodeU, immU, BitVec.getLsbD_extractLsb', BitVec.getLsbD_append]
  interval_cases i <;> simp

/-- The function codes of a word of format J: what is left of it under the format's mask. -/
theorem encodeJ_masked (imm : BitVec 21) (rd : Reg) (op : BitVec 7) :
    encodeJ imm rd op &&& 0x0000007F#32 = encodeJ 0#21 0#5 op := by
  apply BitVec.eq_of_getLsbD_eq
  intro i hi
  simp only [encodeJ, BitVec.getLsbD_and, BitVec.getLsbD_append]
  interval_cases i <;> simp

/-- The opcode field of a word of format J. -/
@[simp] theorem fieldOpcode_encodeJ (imm : BitVec 21) (rd : Reg) (op : BitVec 7) :
    fieldOpcode (encodeJ imm rd op) = op := by
  apply BitVec.eq_of_getLsbD_eq
  intro i hi
  simp only [encodeJ, fieldOpcode, BitVec.getLsbD_extractLsb', BitVec.getLsbD_append]
  interval_cases i <;> simp

@[simp] theorem fieldRd_encodeJ (imm : BitVec 21) (rd : Reg) (op : BitVec 7) :
    fieldRd (encodeJ imm rd op) = rd := by
  apply BitVec.eq_of_getLsbD_eq
  intro i hi
  simp only [encodeJ, fieldRd, BitVec.getLsbD_extractLsb', BitVec.getLsbD_append]
  interval_cases i <;> simp

theorem immJ_encodeJ (imm : BitVec 21) (rd : Reg) (op : BitVec 7) (h : imm.getLsbD 0 = false) :
    immJ (encodeJ imm rd op) = imm := by
  apply BitVec.eq_of_getLsbD_eq
  intro i hi
  simp only [encodeJ, immJ, BitVec.getLsbD_extractLsb', BitVec.getLsbD_append]
  interval_cases i <;> first | (simp; done) | simpa using h.symm

/-- A word is format R of its own fields: no bit of it is dropped. -/
theorem encodeR_fields (w : InstrWord) :
    encodeR (w.extractLsb' 25 7) (fieldRs2 w) (fieldRs1 w) (w.extractLsb' 12 3) (fieldRd w) (fieldOpcode w) = w := by
  apply BitVec.eq_of_getLsbD_eq
  intro i hi
  simp only [encodeR, fieldRs2, fieldRs1, fieldRd, fieldOpcode, BitVec.getLsbD_extractLsb', BitVec.getLsbD_append]
  interval_cases i <;> simp

/-- A word is format I of its own fields: no bit of it is dropped. -/
theorem encodeI_fields (w : InstrWord) :
    encodeI (immI w) (fieldRs1 w) (w.extractLsb' 12 3) (fieldRd w) (fieldOpcode w) = w := by
  apply BitVec.eq_of_getLsbD_eq
  intro i hi
  simp only [encodeI, immI, fieldRs1, fieldRd, fieldOpcode, BitVec.getLsbD_extractLsb', BitVec.getLsbD_append]
  interval_cases i <;> simp

/-- A word is format Shift6 of its own fields: no bit of it is dropped. -/
theorem encodeShift6_fields (w : InstrWord) :
    encodeShift6 (w.extractLsb' 26 6) (fieldShamt6 w) (fieldRs1 w) (w.extractLsb' 12 3) (fieldRd w) (fieldOpcode w) = w := by
  apply BitVec.eq_of_getLsbD_eq
  intro i hi
  simp only [encodeShift6, fieldShamt6, fieldRs1, fieldRd, fieldOpcode, BitVec.getLsbD_extractLsb', BitVec.getLsbD_append]
  interval_cases i <;> simp

/-- A word is format S of its own fields: no bit of it is dropped. -/
theorem encodeS_fields (w : InstrWord) :
    encodeS (immS w) (fieldRs2 w) (fieldRs1 w) (w.extractLsb' 12 3) (fieldOpcode w) = w := by
  apply BitVec.eq_of_getLsbD_eq
  intro i hi
  simp only [encodeS, immS, fieldRs2, fieldRs1, fieldOpcode, BitVec.getLsbD_extractLsb', BitVec.getLsbD_append]
  interval_cases i <;> simp

/-- A word is format B of its own fields: no bit of it is dropped. -/
theorem encodeB_fields (w : InstrWord) :
    encodeB (immB w) (fieldRs2 w) (fieldRs1 w) (w.extractLsb' 12 3) (fieldOpcode w) = w := by
  apply BitVec.eq_of_getLsbD_eq
  intro i hi
  simp only [encodeB, immB, fieldRs2, fieldRs1, fieldOpcode, BitVec.getLsbD_extractLsb', BitVec.getLsbD_append]
  interval_cases i <;> simp

/-- A word is format U of its own fields: no bit of it is dropped. -/
theorem encodeU_fields (w : InstrWord) :
    encodeU (immU w) (fieldRd w) (fieldOpcode w) = w := by
  apply BitVec.eq_of_getLsbD_eq
  intro i hi
  simp only [encodeU, immU, fieldRd, fieldOpcode, BitVec.getLsbD_extractLsb', BitVec.getLsbD_append]
  interval_cases i <;> simp

/-- A word is format J of its own fields: no bit of it is dropped. -/
theorem encodeJ_fields (w : InstrWord) :
    encodeJ (immJ w) (fieldRd w) (fieldOpcode w) = w := by
  apply BitVec.eq_of_getLsbD_eq
  intro i hi
  simp only [encodeJ, immJ, fieldRd, fieldOpcode, BitVec.getLsbD_extractLsb', BitVec.getLsbD_append]
  interval_cases i <;> simp

/-- The rows are pairwise disjoint (R100): two of them ask a different value of some bit both of them fix. -/
theorem patterns_disjoint :
    (opcodeRows.map fun r => (r.pattern, r.mask)).Pairwise fun a b => (a.1 ^^^ b.1) &&& (a.2 &&& b.2) ≠ 0#32 := by
  decide

/-- A bit two rows ask different values of cannot be in a word both admit. -/
theorem admits_conflict {r q : OpcodeRow} {w : InstrWord} (hr : r.admits w = true) (hq : q.admits w = true) :
    (r.pattern ^^^ q.pattern) &&& (r.mask &&& q.mask) = 0#32 := by
  simp only [OpcodeRow.admits, beq_iff_eq] at hr hq
  rw [← hr, ← hq]
  apply BitVec.eq_of_getLsbD_eq
  intro i hi
  simp only [BitVec.getLsbD_and, BitVec.getLsbD_xor]
  cases w.getLsbD i <;> cases r.mask.getLsbD i <;> cases q.mask.getLsbD i <;> simp

/-- In a list of pairwise disjoint rows, a row that admits a word is the row the search finds. -/
theorem find_admits {rows : List OpcodeRow} {r : OpcodeRow} {w : InstrWord}
    (hp : rows.Pairwise fun a b => (a.pattern ^^^ b.pattern) &&& (a.mask &&& b.mask) ≠ 0#32)
    (hm : r ∈ rows) (hr : r.admits w = true) : rows.find? (·.admits w) = some r := by
  induction rows with
  | nil => simp at hm
  | cons q qs ih =>
    rw [List.pairwise_cons] at hp
    rcases List.mem_cons.mp hm with rfl | hm
    · simp [hr]
    · have hq : q.admits w = false := by
        cases hq : q.admits w with
        | false => rfl
        | true => exact absurd (admits_conflict hq hr) (hp.1 r hm)
      simp [hq, ih hp.2 hm]

/-- Decoding finds the row that admits the word (R100). -/
theorem decode_of_row {ext : Bool} {w : InstrWord} {r : OpcodeRow} (hu : isUnspecifiedOpcode w = false)
    (hm : r ∈ presentRows ext) (hr : r.admits w = true) : decode ext w = .instr (r.build w) := by
  have hp : (presentRows ext).Pairwise fun a b => (a.pattern ^^^ b.pattern) &&& (a.mask &&& b.mask) ≠ 0#32 :=
    (List.pairwise_map.mp patterns_disjoint).filter _
  simp [decode, hu, find_admits hp hm hr]

/-- What decoding to an instruction says: the opcode is not refused, and a present row admits the word. -/
theorem decode_instr {ext : Bool} {w : InstrWord} {i : Instr} (h : decode ext w = .instr i) :
    isUnspecifiedOpcode w = false ∧ ∃ r ∈ presentRows ext, r.admits w = true ∧ i = r.build w := by
  unfold decode at h
  split at h
  · simp at h
  · rename_i hu
    split at h
    · rename_i r hr
      refine ⟨by simpa using hu, r, List.mem_of_find?_eq_some hr, by simpa using List.find?_some hr, ?_⟩
      simpa [eq_comm] using h
    · simp at h

/-- The bytes of a word give the word back (R42, R46). -/
theorem wordOfBytes_bytesOfWord (w : InstrWord) :
    wordOfBytes (w.extractLsb' 0 8) (w.extractLsb' 8 8) (w.extractLsb' 16 8) (w.extractLsb' 24 8) = w := by
  apply BitVec.eq_of_getLsbD_eq
  intro i hi
  simp only [wordOfBytes, BitVec.getLsbD_extractLsb', BitVec.getLsbD_append]
  interval_cases i <;> simp

end Sys2Proof
end

