-- ==== Sys2Proof/Laws/Memory.lean ====
section
/-! SUPPORT. The laws of memory: what a byte reads after a write, the canonical form every operation keeps, and bytes against
values. -/

namespace Sys2Proof.Machine

/-- A byte after one byte was written: the byte written there, the old one elsewhere. -/
theorem byteAt_put (m : Memory) (a b : Nat) (v : Byte) :
    Memory.byteAt (Memory.put m a v) b = if b = a then v else Memory.byteAt m b := by
  unfold Memory.byteAt
  induction m with
  | nil => by_cases h : a = b <;> simp [Memory.put, Memory.lookup, h, eq_comm]
  | cons c cs ih =>
    simp only [Memory.put]
    split
    · by_cases h : a = b <;> simp [Memory.lookup, h, eq_comm]
    · split
      · by_cases h : a = b
        · subst h; simp [Memory.lookup]
        · have hc : ¬ c.1 = b := by omega
          simp [Memory.lookup, h, hc, Ne.symm h]
      · by_cases h : c.1 = b
        · have : ¬ b = a := by omega
          simp [Memory.lookup, h, this]
        · simpa [Memory.lookup, h] using ih

/-- A byte after a run of bytes was written. -/
theorem byteAt_putBytes (bs : List Byte) (m : Memory) (a b : Nat) :
    Memory.byteAt (Memory.putBytes m a bs) b =
      if h : a ≤ b ∧ b < a + bs.length then bs[b - a]'(by omega) else Memory.byteAt m b := by
  induction bs generalizing m a with
  | nil => simp [Memory.putBytes]
  | cons v vs ih =>
    rw [Memory.putBytes, ih]
    by_cases h0 : b = a
    · subst h0; simp [byteAt_put]
    · by_cases h1 : a + 1 ≤ b ∧ b < a + 1 + vs.length
      · have h2 : a ≤ b ∧ b < a + (v :: vs).length := by simp; omega
        rw [dif_pos h1, dif_pos h2]
        have h3 : b - a = (b - (a + 1)) + 1 := by omega
        simp [h3]
      · have h2 : ¬ (a ≤ b ∧ b < a + (v :: vs).length) := by simp; omega
        rw [dif_neg h1, dif_neg h2, byteAt_put, if_neg h0]

theorem risingFrom_mono {m : Memory} {lo lo' : Nat} (h : lo' ≤ lo) (hm : Memory.risingFrom lo m = true) :
    Memory.risingFrom lo' m = true := by
  cases m with
  | nil => rfl
  | cons c cs =>
    simp only [Memory.risingFrom, Bool.and_eq_true, decide_eq_true_eq] at *
    exact ⟨⟨by omega, hm.1.2⟩, hm.2⟩

theorem risingFrom_put {m : Memory} {lo a : Nat} {v : Byte} (hlo : lo ≤ a) (ha : a < 2 ^ 64)
    (hm : Memory.risingFrom lo m = true) : Memory.risingFrom lo (Memory.put m a v) = true := by
  induction m generalizing lo with
  | nil => simpa [Memory.put, Memory.risingFrom] using ⟨hlo, ha⟩
  | cons c cs ih =>
    simp only [Memory.risingFrom, Bool.and_eq_true, decide_eq_true_eq] at hm
    obtain ⟨⟨h1, h2⟩, h3⟩ := hm
    simp only [Memory.put]
    split
    · simp only [Memory.risingFrom, Bool.and_eq_true, decide_eq_true_eq]
      exact ⟨⟨hlo, ha⟩, ⟨by omega, h2⟩, h3⟩
    · split
      · rename_i h; subst h
        simp only [Memory.risingFrom, Bool.and_eq_true, decide_eq_true_eq]
        exact ⟨⟨hlo, ha⟩, h3⟩
      · simp only [Memory.risingFrom, Bool.and_eq_true, decide_eq_true_eq]
        exact ⟨⟨h1, h2⟩, ih (by omega) h3⟩

/-- Writing a byte at a 64-bit address keeps the canonical form. -/
theorem put_keeps_wf {m : Memory} {a : Nat} {v : Byte} (ha : a < 2 ^ 64) (hm : Memory.wf m = true) :
    Memory.wf (Memory.put m a v) = true := risingFrom_put (Nat.zero_le a) ha hm

/-- Writing bytes within the address space keeps the canonical form. -/
theorem putBytes_keeps_wf (bs : List Byte) {m : Memory} {a : Nat} (ha : a + bs.length ≤ 2 ^ 64) (hm : Memory.wf m = true) :
    Memory.wf (Memory.putBytes m a bs) = true := by
  induction bs generalizing m a with
  | nil => exact hm
  | cons v vs ih =>
    simp only [List.length_cons] at ha
    exact ih (by omega) (put_keeps_wf (by omega) hm)

/-- Placing an image keeps the canonical form. -/
theorem placeCells_keeps_wf (cs : List Host.Cell) {m : Memory} (hm : Memory.wf m = true) :
    Memory.wf (placeCells m cs) = true := by
  induction cs generalizing m with
  | nil => exact hm
  | cons c cs ih =>
    rw [placeCells]
    split
    · exact ih (put_keeps_wf ‹_› hm)
    · exact ih hm

@[simp] theorem length_bytesOfValue (v : Word) (n : Nat) : (bytesOfValue v n).length = n := by
  induction n generalizing v with
  | zero => rfl
  | succ n ih => simp [bytesOfValue, ih]

/-- Byte `i` of a value is its bits `8i+7` to `8i` (R42). -/
theorem getElem_bytesOfValue (v : Word) (n i : Nat) (h : i < (bytesOfValue v n).length) :
    (bytesOfValue v n)[i] = v.extractLsb' (8 * i) 8 := by
  induction n generalizing v i with
  | zero => simp at h
  | succ n ih =>
    cases i with
    | zero => simp [bytesOfValue, BitVec.extractLsb'_eq_extractLsb, BitVec.setWidth_eq_extractLsb']
    | succ i =>
      simp only [bytesOfValue, List.getElem_cons_succ]
      rw [ih]
      apply BitVec.eq_of_getLsbD_eq
      intro j hj
      simp only [BitVec.getLsbD_extractLsb', BitVec.getLsbD_ushiftRight]
      congr 2
      omega

@[simp] theorem length_bytesAt (m : Memory) (a n : Nat) : (Memory.bytesAt m a n).length = n := by
  induction n generalizing a with
  | zero => rfl
  | succ n ih => simp [Memory.bytesAt, ih]

theorem getElem_bytesAt (m : Memory) (a n i : Nat) (h : i < (Memory.bytesAt m a n).length) :
    (Memory.bytesAt m a n)[i] = Memory.byteAt m (a + i) := by
  induction n generalizing a i with
  | zero => simp at h
  | succ n ih =>
    cases i with
    | zero => simp [Memory.bytesAt]
    | succ i =>
      simp only [Memory.bytesAt, List.getElem_cons_succ]
      rw [ih]
      congr 1
      omega

/-- The bits of the value of a list of bytes: bit `j` is bit `j % 8` of byte `j / 8` (R42). -/
theorem getLsbD_valueOfBytes (bs : List Byte) (j : Nat) (hj : j < 64) :
    (valueOfBytes bs).getLsbD j = ((bs[j / 8]?).map (·.getLsbD (j % 8))).getD false := by
  induction bs generalizing j with
  | nil => simp [valueOfBytes]
  | cons b bs ih =>
    simp only [valueOfBytes, BitVec.getLsbD_or, BitVec.getLsbD_setWidth, BitVec.getLsbD_shiftLeft]
    by_cases h : j < 8
    · have h0 : j / 8 = 0 := by omega
      have h1 : j % 8 = j := by omega
      simp [h, h0, h1, hj]
    · have h0 : j / 8 = (j - 8) / 8 + 1 := by omega
      have h1 : j % 8 = (j - 8) % 8 := by omega
      rw [ih (j - 8) (by omega), BitVec.getLsbD_of_ge b j (by omega)]
      simp [h, h0, ← h1, hj]

/-- What MemRead reads, by byte: bits `8k+7` to `8k` are the byte at `a + k` (R42, R44). -/
theorem extract_valueOfBytes_bytesAt (m : Memory) (a n k : Nat) (hk : k < n) (hn : n ≤ 8) :
    (valueOfBytes (Memory.bytesAt m a n)).extractLsb' (8 * k) 8 = Memory.byteAt m (a + k) := by
  apply BitVec.eq_of_getLsbD_eq
  intro j hj
  have h1 : (8 * k + j) / 8 = k := by omega
  have h2 : (8 * k + j) % 8 = j := by omega
  have h3 : k < (Memory.bytesAt m a n).length := by simpa using hk
  rw [BitVec.getLsbD_extractLsb', getLsbD_valueOfBytes _ _ (by omega), h1, h2, List.getElem?_eq_getElem h3,
    getElem_bytesAt]
  simp [hj]

/-- The value of `n` bytes has no bit above `8n` (R44). -/
theorem getLsbD_valueOfBytes_bytesAt_ge (m : Memory) (a n j : Nat) (hj : 8 * n ≤ j) :
    (valueOfBytes (Memory.bytesAt m a n)).getLsbD j = false := by
  by_cases h : j < 64
  · rw [getLsbD_valueOfBytes _ _ h, List.getElem?_eq_none (by simp; omega)]
    rfl
  · exact BitVec.getLsbD_of_ge _ _ (by omega)

theorem allBytes_iff (p : Nat → Bool) (a n : Nat) :
    allBytes p a n = true ↔ ∀ k, k < n → a + k < 2 ^ 64 ∧ p (a + k) = true := by
  simp [allBytes, List.all_eq_true]

end Sys2Proof.Machine
end

