-- ==== Sys2Proof/Laws/State.lean ====
section
/-! SUPPORT. One lemma per field per update of the state, and what the register operations read after a write. -/

namespace Sys2Proof.Machine

@[simp] theorem setPc_pc (s : State) (t : Word) : (setPc s t).pc = t := rfl
@[simp] theorem setPc_regs (s : State) (t : Word) : (setPc s t).regs = s.regs := rfl
@[simp] theorem setPc_mem (s : State) (t : Word) : (setPc s t).mem = s.mem := rfl
@[simp] theorem setPc_params (s : State) (t : Word) : (setPc s t).params = s.params := rfl
@[simp] theorem readReg_setPc (s : State) (t : Word) (r : Reg) : readReg (setPc s t) r = readReg s r := rfl

@[simp] theorem advance_pc (s : State) : (advance s).pc = s.pc + 4#64 := rfl
@[simp] theorem advance_regs (s : State) : (advance s).regs = s.regs := rfl
@[simp] theorem advance_mem (s : State) : (advance s).mem = s.mem := rfl
@[simp] theorem advance_params (s : State) : (advance s).params = s.params := rfl
@[simp] theorem readReg_advance (s : State) (r : Reg) : readReg (advance s) r = readReg s r := rfl

@[simp] theorem writeReg_pc (s : State) (r : Reg) (v : Word) : (writeReg s r v).pc = s.pc := by
  unfold writeReg; split <;> rfl
@[simp] theorem writeReg_mem (s : State) (r : Reg) (v : Word) : (writeReg s r v).mem = s.mem := by
  unfold writeReg; split <;> rfl
@[simp] theorem writeReg_params (s : State) (r : Reg) (v : Word) : (writeReg s r v).params = s.params := by
  unfold writeReg; split <;> rfl

@[simp] theorem readReg_setMem (s : State) (m : Memory) (r : Reg) : readReg { s with mem := m } r = readReg s r := rfl

/-- `x0` reads as 0 (R21). -/
@[simp] theorem readReg_zero (s : State) : readReg s 0#5 = 0#64 := rfl

/-- A write to `x0` is discarded (R21). -/
@[simp] theorem writeReg_zero (s : State) (v : Word) : writeReg s 0#5 v = s := rfl

/-- What a register reads after a write: the value in the register written, unless that is `x0`, the old one elsewhere. -/
theorem readReg_writeReg (s : State) (r q : Reg) (v : Word) :
    readReg (writeReg s r v) q = if q = r then (if r = 0#5 then 0#64 else v) else readReg s q := by
  by_cases hqr : q = r
  · subst hqr
    by_cases hq : q = 0#5
    · subst hq; simp
    · have hpos : q.toNat ≠ 0 := fun h => hq (BitVec.eq_of_toNat_eq (by simpa using h))
      obtain ⟨k, hk⟩ := Nat.exists_eq_succ_of_ne_zero hpos
      have hlt : k < 31 := by have := q.isLt; omega
      simp [readReg, writeReg, hk, hq, hlt]
  · rw [if_neg hqr]
    have hne : q.toNat ≠ r.toNat := fun h => hqr (BitVec.eq_of_toNat_eq h)
    unfold writeReg
    split
    · rfl
    · rename_i k hk
      unfold readReg
      split
      · rfl
      · rename_i j hj
        have : k ≠ j := by omega
        simp [this]

end Sys2Proof.Machine
end

