-- ==== Sys2Proof/Laws/Exec.lean ====
section
/-! SUPPORT. What each shared operation can do, said once: later proofs cite these instead of unfolding the operation. -/

namespace Sys2Proof.Machine

/-- The one next state of a write back. -/
theorem writeBack_next {rd : Reg} {v : Word} {s t : State} :
    writeBack rd v s = .next t ↔ t = advance (writeReg s rd v) := by
  simp [writeBack, eq_comm]

/-- A write back never faults. -/
theorem writeBack_ne_fault {rd : Reg} {v : Word} {s : State} {f : Fault} : writeBack rd v s ≠ .fault f := by
  simp [writeBack]

/-- A write back is never refused. -/
theorem writeBack_ne_refused {rd : Reg} {v : Word} {s : State} {r : Refusal} : writeBack rd v s ≠ .refused r := by
  simp [writeBack]

/-- A jump completes at a word address, saving the return address. -/
theorem jumpTo_next {rd : Reg} {a : Word} {s t : State} :
    jumpTo rd a s = .next t ↔ isWordAddress a = true ∧ t = setPc (writeReg s rd (s.pc + 4#64)) a := by
  cases h : isWordAddress a <;> simp [jumpTo, raise, nextPc, h, eq_comm]

/-- A jump faults at any other target, with the target recorded. -/
theorem jumpTo_fault {rd : Reg} {a : Word} {s : State} {f : Fault} :
    jumpTo rd a s = .fault f ↔ isWordAddress a = false ∧ f = .instructionAddressMisaligned a := by
  cases h : isWordAddress a <;> simp [jumpTo, raise, h, eq_comm]

theorem jumpTo_ne_refused {rd : Reg} {a : Word} {s : State} {r : Refusal} : jumpTo rd a s ≠ .refused r := by
  unfold jumpTo raise
  split <;> simp

/-- A branch completes when it is not taken, or taken to a word address. -/
theorem branchIf_next {c : Bool} {imm : BitVec 13} {s t : State} :
    branchIf c imm s = .next t ↔
      (c = false ∧ t = advance s) ∨
      (c = true ∧ isWordAddress (branchTarget s imm) = true ∧ t = setPc s (branchTarget s imm)) := by
  cases c <;> cases h : isWordAddress (branchTarget s imm) <;> simp [branchIf, raise, h, eq_comm]

/-- A branch faults when it is taken to any other target. -/
theorem branchIf_fault {c : Bool} {imm : BitVec 13} {s : State} {f : Fault} :
    branchIf c imm s = .fault f ↔
      c = true ∧ isWordAddress (branchTarget s imm) = false ∧ f = .instructionAddressMisaligned (branchTarget s imm) := by
  cases c <;> cases h : isWordAddress (branchTarget s imm) <;> simp [branchIf, raise, h, eq_comm]

theorem branchIf_ne_refused {c : Bool} {imm : BitVec 13} {s : State} {r : Refusal} : branchIf c imm s ≠ .refused r := by
  unfold branchIf raise
  split
  · split <;> simp
  · simp

/-- A load completes when its read does. -/
theorem loadInto_next {n : Nat} {ext : Word → Word} {rd rs1 : Reg} {imm : BitVec 12} {s t : State} :
    loadInto n ext rd rs1 imm s = .next t ↔
      ∃ v, memRead s (effectiveAddress s rs1 imm) n = .ok v ∧ t = advance (writeReg s rd (ext v)) := by
  cases h : memRead s (effectiveAddress s rs1 imm) n <;> simp [loadInto, raise, writeBack, h, eq_comm]

/-- A load faults as its read does. -/
theorem loadInto_fault {n : Nat} {ext : Word → Word} {rd rs1 : Reg} {imm : BitVec 12} {s : State} {f : Fault} :
    loadInto n ext rd rs1 imm s = .fault f ↔ memRead s (effectiveAddress s rs1 imm) n = .error f := by
  unfold loadInto raise
  split <;> simp_all [writeBack]

theorem loadInto_ne_refused {n : Nat} {ext : Word → Word} {rd rs1 : Reg} {imm : BitVec 12} {s : State} {r : Refusal} :
    loadInto n ext rd rs1 imm s ≠ .refused r := by
  unfold loadInto raise
  split <;> simp [writeBack]

/-- A store completes when its write does. -/
theorem storeFrom_next {n : Nat} {rs2 rs1 : Reg} {imm : BitVec 12} {s t : State} :
    storeFrom n rs2 rs1 imm s = .next t ↔
      ∃ u, memWrite s (effectiveAddress s rs1 imm) n (readReg s rs2) = .ok u ∧ t = advance u := by
  cases h : memWrite s (effectiveAddress s rs1 imm) n (readReg s rs2) <;> simp [storeFrom, raise, h, eq_comm]

/-- A store faults as its write does. -/
theorem storeFrom_fault {n : Nat} {rs2 rs1 : Reg} {imm : BitVec 12} {s : State} {f : Fault} :
    storeFrom n rs2 rs1 imm s = .fault f ↔
      memWrite s (effectiveAddress s rs1 imm) n (readReg s rs2) = .error f := by
  unfold storeFrom raise
  split <;> simp_all

theorem storeFrom_ne_refused {n : Nat} {rs2 rs1 : Reg} {imm : BitVec 12} {s : State} {r : Refusal} :
    storeFrom n rs2 rs1 imm s ≠ .refused r := by
  unfold storeFrom raise
  split <;> simp

/-- A read completes when it is aligned or misalignment is supported, and every byte is readable. -/
theorem memRead_ok {s : State} {a : Word} {n : Nat} {v : Word} :
    memRead s a n = .ok v ↔
      misalignedFaults s.params a n = false ∧ allBytes (readableAt s.params) a.toNat n = true ∧
        v = valueOfBytes (Memory.bytesAt s.mem a.toNat n) := by
  cases h : misalignedFaults s.params a n <;> cases h' : allBytes (readableAt s.params) a.toNat n <;>
    simp [memRead, h, h', eq_comm]

/-- The faults of a read, the alignment check first. -/
theorem memRead_error {s : State} {a : Word} {n : Nat} {f : Fault} :
    memRead s a n = .error f ↔
      (misalignedFaults s.params a n = true ∧ f = .loadAddressMisaligned a) ∨
      (misalignedFaults s.params a n = false ∧ allBytes (readableAt s.params) a.toNat n = false ∧
        f = .loadAccessFault a) := by
  cases h : misalignedFaults s.params a n <;> cases h' : allBytes (readableAt s.params) a.toNat n <;>
    simp [memRead, h, h', eq_comm]

/-- A write completes when it is aligned or misalignment is supported, and every byte may be stored to; it changes the
addressed bytes of memory and nothing else. -/
theorem memWrite_ok {s t : State} {a : Word} {n : Nat} {v : Word} :
    memWrite s a n v = .ok t ↔
      misalignedFaults s.params a n = false ∧ allBytes (storableAt s.params) a.toNat n = true ∧
        t = { s with mem := Memory.putBytes s.mem a.toNat (bytesOfValue v n) } := by
  cases h : misalignedFaults s.params a n <;> cases h' : allBytes (storableAt s.params) a.toNat n <;>
    simp [memWrite, h, h', eq_comm]

/-- The faults of a write, the alignment check first. -/
theorem memWrite_error {s : State} {a : Word} {n : Nat} {v : Word} {f : Fault} :
    memWrite s a n v = .error f ↔
      (misalignedFaults s.params a n = true ∧ f = .storeAddressMisaligned a) ∨
      (misalignedFaults s.params a n = false ∧ allBytes (storableAt s.params) a.toNat n = false ∧
        f = .storeAccessFault a) := by
  cases h : misalignedFaults s.params a n <;> cases h' : allBytes (storableAt s.params) a.toNat n <;>
    simp [memWrite, h, h', eq_comm]

/-- A byte after a write that completed (R45). -/
theorem memWrite_byteAt {s t : State} {a : Word} {n : Nat} {v : Word} (h : memWrite s a n v = .ok t) (b : Nat) :
    Memory.byteAt t.mem b =
      if a.toNat ≤ b ∧ b < a.toNat + n then v.extractLsb' (8 * (b - a.toNat)) 8 else Memory.byteAt s.mem b := by
  obtain ⟨-, -, rfl⟩ := memWrite_ok.mp h
  simp only [byteAt_putBytes, length_bytesOfValue, getElem_bytesOfValue]
  split <;> simp_all

/-- A write keeps the canonical form of memory. -/
theorem memWrite_keeps_wf {s t : State} {a : Word} {n : Nat} {v : Word} (h : memWrite s a n v = .ok t)
    (hs : Memory.wf s.mem = true) : Memory.wf t.mem = true := by
  obtain ⟨-, hb, rfl⟩ := memWrite_ok.mp h
  rw [allBytes_iff] at hb
  refine putBytes_keeps_wf _ ?_ hs
  rw [length_bytesOfValue]
  have ha := a.isLt
  cases n with
  | zero => omega
  | succ n => have := (hb n (by omega)).1; omega

/-- The condition of a word address in arithmetic. -/
theorem isWordAddress_iff (a : Word) : isWordAddress a = true ↔ a.toNat % 4 = 0 := by
  simp [isWordAddress, ← BitVec.toNat_inj, BitVec.extractLsb'_toNat]

/-- What the checks of a step find (R26, R253). -/
theorem step_cases (s : State) :
    (s.pc = s.params.endPc ∧ step s = .next s) ∨
    (s.pc ≠ s.params.endPc ∧ isWordAddress s.pc = false ∧ step s = .fault (.instructionAddressMisaligned s.pc)) ∨
    (s.pc ≠ s.params.endPc ∧ isWordAddress s.pc = true ∧
      ((∃ f, fetchWord s s.pc = .error f ∧ step s = .fault f) ∨
       (∃ w, fetchWord s s.pc = .ok w ∧
        ((∃ i, decode s.params.extM w = .instr i ∧ step s = exec i s) ∨
         (decode s.params.extM w = .unspecified ∧ step s = .refused (.unspecifiedInstruction s.pc w)) ∨
         ((decode s.params.extM w = .illegal ∨ decode s.params.extM w = .wrongLength) ∧
           step s = .fault (.illegalInstruction s.pc w)))))) := by
  unfold step fetch
  by_cases h1 : s.pc = s.params.endPc
  · simp [h1]
  · by_cases h2 : isWordAddress s.pc = true
    · cases h3 : fetchWord s s.pc with
      | error f => simp [h1, h2, raise]
      | ok w => cases h4 : decode s.params.extM w <;> simp [h1, h2, decoded, h4, raise]
    · simp only [Bool.not_eq_true] at h2
      simp [h1, h2, raise]

/-- The fetched word, byte by byte (R46). -/
theorem fetchWord_ok {s : State} {a : Word} {w : InstrWord} :
    fetchWord s a = .ok w ↔
      allBytes (executableAt s.params) a.toNat 4 = true ∧
        w = (valueOfBytes (Memory.bytesAt s.mem a.toNat 4)).setWidth 32 := by
  cases h : allBytes (executableAt s.params) a.toNat 4 <;> simp [fetchWord, h, eq_comm]

/-- The one fault of a fetch (R245). -/
theorem fetchWord_error {s : State} {a : Word} {f : Fault} :
    fetchWord s a = .error f ↔
      allBytes (executableAt s.params) a.toNat 4 = false ∧ f = .instructionAccessFault a := by
  cases h : allBytes (executableAt s.params) a.toNat 4 <;> simp [fetchWord, h, eq_comm]

/-- An aligned address leaves room for a word below the top of the address space. -/
theorem alignWord_le (a : Word) : (alignWord a).toNat + 4 ≤ 2 ^ 64 := by
  have h : (alignWord a).toNat ≤ 0xFFFFFFFFFFFFFFFC := by
    rw [alignWord, BitVec.toNat_and]
    exact Nat.and_le_right
  omega

/-- Placing an instruction at `pc` keeps the canonical form of memory. -/
theorem placeAtPc_keeps_wf {s : State} (w : InstrWord) (hs : Memory.wf s.mem = true) :
    Memory.wf (placeAtPc s w).mem = true :=
  putBytes_keeps_wf _ (alignWord_le s.pc) hs

end Sys2Proof.Machine
end

