-- ==== Sys2Proof/Laws/PerInstr.lean ====
section
/-! SUPPORT. A statement about every instruction as it is written, one lemma per constructor: its word is a word of its own row. -/

namespace Sys2Proof.Laws.EncodesRow

/-- The word of `i` is admitted by the row that bears its mnemonic, and by no test of a refused opcode. -/
def Statement (i : Instr) : Prop :=
  (∃ r ∈ opcodeRows, r.mnemonic = i.mnemonic ∧ r.needsM = i.needsM ∧ r.admits (encode i) = true) ∧
    isUnspecifiedOpcode (encode i) = false

/-- The row at a place of the table bears the mnemonic and admits the word. -/
theorem of_row {i : Instr} (n : Nat) (r : OpcodeRow) (op : BitVec 7) (hr : opcodeRows[n]? = some r)
    (hm : r.mnemonic = i.mnemonic) (hn : r.needsM = i.needsM) (ha : encode i &&& r.mask = r.pattern)
    (ho : fieldOpcode (encode i) = op) (hu : (op == 0b1110011#7 || op == 0b0001111#7) = false) : Statement i :=
  ⟨⟨r, List.mem_of_getElem? hr, hm, hn, beq_iff_eq.mpr ha⟩, (congrArg (fun o => o == _ || o == _) ho).trans hu⟩

theorem add (rd rs1 rs2 : Reg) : Statement (.add rd rs1 rs2) :=
  of_row 0 _ _ rfl rfl rfl (encodeR_masked ..) (fieldOpcode_encodeR ..) rfl

theorem sub (rd rs1 rs2 : Reg) : Statement (.sub rd rs1 rs2) :=
  of_row 1 _ _ rfl rfl rfl (encodeR_masked ..) (fieldOpcode_encodeR ..) rfl

theorem sll (rd rs1 rs2 : Reg) : Statement (.sll rd rs1 rs2) :=
  of_row 2 _ _ rfl rfl rfl (encodeR_masked ..) (fieldOpcode_encodeR ..) rfl

theorem slt (rd rs1 rs2 : Reg) : Statement (.slt rd rs1 rs2) :=
  of_row 3 _ _ rfl rfl rfl (encodeR_masked ..) (fieldOpcode_encodeR ..) rfl

theorem sltu (rd rs1 rs2 : Reg) : Statement (.sltu rd rs1 rs2) :=
  of_row 4 _ _ rfl rfl rfl (encodeR_masked ..) (fieldOpcode_encodeR ..) rfl

theorem xor (rd rs1 rs2 : Reg) : Statement (.xor rd rs1 rs2) :=
  of_row 5 _ _ rfl rfl rfl (encodeR_masked ..) (fieldOpcode_encodeR ..) rfl

theorem srl (rd rs1 rs2 : Reg) : Statement (.srl rd rs1 rs2) :=
  of_row 6 _ _ rfl rfl rfl (encodeR_masked ..) (fieldOpcode_encodeR ..) rfl

theorem sra (rd rs1 rs2 : Reg) : Statement (.sra rd rs1 rs2) :=
  of_row 7 _ _ rfl rfl rfl (encodeR_masked ..) (fieldOpcode_encodeR ..) rfl

theorem or (rd rs1 rs2 : Reg) : Statement (.or rd rs1 rs2) :=
  of_row 8 _ _ rfl rfl rfl (encodeR_masked ..) (fieldOpcode_encodeR ..) rfl

theorem and (rd rs1 rs2 : Reg) : Statement (.and rd rs1 rs2) :=
  of_row 9 _ _ rfl rfl rfl (encodeR_masked ..) (fieldOpcode_encodeR ..) rfl

theorem addi (rd rs1 : Reg) (imm : BitVec 12) : Statement (.addi rd rs1 imm) :=
  of_row 10 _ _ rfl rfl rfl (encodeI_masked ..) (fieldOpcode_encodeI ..) rfl

theorem slti (rd rs1 : Reg) (imm : BitVec 12) : Statement (.slti rd rs1 imm) :=
  of_row 11 _ _ rfl rfl rfl (encodeI_masked ..) (fieldOpcode_encodeI ..) rfl

theorem sltiu (rd rs1 : Reg) (imm : BitVec 12) : Statement (.sltiu rd rs1 imm) :=
  of_row 12 _ _ rfl rfl rfl (encodeI_masked ..) (fieldOpcode_encodeI ..) rfl

theorem xori (rd rs1 : Reg) (imm : BitVec 12) : Statement (.xori rd rs1 imm) :=
  of_row 13 _ _ rfl rfl rfl (encodeI_masked ..) (fieldOpcode_encodeI ..) rfl

theorem ori (rd rs1 : Reg) (imm : BitVec 12) : Statement (.ori rd rs1 imm) :=
  of_row 14 _ _ rfl rfl rfl (encodeI_masked ..) (fieldOpcode_encodeI ..) rfl

theorem andi (rd rs1 : Reg) (imm : BitVec 12) : Statement (.andi rd rs1 imm) :=
  of_row 15 _ _ rfl rfl rfl (encodeI_masked ..) (fieldOpcode_encodeI ..) rfl

theorem slli (rd rs1 : Reg) (sh : BitVec 6) : Statement (.slli rd rs1 sh) :=
  of_row 16 _ _ rfl rfl rfl (encodeShift6_masked ..) (fieldOpcode_encodeShift6 ..) rfl

theorem srli (rd rs1 : Reg) (sh : BitVec 6) : Statement (.srli rd rs1 sh) :=
  of_row 17 _ _ rfl rfl rfl (encodeShift6_masked ..) (fieldOpcode_encodeShift6 ..) rfl

theorem srai (rd rs1 : Reg) (sh : BitVec 6) : Statement (.srai rd rs1 sh) :=
  of_row 18 _ _ rfl rfl rfl (encodeShift6_masked ..) (fieldOpcode_encodeShift6 ..) rfl

theorem lb (rd rs1 : Reg) (imm : BitVec 12) : Statement (.lb rd rs1 imm) :=
  of_row 19 _ _ rfl rfl rfl (encodeI_masked ..) (fieldOpcode_encodeI ..) rfl

theorem lh (rd rs1 : Reg) (imm : BitVec 12) : Statement (.lh rd rs1 imm) :=
  of_row 20 _ _ rfl rfl rfl (encodeI_masked ..) (fieldOpcode_encodeI ..) rfl

theorem lw (rd rs1 : Reg) (imm : BitVec 12) : Statement (.lw rd rs1 imm) :=
  of_row 21 _ _ rfl rfl rfl (encodeI_masked ..) (fieldOpcode_encodeI ..) rfl

theorem ld (rd rs1 : Reg) (imm : BitVec 12) : Statement (.ld rd rs1 imm) :=
  of_row 22 _ _ rfl rfl rfl (encodeI_masked ..) (fieldOpcode_encodeI ..) rfl

theorem lbu (rd rs1 : Reg) (imm : BitVec 12) : Statement (.lbu rd rs1 imm) :=
  of_row 23 _ _ rfl rfl rfl (encodeI_masked ..) (fieldOpcode_encodeI ..) rfl

theorem lhu (rd rs1 : Reg) (imm : BitVec 12) : Statement (.lhu rd rs1 imm) :=
  of_row 24 _ _ rfl rfl rfl (encodeI_masked ..) (fieldOpcode_encodeI ..) rfl

theorem lwu (rd rs1 : Reg) (imm : BitVec 12) : Statement (.lwu rd rs1 imm) :=
  of_row 25 _ _ rfl rfl rfl (encodeI_masked ..) (fieldOpcode_encodeI ..) rfl

theorem sb (rs2 rs1 : Reg) (imm : BitVec 12) : Statement (.sb rs2 rs1 imm) :=
  of_row 26 _ _ rfl rfl rfl (encodeS_masked ..) (fieldOpcode_encodeS ..) rfl

theorem sh (rs2 rs1 : Reg) (imm : BitVec 12) : Statement (.sh rs2 rs1 imm) :=
  of_row 27 _ _ rfl rfl rfl (encodeS_masked ..) (fieldOpcode_encodeS ..) rfl

theorem sw (rs2 rs1 : Reg) (imm : BitVec 12) : Statement (.sw rs2 rs1 imm) :=
  of_row 28 _ _ rfl rfl rfl (encodeS_masked ..) (fieldOpcode_encodeS ..) rfl

theorem sd (rs2 rs1 : Reg) (imm : BitVec 12) : Statement (.sd rs2 rs1 imm) :=
  of_row 29 _ _ rfl rfl rfl (encodeS_masked ..) (fieldOpcode_encodeS ..) rfl

theorem beq (rs1 rs2 : Reg) (imm : BitVec 13) : Statement (.beq rs1 rs2 imm) :=
  of_row 30 _ _ rfl rfl rfl (encodeB_masked ..) (fieldOpcode_encodeB ..) rfl

theorem bne (rs1 rs2 : Reg) (imm : BitVec 13) : Statement (.bne rs1 rs2 imm) :=
  of_row 31 _ _ rfl rfl rfl (encodeB_masked ..) (fieldOpcode_encodeB ..) rfl

theorem blt (rs1 rs2 : Reg) (imm : BitVec 13) : Statement (.blt rs1 rs2 imm) :=
  of_row 32 _ _ rfl rfl rfl (encodeB_masked ..) (fieldOpcode_encodeB ..) rfl

theorem bge (rs1 rs2 : Reg) (imm : BitVec 13) : Statement (.bge rs1 rs2 imm) :=
  of_row 33 _ _ rfl rfl rfl (encodeB_masked ..) (fieldOpcode_encodeB ..) rfl

theorem bltu (rs1 rs2 : Reg) (imm : BitVec 13) : Statement (.bltu rs1 rs2 imm) :=
  of_row 34 _ _ rfl rfl rfl (encodeB_masked ..) (fieldOpcode_encodeB ..) rfl

theorem bgeu (rs1 rs2 : Reg) (imm : BitVec 13) : Statement (.bgeu rs1 rs2 imm) :=
  of_row 35 _ _ rfl rfl rfl (encodeB_masked ..) (fieldOpcode_encodeB ..) rfl

theorem jalr (rd rs1 : Reg) (imm : BitVec 12) : Statement (.jalr rd rs1 imm) :=
  of_row 36 _ _ rfl rfl rfl (encodeI_masked ..) (fieldOpcode_encodeI ..) rfl

theorem jal (rd : Reg) (imm : BitVec 21) : Statement (.jal rd imm) :=
  of_row 37 _ _ rfl rfl rfl (encodeJ_masked ..) (fieldOpcode_encodeJ ..) rfl

theorem lui (rd : Reg) (imm : BitVec 20) : Statement (.lui rd imm) :=
  of_row 38 _ _ rfl rfl rfl (encodeU_masked ..) (fieldOpcode_encodeU ..) rfl

theorem auipc (rd : Reg) (imm : BitVec 20) : Statement (.auipc rd imm) :=
  of_row 39 _ _ rfl rfl rfl (encodeU_masked ..) (fieldOpcode_encodeU ..) rfl

theorem addiw (rd rs1 : Reg) (imm : BitVec 12) : Statement (.addiw rd rs1 imm) :=
  of_row 40 _ _ rfl rfl rfl (encodeI_masked ..) (fieldOpcode_encodeI ..) rfl

theorem slliw (rd rs1 : Reg) (sh : BitVec 5) : Statement (.slliw rd rs1 sh) :=
  of_row 41 _ _ rfl rfl rfl (encodeR_masked ..) (fieldOpcode_encodeR ..) rfl

theorem srliw (rd rs1 : Reg) (sh : BitVec 5) : Statement (.srliw rd rs1 sh) :=
  of_row 42 _ _ rfl rfl rfl (encodeR_masked ..) (fieldOpcode_encodeR ..) rfl

theorem sraiw (rd rs1 : Reg) (sh : BitVec 5) : Statement (.sraiw rd rs1 sh) :=
  of_row 43 _ _ rfl rfl rfl (encodeR_masked ..) (fieldOpcode_encodeR ..) rfl

theorem addw (rd rs1 rs2 : Reg) : Statement (.addw rd rs1 rs2) :=
  of_row 44 _ _ rfl rfl rfl (encodeR_masked ..) (fieldOpcode_encodeR ..) rfl

theorem subw (rd rs1 rs2 : Reg) : Statement (.subw rd rs1 rs2) :=
  of_row 45 _ _ rfl rfl rfl (encodeR_masked ..) (fieldOpcode_encodeR ..) rfl

theorem sllw (rd rs1 rs2 : Reg) : Statement (.sllw rd rs1 rs2) :=
  of_row 46 _ _ rfl rfl rfl (encodeR_masked ..) (fieldOpcode_encodeR ..) rfl

theorem srlw (rd rs1 rs2 : Reg) : Statement (.srlw rd rs1 rs2) :=
  of_row 47 _ _ rfl rfl rfl (encodeR_masked ..) (fieldOpcode_encodeR ..) rfl

theorem sraw (rd rs1 rs2 : Reg) : Statement (.sraw rd rs1 rs2) :=
  of_row 48 _ _ rfl rfl rfl (encodeR_masked ..) (fieldOpcode_encodeR ..) rfl

theorem mul (rd rs1 rs2 : Reg) : Statement (.mul rd rs1 rs2) :=
  of_row 49 _ _ rfl rfl rfl (encodeR_masked ..) (fieldOpcode_encodeR ..) rfl

theorem div (rd rs1 rs2 : Reg) : Statement (.div rd rs1 rs2) :=
  of_row 50 _ _ rfl rfl rfl (encodeR_masked ..) (fieldOpcode_encodeR ..) rfl

theorem rem (rd rs1 rs2 : Reg) : Statement (.rem rd rs1 rs2) :=
  of_row 51 _ _ rfl rfl rfl (encodeR_masked ..) (fieldOpcode_encodeR ..) rfl

end Sys2Proof.Laws.EncodesRow
end

