-- ==== Sys2Proof/Laws/Reset.lean ====
section
/-! SUPPORT. The reset state is a launch state, and its memory and parameters have their form. -/

namespace Sys2Proof.Machine

/-- The reset state is the launch with the reset parameters and no image (R270, R271). -/
theorem reset_is_launch : State.reset = State.launch Params.reset Config.resetPc resetRegs [] := rfl

/-- The reset memory has the canonical form. -/
theorem reset_mem_wf : Memory.wf State.reset.mem = true := rfl

/-- The reset parameters are as R41 and R276 ask. -/
theorem reset_params_wf : State.reset.params.wf = true := by decide

/-- The memory of every launch has the canonical form, whatever the image. -/
theorem launch_mem_wf (p : Params) (resetPc : Word) (initRegs : Vector Word 31) (image : List Host.Cell) :
    Memory.wf (State.launch p resetPc initRegs image).mem = true := placeCells_keeps_wf image rfl

end Sys2Proof.Machine
end

