-- ==== Sys2Proof/Laws/Run.lean ====
section
/-! SUPPORT. Runs: the equations of `run`, and that it is the host's. -/

namespace Sys2Proof.Machine

@[simp] theorem run_zero (s : State) : run 0 s = .next s := rfl

/-- A run that goes on takes its first step and runs from there. -/
theorem run_succ_of_next {k : Nat} {s t : State} (h : step s = .next t) : run (k + 1) s = run k t := by simp [run, h]

/-- A run whose first step faults is at that fault. -/
theorem run_succ_of_fault {k : Nat} {s : State} {f : Fault} (h : step s = .fault f) : run (k + 1) s = .fault f := by
  simp [run, h]

/-- A run whose first step is refused is at that refusal. -/
theorem run_succ_of_refused {k : Nat} {s : State} {r : Refusal} (h : step s = .refused r) :
    run (k + 1) s = .refused r := by simp [run, h]

/-- The run of this model is the host's run of its core. -/
theorem run_eq_core (k : Nat) (s : State) : run k s = Sys2Proof.core.run k s := by
  induction k generalizing s with
  | zero => rfl
  | succ k ih =>
    have h : Sys2Proof.core.step s = step s := rfl
    cases hs : step s <;> simp [run, Host.Core.run, h, hs, ih] <;> rfl

end Sys2Proof.Machine
end

