-- ==== Sys2Proof/Tests/Slice0.lean ====
section
/-! SUPPORT. Tests of this model: the smoke of WellFormed, one word written out from the spec's encoding for every constructor, one or
two of the spec's worked examples for every instruction, the words that are rejected, and for every statement with
hypotheses a state and operands that meet them, clause by clause. Expected results are the spec's, named in each comment. -/

namespace Sys2Proof.Tests

open Sys2Proof.Machine

/-! Small states. -/

/-- Text at 0 to 0x3FFF, data at 0x8000 to 0x8FFF, END_PC 0x5000, the defaults of R5, EXT_M true. -/
def params : Params where
  memMap :=
    [{ base := 0, length := 0x4000, readable := true, writable := false, executable := true },
     { base := 0x8000, length := 0x1000, readable := true, writable := true, executable := false }]
  endPc := 0x5000#64
  extM := true
  misalignedData := .fault
  textWritable := false
  divNumerics := .standard

/-- A state at `pc`, with registers set and bytes placed. -/
def bare (pc : Word) (rs : List (Reg × Word)) (cells : List Host.Cell) : State :=
  rs.foldl (fun s p => writeReg s p.1 p.2)
    { regs := Vector.replicate 31 0#64, pc := pc, params := params, mem := placeCells [] cells }

/-- Such a state with a word at `pc`. -/
def at_ (pc : Word) (w : InstrWord) (rs : List (Reg × Word)) (cells : List Host.Cell) : State :=
  let s := bare pc rs cells
  { s with mem := Memory.putBytes s.mem pc.toNat (bytesOfWord w) }

/-- The next state, where there is one. -/
def nextOf : Result → Option State
  | .next t => some t
  | _ => none

/-- The fault, where there is one. -/
def faultOf : Result → Option Fault
  | .fault f => some f
  | _ => none

/-- The refusal, where there is one. -/
def refusalOf : Result → Option Refusal
  | .refused r => some r
  | _ => none

/-- A register after one step. -/
def regAfter (s : State) (r : Reg) : Option Word := (nextOf (step s)).map (readReg · r)

/-- `pc` after one step. -/
def pcAfter (s : State) : Option Word := (nextOf (step s)).map (·.pc)

/-- Bytes of memory after one step. -/
def bytesAfter (s : State) (a n : Nat) : Option (List Byte) := (nextOf (step s)).map (fun t => Memory.bytesAt t.mem a n)

theorem next_of {o : Result} (h : (nextOf o).isSome = true) : ∃ t, o = .next t := by
  cases o <;> simp_all [nextOf]

theorem fault_of {o : Result} {f : Fault} (h : faultOf o = some f) : o = .fault f := by
  cases o <;> simp_all [faultOf]

theorem refused_of {o : Result} {r : Refusal} (h : refusalOf o = some r) : o = .refused r := by
  cases o <;> simp_all [refusalOf]

/-! WellFormed: an ill-formed term for each check. -/

theorem test_wf_refuses_odd_branch : (Instr.beq 1#5 2#5 7#13).wf = false := by decide
theorem test_wf_admits_even_branch : (Instr.bgeu 1#5 2#5 0x1000#13).wf = true := by decide
theorem test_wf_refuses_odd_jump : (Instr.jal 1#5 9#21).wf = false := by decide
theorem test_wf_admits_odd_jalr : (Instr.jalr 1#5 6#5 5#12).wf = true := by decide

/-- A region past the top of the address space. -/
theorem test_wf_refuses_region_past_top :
    Region.wf { base := 2 ^ 64 - 1, length := 2, readable := true, writable := true, executable := false } = false := by
  decide

/-- Two regions that share the byte 7. -/
theorem test_wf_refuses_overlap :
    memMapWf [{ base := 0, length := 8, readable := true, writable := true, executable := false },
      { base := 7, length := 1, readable := true, writable := false, executable := false }] = false := by decide

theorem test_wf_refuses_odd_end_pc : endPcAligned 0x5002#64 = false := by decide
theorem test_wf_params : params.wf = true := by decide

/-! Decoding: a word of every constructor, its fields in the order of its format (R73 to R78), the function codes of R90 to R98. -/

/-- OP (R94): `funct7 rs2 rs1 funct3 rd opcode`. -/
theorem test_decode_op :
    decode false 0b0000000_00111_00110_000_00101_0110011#32 = .instr (.add 5#5 6#5 7#5) ∧
    decode false 0b0100000_00111_00110_000_00101_0110011#32 = .instr (.sub 5#5 6#5 7#5) ∧
    decode false 0b0000000_00111_00110_001_00101_0110011#32 = .instr (.sll 5#5 6#5 7#5) ∧
    decode false 0b0000000_00111_00110_010_00101_0110011#32 = .instr (.slt 5#5 6#5 7#5) ∧
    decode false 0b0000000_00111_00110_011_00101_0110011#32 = .instr (.sltu 5#5 6#5 7#5) := by
  decide

/-- OP (R94), the other five. -/
theorem test_decode_op_second :
    decode false 0b0000000_00111_00110_100_00101_0110011#32 = .instr (.xor 5#5 6#5 7#5) ∧
    decode false 0b0000000_00111_00110_101_00101_0110011#32 = .instr (.srl 5#5 6#5 7#5) ∧
    decode false 0b0100000_00111_00110_101_00101_0110011#32 = .instr (.sra 5#5 6#5 7#5) ∧
    decode false 0b0000000_00111_00110_110_00101_0110011#32 = .instr (.or 5#5 6#5 7#5) ∧
    decode false 0b0000000_00111_00110_111_00101_0110011#32 = .instr (.and 5#5 6#5 7#5) := by
  decide

/-- OP-IMM (R93): `imm12 rs1 funct3 rd opcode`. -/
theorem test_decode_op_imm :
    decode false 0b100000000001_00110_000_00101_0010011#32 = .instr (.addi 5#5 6#5 0x801#12) ∧
    decode false 0b100000000001_00110_010_00101_0010011#32 = .instr (.slti 5#5 6#5 0x801#12) ∧
    decode false 0b100000000001_00110_011_00101_0010011#32 = .instr (.sltiu 5#5 6#5 0x801#12) ∧
    decode false 0b100000000001_00110_100_00101_0010011#32 = .instr (.xori 5#5 6#5 0x801#12) ∧
    decode false 0b100000000001_00110_110_00101_0010011#32 = .instr (.ori 5#5 6#5 0x801#12) ∧
    decode false 0b100000000001_00110_111_00101_0010011#32 = .instr (.andi 5#5 6#5 0x801#12) := by
  decide

/-- OP-IMM shifts (R85, R93): `funct6 shamt6 rs1 funct3 rd opcode`. -/
theorem test_decode_shift_imm :
    decode false 0b000000_100001_00110_001_00101_0010011#32 = .instr (.slli 5#5 6#5 33#6) ∧
    decode false 0b000000_100001_00110_101_00101_0010011#32 = .instr (.srli 5#5 6#5 33#6) ∧
    decode false 0b010000_100001_00110_101_00101_0010011#32 = .instr (.srai 5#5 6#5 33#6) := by
  decide

/-- LOAD (R91): `imm12 rs1 funct3 rd opcode`. -/
theorem test_decode_load :
    decode false 0b111111111000_00010_000_00101_0000011#32 = .instr (.lb 5#5 2#5 0xFF8#12) ∧
    decode false 0b111111111000_00010_001_00101_0000011#32 = .instr (.lh 5#5 2#5 0xFF8#12) ∧
    decode false 0b111111111000_00010_010_00101_0000011#32 = .instr (.lw 5#5 2#5 0xFF8#12) ∧
    decode false 0b111111111000_00010_011_00101_0000011#32 = .instr (.ld 5#5 2#5 0xFF8#12) ∧
    decode false 0b111111111000_00010_100_00101_0000011#32 = .instr (.lbu 5#5 2#5 0xFF8#12) ∧
    decode false 0b111111111000_00010_101_00101_0000011#32 = .instr (.lhu 5#5 2#5 0xFF8#12) ∧
    decode false 0b111111111000_00010_110_00101_0000011#32 = .instr (.lwu 5#5 2#5 0xFF8#12) := by
  decide

/-- STORE (R92): `imm[11:5] rs2 rs1 funct3 imm[4:0] opcode`. -/
theorem test_decode_store :
    decode false 0b1111111_00101_00010_000_11000_0100011#32 = .instr (.sb 5#5 2#5 0xFF8#12) ∧
    decode false 0b1111111_00101_00010_001_11000_0100011#32 = .instr (.sh 5#5 2#5 0xFF8#12) ∧
    decode false 0b1111111_00101_00010_010_11000_0100011#32 = .instr (.sw 5#5 2#5 0xFF8#12) ∧
    decode false 0b1111111_00101_00010_011_11000_0100011#32 = .instr (.sd 5#5 2#5 0xFF8#12) := by
  decide

/-- BRANCH (R97, R76): `imm[12] imm[10:5] rs2 rs1 funct3 imm[4:1] imm[11] opcode`, displacement 0x0AA6 for the first three and -2 for the others. -/
theorem test_decode_branch :
    decode false 0b0_010101_00110_00101_000_0011_1_1100011#32 = .instr (.beq 5#5 6#5 0xAA6#13) ∧
    decode false 0b0_010101_00110_00101_001_0011_1_1100011#32 = .instr (.bne 5#5 6#5 0xAA6#13) ∧
    decode false 0b0_010101_00110_00101_100_0011_1_1100011#32 = .instr (.blt 5#5 6#5 0xAA6#13) ∧
    decode false 0b1_111111_00110_00101_101_1111_1_1100011#32 = .instr (.bge 5#5 6#5 0x1FFE#13) ∧
    decode false 0b1_111111_00110_00101_110_1111_1_1100011#32 = .instr (.bltu 5#5 6#5 0x1FFE#13) ∧
    decode false 0b1_111111_00110_00101_111_1111_1_1100011#32 = .instr (.bgeu 5#5 6#5 0x1FFE#13) := by
  decide

/-- JALR, JAL, LUI, AUIPC (R98): `jal` as `imm[20] imm[10:1] imm[11] imm[19:12] rd opcode`, displacements 0xA5554 + 0x800 and -4. -/
theorem test_decode_jump_upper :
    decode false 0b000000000101_00110_000_00001_1100111#32 = .instr (.jalr 1#5 6#5 5#12) ∧
    decode false 0b0_1010101010_1_10100101_00001_1101111#32 = .instr (.jal 1#5 0xA5D54#21) ∧
    decode false 0b1_1111111110_1_11111111_00000_1101111#32 = .instr (.jal 0#5 0x1FFFFC#21) ∧
    decode false 0b00010010001101000101_00101_0110111#32 = .instr (.lui 5#5 0x12345#20) ∧
    decode false 0b11111111111111111111_00101_0010111#32 = .instr (.auipc 5#5 0xFFFFF#20) := by
  decide

/-- OP-IMM-32 and OP-32 (R95, R96). -/
theorem test_decode_word :
    decode false 0b000000000001_00110_000_00101_0011011#32 = .instr (.addiw 5#5 6#5 1#12) ∧
    decode false 0b0000000_11111_00110_001_00101_0011011#32 = .instr (.slliw 5#5 6#5 31#5) ∧
    decode false 0b0000000_11111_00110_101_00101_0011011#32 = .instr (.srliw 5#5 6#5 31#5) ∧
    decode false 0b0100000_11111_00110_101_00101_0011011#32 = .instr (.sraiw 5#5 6#5 31#5) ∧
    decode false 0b0000000_00111_00110_000_00101_0111011#32 = .instr (.addw 5#5 6#5 7#5) ∧
    decode false 0b0100000_00111_00110_000_00101_0111011#32 = .instr (.subw 5#5 6#5 7#5) ∧
    decode false 0b0000000_00111_00110_001_00101_0111011#32 = .instr (.sllw 5#5 6#5 7#5) ∧
    decode false 0b0000000_00111_00110_101_00101_0111011#32 = .instr (.srlw 5#5 6#5 7#5) ∧
    decode false 0b0100000_00111_00110_101_00101_0111011#32 = .instr (.sraw 5#5 6#5 7#5) := by
  decide

/-- The rows of EXT_M (R94, R225). -/
theorem test_decode_muldiv :
    decode true 0b0000001_00111_00110_000_00101_0110011#32 = .instr (.mul 5#5 6#5 7#5) ∧
    decode true 0b0000001_00111_00110_100_00101_0110011#32 = .instr (.div 5#5 6#5 7#5) ∧
    decode true 0b0000001_00111_00110_110_00101_0110011#32 = .instr (.rem 5#5 6#5 7#5) := by
  decide

/-- The same three words without EXT_M (R225), the reserved shifts (R102), all zeros, all ones and a compressed-looking word (R101). -/
theorem test_decode_illegal :
    decode false 0x027302B3#32 = .illegal ∧ decode false 0x027342B3#32 = .illegal ∧ decode false 0x027362B3#32 = .illegal ∧
    decode true 0x0203129B#32 = .illegal ∧ decode true 0x04031293#32 = .illegal ∧ decode true 0x42035293#32 = .instr (.srai 5#5 6#5 32#6) ∧
    decode true 0x00000000#32 = .illegal ∧ decode true 0xFFFFFFFF#32 = .illegal ∧ decode true 0x00000012#32 = .illegal := by
  decide

/-- `ecall`, `ebreak`, `fence` (R104): refused by name, not illegal. -/
theorem test_decode_unspecified :
    decode true 0x00000073#32 = .unspecified ∧ decode true 0x00100073#32 = .unspecified ∧
    decode true 0x0FF0000F#32 = .unspecified := by decide

/-- Three or five bytes are no instruction (R70). -/
theorem test_decode_length :
    decodeBytes true [0xB3#8, 0x02#8, 0x73#8] = .wrongLength ∧
    decodeBytes true [0xB3#8, 0x02#8, 0x73#8, 0x00#8] = .instr (.add 5#5 6#5 7#5) ∧
    decodeBytes true [0xB3#8, 0x02#8, 0x73#8, 0x00#8, 0x00#8] = .wrongLength := by decide

theorem test_table_word :
    decodeTableWord 32 0x027302B3 = some (.mul 5#5 6#5 7#5) ∧ decodeTableWord 32 0x00000073 = none ∧
    decodeTableWord 32 0x00000000 = none := by decide

/-- The encodings the rules print: `neg`, `not`, `bgt`, `ret` and the words of a `sd` (R125, R147, R177, R167, R187). -/
theorem test_encode :
    encode (.sub 5#5 0#5 6#5) = 0x406002B3#32 ∧ encode (.xori 5#5 6#5 0xFFF#12) = 0xFFF34293#32 ∧
    encode (.blt 6#5 5#5 8#13) = 0x00534463#32 ∧ encode (.jalr 0#5 1#5 0#12) = 0x00008067#32 ∧
    encode (.sd 5#5 2#5 0xFF8#12) = 0xFE513C23#32 := by decide

/-! One step of each instruction: the examples and corner cases of its rule. -/

theorem test_add :
    regAfter (at_ 0x1000#64 0x007302B3#32 [(6#5, 0x5#64), (7#5, 0xFFFFFFFFFFFFFFFE#64)] []) 5#5 = some 0x3#64 := by decide

theorem test_add_wraps :
    regAfter (at_ 0x1000#64 0x007302B3#32 [(6#5, 0xFFFFFFFFFFFFFFFF#64), (7#5, 0x1#64)] []) 5#5 = some 0x0#64 := by decide

theorem test_addi :
    regAfter (at_ 0x1000#64 0xFFF30293#32 [(6#5, 0x0#64)] []) 5#5 = some 0xFFFFFFFFFFFFFFFF#64 := by decide

theorem test_addi_x0 :
    regAfter (at_ 0x1000#64 0x00500013#32 [] []) 0#5 = some 0x0#64 := by decide

theorem test_sub :
    regAfter (at_ 0x1000#64 0x407302B3#32 [(6#5, 0x3#64), (7#5, 0x5#64)] []) 5#5 = some 0xFFFFFFFFFFFFFFFE#64 := by decide

theorem test_sub_wraps :
    regAfter (at_ 0x1000#64 0x407302B3#32 [(6#5, 0x8000000000000000#64), (7#5, 0x1#64)] []) 5#5 = some 0x7FFFFFFFFFFFFFFF#64 := by decide

theorem test_slt :
    regAfter (at_ 0x1000#64 0x007322B3#32 [(6#5, 0xFFFFFFFFFFFFFFFF#64), (7#5, 0x1#64)] []) 5#5 = some 0x1#64 := by decide

theorem test_slt_extremes :
    regAfter (at_ 0x1000#64 0x007322B3#32 [(6#5, 0x8000000000000000#64), (7#5, 0x7FFFFFFFFFFFFFFF#64)] []) 5#5 = some 0x1#64 := by decide

theorem test_slti :
    regAfter (at_ 0x1000#64 0xFFF32293#32 [(6#5, 0xFFFFFFFFFFFFFFFE#64)] []) 5#5 = some 0x1#64 := by decide

theorem test_slti_equal :
    regAfter (at_ 0x1000#64 0xFFF32293#32 [(6#5, 0xFFFFFFFFFFFFFFFF#64)] []) 5#5 = some 0x0#64 := by decide

theorem test_sltu :
    regAfter (at_ 0x1000#64 0x007332B3#32 [(6#5, 0x1#64), (7#5, 0xFFFFFFFFFFFFFFFF#64)] []) 5#5 = some 0x1#64 := by decide

theorem test_sltu_not_signed :
    regAfter (at_ 0x1000#64 0x007332B3#32 [(6#5, 0xFFFFFFFFFFFFFFFF#64), (7#5, 0x1#64)] []) 5#5 = some 0x0#64 := by decide

theorem test_sltiu :
    regAfter (at_ 0x1000#64 0x00133293#32 [(6#5, 0x0#64)] []) 5#5 = some 0x1#64 := by decide

theorem test_sltiu_sign_extends :
    regAfter (at_ 0x1000#64 0xFFF33293#32 [(6#5, 0x5#64)] []) 5#5 = some 0x1#64 := by decide

theorem test_or :
    regAfter (at_ 0x1000#64 0x007362B3#32 [(6#5, 0xFFFF0000#64), (7#5, 0xFFFF#64)] []) 5#5 = some 0xFFFFFFFF#64 := by decide

theorem test_ori :
    regAfter (at_ 0x1000#64 0xF0036293#32 [(6#5, 0x12#64)] []) 5#5 = some 0xFFFFFFFFFFFFFF12#64 := by decide

theorem test_and :
    regAfter (at_ 0x1000#64 0x007372B3#32 [(6#5, 0xFF00FF00FF00FF00#64), (7#5, 0xFF00FF00FF00FF0#64)] []) 5#5 = some 0xF000F000F000F00#64 := by decide

theorem test_andi :
    regAfter (at_ 0x1000#64 0x0FF37293#32 [(6#5, 0x123456789ABCDEF0#64)] []) 5#5 = some 0xF0#64 := by decide

theorem test_xor :
    regAfter (at_ 0x1000#64 0x007342B3#32 [(6#5, 0xFFFF0000FFFF0000#64), (7#5, 0xFF00FF00FF00FF00#64)] []) 5#5 = some 0xFFFF0000FFFF00#64 := by decide

theorem test_xori :
    regAfter (at_ 0x1000#64 0x55534293#32 [(6#5, 0xFFF#64)] []) 5#5 = some 0xAAA#64 := by decide

theorem test_slli :
    regAfter (at_ 0x1000#64 0x00331293#32 [(6#5, 0x8000000000000001#64)] []) 5#5 = some 0x8#64 := by decide

theorem test_slli_63 :
    regAfter (at_ 0x1000#64 0x03F31293#32 [(6#5, 0x3#64)] []) 5#5 = some 0x8000000000000000#64 := by decide

theorem test_srli :
    regAfter (at_ 0x1000#64 0x00435293#32 [(6#5, 0xF000000000000000#64)] []) 5#5 = some 0xF00000000000000#64 := by decide

theorem test_srli_0_copies :
    regAfter (at_ 0x1000#64 0x00035293#32 [(6#5, 0xF000000000000001#64)] []) 5#5 = some 0xF000000000000001#64 := by decide

theorem test_srai :
    regAfter (at_ 0x1000#64 0x40435293#32 [(6#5, 0xF000000000000000#64)] []) 5#5 = some 0xFF00000000000000#64 := by decide

theorem test_srai_minus_one :
    regAfter (at_ 0x1000#64 0x40435293#32 [(6#5, 0xFFFFFFFFFFFFFFFF#64)] []) 5#5 = some 0xFFFFFFFFFFFFFFFF#64 := by decide

theorem test_sll :
    regAfter (at_ 0x1000#64 0x007312B3#32 [(6#5, 0x1#64), (7#5, 0x41#64)] []) 5#5 = some 0x2#64 := by decide

theorem test_sll_64_is_0 :
    regAfter (at_ 0x1000#64 0x007312B3#32 [(6#5, 0x1#64), (7#5, 0x40#64)] []) 5#5 = some 0x1#64 := by decide

theorem test_srl :
    regAfter (at_ 0x1000#64 0x007352B3#32 [(6#5, 0x8000000000000000#64), (7#5, 0x3F#64)] []) 5#5 = some 0x1#64 := by decide

theorem test_sra :
    regAfter (at_ 0x1000#64 0x407352B3#32 [(6#5, 0x8000000000000000#64), (7#5, 0x3F#64)] []) 5#5 = some 0xFFFFFFFFFFFFFFFF#64 := by decide

theorem test_jal_links :
    regAfter (at_ 0x1000#64 0x008000EF#32 [] []) 1#5 = some 0x1004#64 := by decide

theorem test_jal_back :
    pcAfter (at_ 0x1000#64 0xFFDFF06F#32 [] []) = some 0xFFC#64 := by decide

theorem test_jalr_clears_bit_0 :
    pcAfter (at_ 0x2000#64 0x005300E7#32 [(6#5, 0x3000#64)] []) = some 0x3004#64 := by decide

theorem test_jalr_same_register :
    regAfter (at_ 0x2000#64 0x004080E7#32 [(1#5, 0x3000#64)] []) 1#5 = some 0x2004#64 := by decide

theorem test_beq_taken :
    pcAfter (at_ 0x1000#64 0x00628463#32 [(5#5, 0x7#64), (6#5, 0x7#64)] []) = some 0x1008#64 := by decide

theorem test_beq_not_taken :
    pcAfter (at_ 0x1000#64 0x00628463#32 [(5#5, 0x7#64), (6#5, 0x8#64)] []) = some 0x1004#64 := by decide

theorem test_bne_taken :
    pcAfter (at_ 0x1000#64 0xFE629EE3#32 [(5#5, 0x1#64), (6#5, 0x0#64)] []) = some 0xFFC#64 := by decide

theorem test_bne_bit_63 :
    pcAfter (at_ 0x1000#64 0xFE629EE3#32 [(5#5, 0x8000000000000000#64), (6#5, 0x0#64)] []) = some 0xFFC#64 := by decide

theorem test_bge_taken :
    pcAfter (at_ 0x1000#64 0xFE62DCE3#32 [(5#5, 0x0#64), (6#5, 0xFFFFFFFFFFFFFFFF#64)] []) = some 0xFF8#64 := by decide

theorem test_bge_equal :
    pcAfter (at_ 0x1000#64 0xFE62DCE3#32 [(5#5, 0x4#64), (6#5, 0x4#64)] []) = some 0xFF8#64 := by decide

theorem test_blt_taken :
    pcAfter (at_ 0x1000#64 0x0062C863#32 [(5#5, 0xFFFFFFFFFFFFFFFF#64), (6#5, 0x0#64)] []) = some 0x1010#64 := by decide

theorem test_blt_equal :
    pcAfter (at_ 0x1000#64 0x0062C863#32 [(5#5, 0x4#64), (6#5, 0x4#64)] []) = some 0x1004#64 := by decide

theorem test_bgeu_taken :
    pcAfter (at_ 0x2000#64 0x8062F063#32 [(5#5, 0xFFFFFFFFFFFFFFFF#64), (6#5, 0x1#64)] []) = some 0x1000#64 := by decide

theorem test_bgeu_not_taken :
    pcAfter (at_ 0x2000#64 0x8062F063#32 [(5#5, 0x0#64), (6#5, 0xFFFFFFFFFFFFFFFF#64)] []) = some 0x2004#64 := by decide

theorem test_bltu_taken :
    pcAfter (at_ 0x1000#64 0x0062E0E3#32 [(5#5, 0x1#64), (6#5, 0xFFFFFFFFFFFFFFFF#64)] []) = some 0x1800#64 := by decide

theorem test_bltu_not_taken :
    pcAfter (at_ 0x1000#64 0x0062E0E3#32 [(5#5, 0x8000000000000000#64), (6#5, 0x0#64)] []) = some 0x1004#64 := by decide

theorem test_ld :
    regAfter (at_ 0x1000#64 0x00813283#32 [(2#5, 0x8000#64)] [(0x8008, 0xEF#8), (0x8009, 0xCD#8), (0x800A, 0xAB#8), (0x800B, 0x89#8), (0x800C, 0x67#8), (0x800D, 0x45#8), (0x800E, 0x23#8), (0x800F, 0x01#8)]) 5#5 = some 0x123456789ABCDEF#64 := by decide

theorem test_ld_same_register :
    regAfter (at_ 0x1000#64 0x0082B283#32 [(5#5, 0x8000#64)] [(0x8008, 0xEF#8), (0x8009, 0xCD#8), (0x800A, 0xAB#8), (0x800B, 0x89#8), (0x800C, 0x67#8), (0x800D, 0x45#8), (0x800E, 0x23#8), (0x800F, 0x01#8)]) 5#5 = some 0x123456789ABCDEF#64 := by decide

theorem test_lw :
    regAfter (at_ 0x1000#64 0x00432283#32 [(6#5, 0x8000#64)] [(0x8004, 0x00#8), (0x8005, 0x00#8), (0x8006, 0x00#8), (0x8007, 0x80#8)]) 5#5 = some 0xFFFFFFFF80000000#64 := by decide

theorem test_lwu :
    regAfter (at_ 0x1000#64 0x00436283#32 [(6#5, 0x8000#64)] [(0x8004, 0x00#8), (0x8005, 0x00#8), (0x8006, 0x00#8), (0x8007, 0x80#8)]) 5#5 = some 0x80000000#64 := by decide

theorem test_lh :
    regAfter (at_ 0x1000#64 0x00231283#32 [(6#5, 0x8000#64)] [(0x8002, 0xFE#8), (0x8003, 0xFF#8)]) 5#5 = some 0xFFFFFFFFFFFFFFFE#64 := by decide

theorem test_lhu :
    regAfter (at_ 0x1000#64 0x00235283#32 [(6#5, 0x8000#64)] [(0x8002, 0xFE#8), (0x8003, 0xFF#8)]) 5#5 = some 0xFFFE#64 := by decide

theorem test_lb :
    regAfter (at_ 0x1000#64 0xFFF30283#32 [(6#5, 0x8001#64)] [(0x8000, 0x80#8)]) 5#5 = some 0xFFFFFFFFFFFFFF80#64 := by decide

theorem test_lbu :
    regAfter (at_ 0x1000#64 0xFFF34283#32 [(6#5, 0x8001#64)] [(0x8000, 0x80#8)]) 5#5 = some 0x80#64 := by decide

theorem test_sd :
    bytesAfter (at_ 0x1000#64 0xFE513C23#32 [(2#5, 0x8010#64), (5#5, 0x123456789ABCDEF#64)] []) 0x8008 8 =
      some [0xEF#8, 0xCD#8, 0xAB#8, 0x89#8, 0x67#8, 0x45#8, 0x23#8, 0x01#8] := by decide

theorem test_sw :
    bytesAfter (at_ 0x1000#64 0x00532223#32 [(6#5, 0x8000#64), (5#5, 0xAAAAAAAA11223344#64)] [(0x8008, 0x77#8)]) 0x8004 5 =
      some [0x44#8, 0x33#8, 0x22#8, 0x11#8, 0x77#8] := by decide

theorem test_sh :
    bytesAfter (at_ 0x1000#64 0x00531123#32 [(6#5, 0x8000#64), (5#5, 0x123456789ABCDEF0#64)] [(0x8004, 0x77#8)]) 0x8002 3 =
      some [0xF0#8, 0xDE#8, 0x77#8] := by decide

theorem test_sb :
    bytesAfter (at_ 0x1000#64 0xFE530FA3#32 [(6#5, 0x8001#64), (5#5, 0x1FF#64)] [(0x8001, 0x77#8)]) 0x8000 2 =
      some [0xFF#8, 0x77#8] := by decide

theorem test_lui :
    regAfter (at_ 0x1000#64 0x123452B7#32 [] []) 5#5 = some 0x12345000#64 := by decide

theorem test_lui_negative :
    regAfter (at_ 0x1000#64 0x800002B7#32 [] []) 5#5 = some 0xFFFFFFFF80000000#64 := by decide

theorem test_auipc :
    regAfter (at_ 0x1000#64 0x00001297#32 [] []) 5#5 = some 0x2000#64 := by decide

theorem test_auipc_back :
    regAfter (at_ 0x1000#64 0xFFFFF297#32 [] []) 5#5 = some 0x0#64 := by decide

theorem test_addiw :
    regAfter (at_ 0x1000#64 0x0013029B#32 [(6#5, 0x7FFFFFFF#64)] []) 5#5 = some 0xFFFFFFFF80000000#64 := by decide

theorem test_slliw :
    regAfter (at_ 0x1000#64 0x01F3129B#32 [(6#5, 0x1#64)] []) 5#5 = some 0xFFFFFFFF80000000#64 := by decide

theorem test_srliw :
    regAfter (at_ 0x1000#64 0x0013529B#32 [(6#5, 0xFFFFFFFF80000000#64)] []) 5#5 = some 0x40000000#64 := by decide

theorem test_sraiw :
    regAfter (at_ 0x1000#64 0x4013529B#32 [(6#5, 0x80000000#64)] []) 5#5 = some 0xFFFFFFFFC0000000#64 := by decide

theorem test_addw :
    regAfter (at_ 0x1000#64 0x007302BB#32 [(6#5, 0xFFFFFFFF#64), (7#5, 0x1#64)] []) 5#5 = some 0x0#64 := by decide

theorem test_subw :
    regAfter (at_ 0x1000#64 0x407302BB#32 [(6#5, 0x80000000#64), (7#5, 0x1#64)] []) 5#5 = some 0x7FFFFFFF#64 := by decide

theorem test_sllw :
    regAfter (at_ 0x1000#64 0x007312BB#32 [(6#5, 0x3#64), (7#5, 0x1F#64)] []) 5#5 = some 0xFFFFFFFF80000000#64 := by decide

theorem test_srlw :
    regAfter (at_ 0x1000#64 0x007352BB#32 [(6#5, 0xFFFFFFFFFFFFFFFF#64), (7#5, 0x4#64)] []) 5#5 = some 0xFFFFFFF#64 := by decide

theorem test_sraw :
    regAfter (at_ 0x1000#64 0x407352BB#32 [(6#5, 0x80000000#64), (7#5, 0x4#64)] []) 5#5 = some 0xFFFFFFFFF8000000#64 := by decide

theorem test_mul :
    regAfter (at_ 0x1000#64 0x027302B3#32 [(6#5, 0x7#64), (7#5, 0xFFFFFFFFFFFFFFFD#64)] []) 5#5 = some 0xFFFFFFFFFFFFFFEB#64 := by decide

theorem test_mul_extremes :
    regAfter (at_ 0x1000#64 0x027302B3#32 [(6#5, 0x8000000000000000#64), (7#5, 0xFFFFFFFFFFFFFFFF#64)] []) 5#5 = some 0x8000000000000000#64 := by decide

theorem test_div :
    regAfter (at_ 0x1000#64 0x027342B3#32 [(6#5, 0xFFFFFFFFFFFFFFF9#64), (7#5, 0x2#64)] []) 5#5 = some 0xFFFFFFFFFFFFFFFD#64 := by decide

theorem test_div_overflow :
    regAfter (at_ 0x1000#64 0x027342B3#32 [(6#5, 0x8000000000000000#64), (7#5, 0xFFFFFFFFFFFFFFFF#64)] []) 5#5 = some 0x8000000000000000#64 := by decide

theorem test_rem :
    regAfter (at_ 0x1000#64 0x027362B3#32 [(6#5, 0xFFFFFFFFFFFFFFF9#64), (7#5, 0x2#64)] []) 5#5 = some 0xFFFFFFFFFFFFFFFF#64 := by decide

theorem test_rem_by_zero :
    regAfter (at_ 0x1000#64 0x027362B3#32 [(6#5, 0xFFFFFFFFFFFFFFF9#64), (7#5, 0x0#64)] []) 5#5 = some 0xFFFFFFFFFFFFFFF9#64 := by decide

/-! Steps that stop (R253), and the faults of loads, stores and jumps. -/

/-- At END_PC the state stands still (R276, log entry 2). -/
theorem test_end : pcAfter (bare 0x5000#64 [] []) = some 0x5000#64 := by decide

theorem test_misaligned_pc : faultOf (step (bare 0x1002#64 [] [])) = some (.instructionAddressMisaligned 0x1002#64) := by decide

/-- The last word of the text is not executable as a whole when it starts at its last half (R245). -/
theorem test_fetch_past_text : faultOf (step (bare 0x4000#64 [] [])) = some (.instructionAccessFault 0x4000#64) := by decide

theorem test_illegal : faultOf (step (at_ 0x1000#64 0xFFFFFFFF#32 [] [])) =
    some (.illegalInstruction 0x1000#64 0xFFFFFFFF#32) := by decide

theorem test_refused : refusalOf (step (at_ 0x1000#64 0x00000073#32 [] [])) =
    some (.unspecifiedInstruction 0x1000#64 0x00000073#32) := by decide

theorem test_load_misaligned :
    faultOf (step (at_ 0x1000#64 0x00432283#32 [(6#5, 0x8001#64)] [])) = some (.loadAddressMisaligned 0x8005#64) := by decide

theorem test_load_access :
    faultOf (step (at_ 0x1000#64 0x00432283#32 [(6#5, 0x8FFC#64)] [])) = some (.loadAccessFault 0x9000#64) := by decide

theorem test_store_misaligned :
    faultOf (step (at_ 0x1000#64 0x00532223#32 [(6#5, 0x8002#64)] [])) = some (.storeAddressMisaligned 0x8006#64) := by decide

theorem test_store_to_text :
    faultOf (step (at_ 0x1000#64 0x00532223#32 [(6#5, 0x1FFC#64)] [])) = some (.storeAccessFault 0x2000#64) := by decide

theorem test_jal_misaligned :
    faultOf (step (at_ 0x1000#64 0x002000EF#32 [] [])) = some (.instructionAddressMisaligned 0x1002#64) := by decide

theorem test_jalr_odd_register :
    faultOf (step (at_ 0x1000#64 0x000300E7#32 [(6#5, 0x3001#64)] [])) = some (.instructionAddressMisaligned 0x3001#64) := by decide

/-- A load into `x0` makes the access and can fault (R185, D18). -/
theorem test_load_x0_faults : faultOf (step (at_ 0x1000#64 0x00032003#32 [(6#5, 0x9000#64)] [])) =
    some (.loadAccessFault 0x9000#64) := by decide

/-- With MISALIGNED_DATA = supported the same load is made byte by byte (R43). -/
theorem test_misaligned_supported :
    (nextOf (exec (.lh 5#5 6#5 0#12)
      { bare 0x1000#64 [(6#5, 0x8001#64)] [(0x8001, 0x34#8), (0x8002, 0x12#8)] with
        params := { params with misalignedData := .supported } })).map (readReg · 5#5) = some 0x1234#64 := by decide

/-- The instruction placed at reset is the one the first step runs. -/
theorem test_first_step :
    regAfter (State.reset.withFetchWord 32 0x00500293) 5#5 = some 5#64 ∧
    pcAfter (State.reset.withFetchWord 32 0x00500293) = some 0x400004#64 := by decide

/-- The pair of `li x5, 0x7FFFF800` leaves 2^32 too little (R204). -/
theorem test_li_exception :
    (nextOf (exec (.lui 5#5 0x80000#20) (bare 0x1000#64 [] []))).bind
      (fun s => (nextOf (exec (.addi 5#5 5#5 0x800#12) s)).map (readReg · 5#5)) = some 0xFFFFFFFF7FFFF800#64 ∧
    Pseudo.expand 0x1000#64 (.li 5#5 0x7FFFF800#32) = [.lui 5#5 0x80000#20, .addi 5#5 5#5 0x800#12] := by decide

/-- `la x5, dato` of R205. -/
theorem test_la_expands :
    Pseudo.expand 0x400000#64 (.la 5#5 0x10010008#32) = [.auipc 5#5 0x0FC10#20, .addi 5#5 5#5 0x008#12] := by decide

/-- `.byte`, `.half`, then an aligned `.word`: bytes 0 to 2, a gap, 4 to 7 (R109, R112). -/
theorem test_directives :
    (((((Assembly.start 0 0x8000).directive (.data none)).directive (.byte [1#8])).directive (.half [0x0203#16])).directive
      (.align 2)).directive (.word [0x04050607#32]) =
    { Assembly.start 0 0x8008 with
      segment := .data
      image := [(0x8000, 1#8), (0x8001, 3#8), (0x8002, 2#8), (0x8004, 7#8), (0x8005, 6#8), (0x8006, 5#8), (0x8007, 4#8)] } := by
  decide

/-- Register names (R22): both forms, and `fp` for `x8`. -/
theorem test_reg_names :
    regNamed "x17" = some 17#5 ∧ regNamed "a7" = some 17#5 ∧ regNamed "fp" = some 8#5 ∧ regNamed "x32" = none ∧
    saveGroup 1#5 = .calleeSaved ∧ saveGroup 17#5 = .callerSaved ∧ saveGroup 2#5 = .neither := by decide

/-! Witnesses: for every statement with hypotheses, a concrete state and operands that meet them all, for each clause at the
edge of its range. The name says whose they are. -/

/-- A state that fetches `addi x5, x0, 5` at 0x1000. -/
def running : State := at_ 0x1000#64 0x00500293#32 [] []

/-- A state that fetches any word at 0x1000. -/
def fetching (w : InstrWord) : State := at_ 0x1000#64 w [] []

theorem running_fetches : Fetches running 0x00500293#32 := ⟨by decide, by decide, by decide, by decide⟩

theorem witness_DecodeOfEncode :
    (Instr.bgeu 31#5 1#5 0x1FFE#13).wf = true ∧
    (Instr.mul 1#5 2#5 3#5).wf = true ∧ ((Instr.mul 1#5 2#5 3#5).needsM = true → true = true) := by decide

theorem witness_EncodeOfDecode :
    decode false 0xFE629EE3#32 = .instr (.bne 5#5 6#5 0x1FFC#13) ∧ decode true 0x027362B3#32 = .instr (.rem 5#5 6#5 7#5) := by
  decide

theorem witness_RowsAreDisjoint :
    ∃ r ∈ opcodeRows, 0x027302B3#32 &&& r.mask = r.pattern ∧ r ∈ presentRows true ∧ ¬ RefusedOpcode 0x027302B3#32 :=
  ⟨_, List.mem_of_getElem? (i := 49) rfl, by decide, List.mem_of_getElem? (i := 49) rfl, by decide⟩

theorem witness_UnlistedWordIsIllegal :
    Fetches (fetching 0x0203129B#32) 0x0203129B#32 ∧
    ¬ RefusedOpcode 0x0203129B#32 ∧
    (∀ r ∈ presentRows (fetching 0x0203129B#32).params.extM, 0x0203129B#32 &&& r.mask ≠ r.pattern) :=
  ⟨⟨by decide, by decide, by decide, by decide⟩, by decide, by
    have h : ((presentRows true).all fun r => !(0x0203129B#32 &&& r.mask == r.pattern)) = true := by decide
    intro r hr
    simpa using List.all_eq_true.mp h r hr⟩

theorem witness_UnlistedWordIsIllegal_in_particular :
    Fetches (fetching 0x00000000#32) 0x00000000#32 ∧ Fetches (fetching 0xFFFFFFFF#32) 0xFFFFFFFF#32 ∧
    Fetches (fetching 0x00730032#32) 0x00730032#32 ∧ (0x00730032#32 : InstrWord).extractLsb 1 0 ≠ 0b11#2 :=
  ⟨⟨by decide, by decide, by decide, by decide⟩, ⟨by decide, by decide, by decide, by decide⟩,
    ⟨by decide, by decide, by decide, by decide⟩, by decide⟩

/-- `slliw` and `sraiw` with inst[25] = 1, `slli` with inst[26] = 1, `srai` with inst[31] = 1. -/
theorem witness_ReservedShiftWordsAreIllegal :
    ((0x0203129B#32 : InstrWord).extractLsb 6 0 = 0b0011011#7 ∧ (0x0203129B#32 : InstrWord).extractLsb 14 12 = 0b001#3 ∧
      (0x0203129B#32 : InstrWord).getLsbD 25 = true) ∧
    ((0x4203529B#32 : InstrWord).extractLsb 14 12 = 0b101#3 ∧ (0x4203529B#32 : InstrWord).getLsbD 25 = true) ∧
    ((0x04031293#32 : InstrWord).extractLsb 6 0 = 0b0010011#7 ∧ (0x04031293#32 : InstrWord).extractLsb 14 12 = 0b001#3 ∧
      (0x04031293#32 : InstrWord).extractLsb 31 26 ≠ 0b000000#6) ∧
    ((0xC0035293#32 : InstrWord).extractLsb 6 0 = 0b0010011#7 ∧ (0xC0035293#32 : InstrWord).extractLsb 14 12 = 0b101#3 ∧
      (0xC0035293#32 : InstrWord).extractLsb 31 26 ≠ 0b000000#6 ∧
      (0xC0035293#32 : InstrWord).extractLsb 31 26 ≠ 0b010000#6) := by decide

/-- One word for each of the eight clauses, whatever EXT_M is; `mul` meets the hypothesis of the sixth when EXT_M is false. -/
theorem witness_UnlistedCodesAreIllegal :
    ((0x00000057#32 : InstrWord).extractLsb 6 0 ∉ listedOpcodes ∧ ¬ RefusedOpcode 0x00000057#32) ∧
    ((0x00007003#32 : InstrWord).extractLsb 6 0 = 0b0000011#7 ∧ (0x00007003#32 : InstrWord).extractLsb 14 12 = 0b111#3) ∧
    ((0x00004023#32 : InstrWord).extractLsb 6 0 = 0b0100011#7 ∧ (0x00004023#32 : InstrWord).getLsbD 14 = true) ∧
    ((0x00003063#32 : InstrWord).extractLsb 6 0 = 0b1100011#7 ∧ (0x00003063#32 : InstrWord).extractLsb 14 13 = 0b01#2) ∧
    ((0x00001067#32 : InstrWord).extractLsb 6 0 = 0b1100111#7 ∧ (0x00001067#32 : InstrWord).extractLsb 14 12 ≠ 0b000#3) ∧
    ((0x02001033#32 : InstrWord).extractLsb 6 0 = 0b0110011#7 ∧ (0x02001033#32 : InstrWord).extractLsb 31 25 = 0b0000001#7 ∧
      (0x02001033#32 : InstrWord).extractLsb 14 12 = 0b001#3) ∧
    ((0x027302B3#32 : InstrWord).extractLsb 6 0 = 0b0110011#7 ∧ (0x027302B3#32 : InstrWord).extractLsb 31 25 = 0b0000001#7) ∧
    ((0x0000201B#32 : InstrWord).extractLsb 6 0 = 0b0011011#7 ∧ (0x0000201B#32 : InstrWord).extractLsb 14 12 = 0b010#3) ∧
    ((0x4000103B#32 : InstrWord).extractLsb 6 0 = 0b0111011#7 ∧ (0x4000103B#32 : InstrWord).extractLsb 31 25 = 0b0100000#7 ∧
      (0x4000103B#32 : InstrWord).extractLsb 14 12 = 0b001#3) := by decide

theorem witness_RefusedOpcodesAreRefused :
    Fetches (fetching 0x00000073#32) 0x00000073#32 ∧ RefusedOpcode 0x00000073#32 ∧
    Fetches (fetching 0x0000000F#32) 0x0000000F#32 ∧ RefusedOpcode 0x0000000F#32 :=
  ⟨⟨by decide, by decide, by decide, by decide⟩, by decide, ⟨by decide, by decide, by decide, by decide⟩, by decide⟩

theorem witness_StepRunsDecoded :
    Fetches running 0x00500293#32 ∧ decode running.params.extM 0x00500293#32 = .instr (.addi 5#5 0#5 5#12) :=
  ⟨running_fetches, by decide⟩

/-- END_PC; a `pc` that is 2 modulo 4; the first address past the text, and the last word before the data region's end. -/
theorem witness_StepChecksInOrder :
    Ended (bare 0x5000#64 [] []) ∧
    (¬ Ended (bare 0x1002#64 [] []) ∧ (bare 0x1002#64 [] []).pc.toNat % 4 ≠ 0) ∧
    (¬ Ended (bare 0x4000#64 [] []) ∧ (bare 0x4000#64 [] []).pc.toNat % 4 = 0 ∧
      ¬ AllPermitted (executableAt (bare 0x4000#64 [] []).params) (bare 0x4000#64 [] []).pc 4) ∧
    decode (fetching 0x00000073#32).params.extM 0x00000073#32 = .unspecified ∧
    decode (fetching 0x00000000#32).params.extM 0x00000000#32 = .illegal := by decide

theorem witness_PlacedInstructionRuns :
    (Instr.rem 1#5 2#5 3#5).wf = true ∧ ((Instr.rem 1#5 2#5 3#5).needsM = true → State.reset.params.extM = true) := by decide

/-- A jump to END_PC ends the run after one step; a state at END_PC has ended after none. -/
theorem witness_OneFinalState :
    (∃ t, EndsIn (at_ 0x1000#64 0x00030067#32 [(6#5, 0x5000#64)] []) t) ∧ EndsIn (bare 0x5000#64 [] []) (bare 0x5000#64 [] []) := by
  refine ⟨?_, 0, rfl, by decide⟩
  have h : pcAfter (at_ 0x1000#64 0x00030067#32 [(6#5, 0x5000#64)] []) = some 0x5000#64 := by decide
  have hp : ((nextOf (step (at_ 0x1000#64 0x00030067#32 [(6#5, 0x5000#64)] []))).map (·.params.endPc)) = some 0x5000#64 := by
    decide
  obtain ⟨t, ht⟩ := next_of (o := step (at_ 0x1000#64 0x00030067#32 [(6#5, 0x5000#64)] [])) (by decide)
  rw [pcAfter, ht] at h
  rw [ht] at hp
  simp only [nextOf, Option.map_some, Option.some.injEq] at h hp
  exact ⟨t, 1, by simp [RunsTo, run, ht], by rw [Ended, h, hp]⟩

/-- Each condition under which a step stops: a `pc` that is 2 modulo 4, one past the text, the words of R104, a word of no row, a
load at a misaligned address. -/
theorem witness_StoppedRunsNeverEnd :
    StepStops (bare 0x1002#64 [] []) ∧ StepStops (bare 0x4000#64 [] []) ∧ StepStops (fetching 0x00000073#32) ∧
    StepStops (fetching 0x0203129B#32) ∧ StepStops (fetching 0x00102283#32) := by
  have unlisted := witness_UnlistedWordIsIllegal
  refine ⟨⟨by decide, .inl (by decide)⟩, ⟨by decide, .inr (.inl (by decide))⟩,
    ⟨by decide, .inr (.inr ⟨_, ⟨by decide, by decide, by decide, rfl⟩, .inl (by decide)⟩)⟩,
    ⟨by decide, .inr (.inr ⟨_, unlisted.1, .inr (.inl unlisted.2.2)⟩)⟩,
    ⟨by decide, .inr (.inr ⟨0x00102283#32, ⟨by decide, by decide, by decide, by decide⟩, .inr (.inr
      ⟨.lw 5#5 0#5 1#12, .loadAddressMisaligned 1#64, by decide, 4, by decide, by decide⟩)⟩)⟩⟩

/-- A step that does not stop: at END_PC, and at an instruction that raises nothing. -/
theorem witness_StoppedRunsNeverEnd_completes : ¬ StepStops (bare 0x5000#64 [] []) ∧ ¬ StepStops running := by
  have ended : Ended (bare 0x5000#64 [] []) := by decide
  have decoded : decode running.params.extM 0x00500293#32 = .instr (.addi 5#5 0#5 5#12) := by decide
  refine ⟨fun h => h.1 ended, ?_⟩
  rintro ⟨-, h | h | ⟨w, hw, h⟩⟩
  · exact h running_fetches.2.1
  · exact h running_fetches.2.2.1
  · obtain rfl : 0x00500293#32 = w := running_fetches.2.2.2.symm.trans hw.2.2.2
    rcases h with h | h | ⟨i, f, hi, hf⟩
    · revert h; decide
    · exact h _ (List.mem_of_getElem? (i := 10) rfl) (by decide)
    · rw [decoded] at hi
      cases hi
      cases f <;> simp [Raisable, loadTarget, storeTarget, transferTarget] at hf

theorem witness_JumpToSelfNeverEnds : Fetches (fetching 0x0000006F#32) 0x0000006F#32 :=
  ⟨by decide, by decide, by decide, by decide⟩

theorem witness_LaunchState :
    (0xFFFFFFFFFFFFFFFF : Nat) < 2 ^ 64 ∧ params.wf = true ∧ (0x1000#64 : Word).toNat % 4 = 0 := by decide

theorem witness_StepKeepsLegal : Legal running ∧ ∃ t, step running = .next t :=
  ⟨⟨by decide, by decide, by decide⟩, next_of (by decide)⟩

theorem witness_PcAlignedAfterStep : ¬ Ended running ∧ ∃ t, step running = .next t := ⟨by decide, next_of (by decide)⟩

/-- A store runs, and the last byte of the text is executable. -/
theorem witness_TextNeverChanges :
    (at_ 0x1000#64 0x00532223#32 [(6#5, 0x8000#64)] []).params.textWritable = false ∧
    (∃ t, RunsTo 1 (at_ 0x1000#64 0x00532223#32 [(6#5, 0x8000#64)] []) t) ∧
    executableAt (at_ 0x1000#64 0x00532223#32 [(6#5, 0x8000#64)] []).params 0x3FFF = true := by
  refine ⟨by decide, ?_, by decide⟩
  obtain ⟨t, ht⟩ := next_of (o := step (at_ 0x1000#64 0x00532223#32 [(6#5, 0x8000#64)] [])) (by decide)
  exact ⟨t, by simp [RunsTo, run, ht]⟩

theorem witness_ParametersNeverChange : ∃ t, RunsTo 1 running t := by
  obtain ⟨t, ht⟩ := next_of (o := step running) (by decide)
  exact ⟨t, by simp [RunsTo, run, ht]⟩

/-- One step that stores four bytes at 0x8004: the bytes 0x8003 and 0x8008 beside them are stored to by no instruction. -/
theorem witness_BytesKeepTheirLastStore (b : Nat) (hb : b = 0x8003 ∨ b = 0x8008) :
    (∃ t, RunsTo 1 (at_ 0x1000#64 0x00532223#32 [(6#5, 0x8000#64)] []) t) ∧
    ∀ j u i, j < 1 → RunsTo j (at_ 0x1000#64 0x00532223#32 [(6#5, 0x8000#64)] []) u → Executes u i → NotStoredBy u i b := by
  constructor
  · obtain ⟨t, ht⟩ := next_of (o := step (at_ 0x1000#64 0x00532223#32 [(6#5, 0x8000#64)] [])) (by decide)
    exact ⟨t, by simp [RunsTo, run, ht]⟩
  · intro j u i hj hu hx a n ha
    obtain rfl : j = 0 := by omega
    obtain rfl : at_ 0x1000#64 0x00532223#32 [(6#5, 0x8000#64)] [] = u := by simpa [RunsTo, run] using hu
    obtain ⟨w, ⟨-, -, -, hw⟩, hd⟩ := hx
    have h1 : memWord (at_ 0x1000#64 0x00532223#32 [(6#5, 0x8000#64)] [])
        (at_ 0x1000#64 0x00532223#32 [(6#5, 0x8000#64)] []).pc.toNat = 0x00532223#32 := by decide
    rw [h1] at hw
    subst hw
    have h2 : decode (at_ 0x1000#64 0x00532223#32 [(6#5, 0x8000#64)] []).params.extM 0x00532223#32 =
      .instr (.sw 5#5 6#5 4#12) := by decide
    rw [h2] at hd
    cases hd
    have h3 : storeTarget (at_ 0x1000#64 0x00532223#32 [(6#5, 0x8000#64)] []) (.sw 5#5 6#5 4#12) = some (0x8004#64, 4) := by
      decide
    rw [h3] at ha
    cases ha
    have h4 : (0x8004#64 : Word).toNat = 0x8004 := rfl
    omega

/-- The bytes just below and just above a stored half word, and any byte for an instruction that stores nothing. -/
theorem witness_OnlyStoresChangeMemory :
    (∃ t, exec (.sh 5#5 6#5 2#12) (bare 0x1000#64 [(6#5, 0x8000#64)] []) = .next t) ∧
    NotStoredBy (bare 0x1000#64 [(6#5, 0x8000#64)] []) (.sh 5#5 6#5 2#12) 0x8001 ∧
    NotStoredBy (bare 0x1000#64 [(6#5, 0x8000#64)] []) (.sh 5#5 6#5 2#12) 0x8004 ∧
    (∃ t, exec (.add 5#5 6#5 7#5) running = .next t) ∧ NotStoredBy running (.add 5#5 6#5 7#5) 0x8000 := by
  have h : storeTarget (bare 0x1000#64 [(6#5, 0x8000#64)] []) (.sh 5#5 6#5 2#12) = some (0x8002#64, 2) := by decide
  refine ⟨next_of (by decide), ?_, ?_, next_of (by decide), ?_⟩ <;> intro a n ha
  · rw [h] at ha; cases ha; decide
  · rw [h] at ha; cases ha; decide
  · cases ha

/-- A load, with a memory that agrees on the two bytes it loads and differs above them. -/
theorem witness_OnlyLoadsReadMemory :
    (∃ t, exec (.lh 5#5 6#5 0#12) (bare 0x1000#64 [(6#5, 0x8000#64)] [(0x8000, 1#8), (0x8001, 2#8), (0x8002, 3#8)]) = .next t) ∧
    loadTarget (bare 0x1000#64 [(6#5, 0x8000#64)] [(0x8000, 1#8), (0x8001, 2#8), (0x8002, 3#8)]) (.lh 5#5 6#5 0#12) =
      some (0x8000#64, 2) ∧
    ∀ k, k < 2 → Memory.byteAt [(0x8000, 1#8), (0x8001, 2#8), (0x8002, 9#8)] ((0x8000#64 : Word).toNat + k) =
      Memory.byteAt (bare 0x1000#64 [(6#5, 0x8000#64)] [(0x8000, 1#8), (0x8001, 2#8), (0x8002, 3#8)]).mem
        ((0x8000#64 : Word).toNat + k) := ⟨next_of (by decide), by decide, by decide⟩

theorem witness_OnlyTheDestinationChanges :
    (∃ t, exec (.jal 1#5 8#21) running = .next t) ∧ destination (.jal 1#5 8#21) ≠ some 2#5 ∧
    (∃ t, exec (.beq 1#5 2#5 8#13) running = .next t) ∧ destination (.beq 1#5 2#5 8#13) ≠ some 1#5 :=
  ⟨next_of (by decide), by decide, next_of (by decide), by decide⟩

theorem witness_NextInstruction :
    (∃ t, exec (.add 5#5 6#5 7#5) running = .next t) ∧ transferTarget running (.add 5#5 6#5 7#5) = none ∧
    (∃ t, exec (.jalr 1#5 6#5 8#12) running = .next t) ∧ isJump (.jalr 1#5 6#5 8#12) = true ∧
    ∃ t, exec (.bne 6#5 7#5 8#13) running = .next t :=
  ⟨next_of (by decide), by decide, next_of (by decide), by decide, next_of (by decide)⟩

/-- The condition of each of the five faults of an instruction holds, in a branch for the first; an instruction of the last clause
exists. -/
theorem witness_FaultsAsListed :
    Raisable running (.beq 6#5 7#5 2#13) (.instructionAddressMisaligned 0x1002#64) ∧
    Raisable running (.lw 5#5 0#5 1#12) (.loadAddressMisaligned 1#64) ∧
    Raisable running (.ld 5#5 0#5 0xFF8#12) (.loadAccessFault 0xFFFFFFFFFFFFFFF8#64) ∧
    Raisable running (.sw 5#5 0#5 2#12) (.storeAddressMisaligned 2#64) ∧
    Raisable running (.sb 5#5 0#5 0#12) (.storeAccessFault 0#64) ∧
    loadTarget running (.lui 5#5 0#20) = none ∧ storeTarget running (.lui 5#5 0#20) = none ∧
    transferTarget running (.lui 5#5 0#20) = none :=
  ⟨⟨rfl, rfl, by decide⟩, ⟨4, rfl, by decide⟩, ⟨8, rfl, by decide, by decide⟩, ⟨4, rfl, by decide⟩,
    ⟨1, rfl, by decide, by decide⟩, rfl, rfl, rfl⟩

/-- R252 (e): a branch not taken, whose target is no multiple of 4, raises nothing; taken, and by a jump, it raises the fault. -/
theorem test_misaligned_branch_target :
    (∃ t, exec (.bne 6#5 7#5 2#13) running = .next t) ∧
    exec (.beq 6#5 7#5 2#13) running = .fault (.instructionAddressMisaligned 0x1002#64) ∧
    exec (.jal 1#5 2#21) running = .fault (.instructionAddressMisaligned 0x1002#64) :=
  ⟨next_of (by decide), fault_of (by decide), fault_of (by decide)⟩

/-- Alignment and permission of the data region's last double word, one past it, a misaligned address, and the top of memory
with misalignment supported. -/
theorem witness_MemReadRule :
    ¬ AlignmentOk running.params 0x8001#64 2 ∧
    (AlignmentOk running.params 0x9000#64 8 ∧ ¬ AllPermitted (readableAt running.params) 0x9000#64 8) ∧
    (AlignmentOk running.params 0x8FF8#64 8 ∧ AllPermitted (readableAt running.params) 0x8FF8#64 8) ∧
    (AlignmentOk { params with misalignedData := .supported } 0xFFFFFFFFFFFFFFFF#64 2 ∧
      ¬ AllPermitted (readableAt { params with misalignedData := .supported }) 0xFFFFFFFFFFFFFFFF#64 2) ∧
    (0xFFFFFFFFFFFFFFF8#64 : Word).toNat % 8 = 0 := by decide

/-- A misaligned store; one past the region; one into text; the last byte of the region. -/
theorem witness_MemWriteRule :
    ¬ AlignmentOk running.params 0x8006#64 4 ∧
    (AlignmentOk running.params 0x9000#64 1 ∧ writableAt running.params (0x9000#64 : Word).toNat = false) ∧
    (running.params.textWritable = false ∧ executableAt running.params (0x3FFF#64 : Word).toNat = true) ∧
    (∀ k, k < 1 → (0x8FFF#64 : Word).toNat + k < 2 ^ 64 ∧ writableAt running.params ((0x8FFF#64 : Word).toNat + k) = true ∧
      (running.params.textWritable = false → executableAt running.params ((0x8FFF#64 : Word).toNat + k) = false)) := by decide

/-- The last word of the text, and the one past it. -/
theorem witness_FetchWordRule :
    (0x3FFC#64 : Word).toNat % 4 = 0 ∧ AllPermitted (executableAt running.params) 0x3FFC#64 4 ∧
    (0x4000#64 : Word).toNat % 4 = 0 ∧ ¬ AllPermitted (executableAt running.params) 0x4000#64 4 ∧
    (bare 0x4000#64 [] []).pc = 0x4000#64 ∧ ¬ Ended (bare 0x4000#64 [] []) := by decide

theorem witness_MixedWidthAccess :
    (∃ t, memWrite running 0x8FF8#64 8 0x0123456789ABCDEF#64 = .ok t) ∧ AllPermitted (readableAt running.params) 0x8FF8#64 8 :=
  ⟨⟨_, rfl⟩, by decide⟩

theorem witness_StoreThenLoad :
    (∃ t, exec (.sd 5#5 6#5 0#12) (bare 0x1000#64 [(6#5, 0x8000#64)] []) = .next t) ∧
    (∃ t, exec (.sw 5#5 6#5 4#12) (bare 0x1000#64 [(6#5, 0x8000#64)] []) = .next t) ∧
    (∃ t, exec (.sh 5#5 6#5 6#12) (bare 0x1000#64 [(6#5, 0x8000#64)] []) = .next t) ∧
    (∃ t, exec (.sb 5#5 6#5 7#12) (bare 0x1000#64 [(6#5, 0x8000#64)] []) = .next t) ∧
    AllPermitted (readableAt params) 0x8000#64 8 ∧
    effectiveAddress (bare 0x1000#64 [(6#5, 0x8000#64)] []) 6#5 0#12 = 0x8000#64 :=
  ⟨next_of (by decide), next_of (by decide), next_of (by decide), next_of (by decide), by decide, by decide⟩

/-- The encoding clauses: a word with the codes of each format's first instruction, every operand bit set. -/
theorem witness_encodings :
    0x01FF8FB3#32 &&& 0xFE00707F#32 = 0x00000033#32 ∧ 0xFFFF8F93#32 &&& 0x0000707F#32 = 0x00000013#32 ∧
    0x03FF9F93#32 &&& 0xFC00707F#32 = 0x00001013#32 ∧ 0x01FF9F9B#32 &&& 0xFE00707F#32 = 0x0000101B#32 ∧
    0xFFFFBFA3#32 &&& 0x0000707F#32 = 0x00003023#32 ∧ 0xFFFF8FE3#32 &&& 0x0000707F#32 = 0x00000063#32 ∧
    0xFFFFFFB7#32 &&& 0x0000007F#32 = 0x00000037#32 ∧ 0xFFFFFFEF#32 &&& 0x0000007F#32 = 0x0000006F#32 ∧
    0x03FF8FB3#32 &&& 0xFE00707F#32 = 0x02000033#32 := by decide

/-- `jal`: the farthest targets each way are multiples of 4 or not. -/
theorem witness_JumpAndLink :
    ((0x1000#64 : Word) + BitVec.ofInt 64 (0x100000#21 : BitVec 21).toInt).toNat % 4 = 0 ∧
    ((0x1000#64 : Word) + BitVec.ofInt 64 (0x0FFFFE#21 : BitVec 21).toInt).toNat % 4 ≠ 0 := by decide

theorem witness_JumpAndLinkRegister :
    (readReg (bare 0#64 [(6#5, 0x3000#64)] []) 6#5 + BitVec.ofInt 64 (2 * ((0x801#12 : BitVec 12).toInt / 2))).toNat % 4 = 0 ∧
    (readReg (bare 0#64 [(6#5, 0x3001#64)] []) 6#5 + BitVec.ofInt 64 (2 * ((0x7FF#12 : BitVec 12).toInt / 2))).toNat % 4 ≠ 0 := by
  decide

/-- A state with x6 = 2^63 and the other registers 0: x7 and x8 are equal, x6 and x7 are not, x6 is less than x7 signed and greater
unsigned; a target that is and one that is not a multiple of 4. -/
def branching : State := bare 0x1000#64 [(6#5, 0x8000000000000000#64)] []

theorem witness_branches :
    (readReg branching 7#5).toNat = (readReg branching 8#5).toNat ∧
    (readReg branching 6#5).toNat ≠ (readReg branching 7#5).toNat ∧
    ¬ ((readReg branching 7#5).toNat ≠ (readReg branching 8#5).toNat) ∧
    (readReg branching 6#5).toInt < (readReg branching 7#5).toInt ∧
    (readReg branching 7#5).toInt ≥ (readReg branching 8#5).toInt ∧
    (readReg branching 7#5).toNat < (readReg branching 6#5).toNat ∧
    (readReg branching 6#5).toNat ≥ (readReg branching 7#5).toNat ∧
    (branching.pc + BitVec.ofInt 64 (0x1000#13 : BitVec 13).toInt).toNat % 4 = 0 ∧
    (branching.pc + BitVec.ofInt 64 (0x0FFE#13 : BitVec 13).toInt).toNat % 4 ≠ 0 := by decide

/-- `ld` and `sd` at a misaligned address, past the region, and at its last double word; `lb` and `sb` at its last byte. -/
theorem witness_loads_and_stores :
    ¬ AlignmentOk params (effectiveAddress (bare 0#64 [(6#5, 0x9000#64)] []) 6#5 0xFFC#12) 8 ∧
    (AlignmentOk params (effectiveAddress (bare 0#64 [(6#5, 0x9000#64)] []) 6#5 0#12) 8 ∧
      ¬ AllPermitted (readableAt params) (effectiveAddress (bare 0#64 [(6#5, 0x9000#64)] []) 6#5 0#12) 8 ∧
      ¬ AllPermitted (storableAt params) (effectiveAddress (bare 0#64 [(6#5, 0x9000#64)] []) 6#5 0#12) 8) ∧
    (AlignmentOk params (effectiveAddress (bare 0#64 [(6#5, 0x9000#64)] []) 6#5 0xFF8#12) 8 ∧
      AllPermitted (readableAt params) (effectiveAddress (bare 0#64 [(6#5, 0x9000#64)] []) 6#5 0xFF8#12) 8 ∧
      AllPermitted (storableAt params) (effectiveAddress (bare 0#64 [(6#5, 0x9000#64)] []) 6#5 0xFF8#12) 8) ∧
    AllPermitted (readableAt params) (effectiveAddress (bare 0#64 [(6#5, 0x9000#64)] []) 6#5 0xFFF#12) 1 ∧
    AllPermitted (storableAt params) (effectiveAddress (bare 0#64 [(6#5, 0x9000#64)] []) 6#5 0xFFF#12) 1 := by decide

/-- The three cases of `div` and `rem`, and the default configuration. -/
theorem witness_Divide_Remainder :
    (readReg running 7#5).toInt = 0 ∧
    (readReg (bare 0#64 [(6#5, 0x8000000000000000#64), (7#5, 0xFFFFFFFFFFFFFFFF#64)] []) 6#5).toInt = -2 ^ 63 ∧
    (readReg (bare 0#64 [(6#5, 0x8000000000000000#64), (7#5, 0xFFFFFFFFFFFFFFFF#64)] []) 7#5).toInt = -1 ∧
    (readReg (bare 0#64 [(6#5, 0x8000000000000001#64), (7#5, 0xFFFFFFFFFFFFFFFF#64)] []) 7#5).toInt ≠ 0 ∧
    ¬ ((readReg (bare 0#64 [(6#5, 0x8000000000000001#64), (7#5, 0xFFFFFFFFFFFFFFFF#64)] []) 6#5).toInt = -2 ^ 63 ∧
      (readReg (bare 0#64 [(6#5, 0x8000000000000001#64), (7#5, 0xFFFFFFFFFFFFFFFF#64)] []) 7#5).toInt = -1) ∧
    running.params.divNumerics = DivNumerics.standard := by decide

/-- `ret` and `jr` to a multiple of 4 and to an odd address; `j` and `jal` both ways. -/
theorem witness_JumpPseudos :
    (readReg (bare 0#64 [(1#5, 0x5000#64)] []) 1#5).toNat % 4 = 0 ∧ (readReg (bare 0#64 [(1#5, 0x5001#64)] []) 1#5).toNat % 4 ≠ 0 ∧
    (running.pc + BitVec.ofInt 64 (0x1FFFFC#21 : BitVec 21).toInt).toNat % 4 = 0 ∧
    (running.pc + BitVec.ofInt 64 (2#21 : BitVec 21).toInt).toNat % 4 ≠ 0 := by decide

/-- The edges of the exception of `li` and `la` (R204, R205). -/
theorem witness_LoadImmediatePseudo :
    HiCarries 0x7FFFF800#32 ∧ HiCarries 0x7FFFFFFF#32 ∧ ¬ HiCarries 0x7FFFF7FF#32 ∧ ¬ HiCarries 0x80000000#32 := by decide

/-- The nearest and the farthest target of the last clause, from 0x1000. -/
theorem witness_LoadAddressPseudo :
    (0x10010008#32 - running.pc.extractLsb' 0 32 = 0x1000F008#32) ∧
    (-2 ^ 31 ≤ ((0xFFFFFFFF80001000#64 : Word) - running.pc).toInt ∧
      ((0xFFFFFFFF80001000#64 : Word) - running.pc).toInt ≤ 2 ^ 31 - 2049) ∧
    (-2 ^ 31 ≤ ((0x800007FF#64 : Word) - running.pc).toInt ∧ ((0x800007FF#64 : Word) - running.pc).toInt ≤ 2 ^ 31 - 2049) := by
  decide

end Sys2Proof.Tests
end

section
/-! PROOFS. The shared operation behind each instruction, the one way a step completes, the induction over runs, and O22:
the parameters of R5 are constants of a run. -/

namespace Sys2Proof.Machine

/-! What an instruction can do. -/

/-- The five shared operations an instruction can be executed by, each with what the words of the statements
(`destination`, `loadTarget`, `storeTarget`, `transferTarget`) say of such an instruction. -/
inductive ExecForm (s : State) (i : Instr) : Prop where
  | writeBack (rd : Reg) (v : Word) (hexec : exec i s = writeBack rd v s) (hdest : destination i = some rd)
      (hload : loadTarget s i = none) (hstore : storeTarget s i = none) (htarget : transferTarget s i = none)
  | load (n : Nat) (ext : Word → Word) (rd rs1 : Reg) (imm : BitVec 12)
      (hexec : exec i s = loadInto n ext rd rs1 imm s) (hdest : destination i = some rd)
      (hload : loadTarget s i = some (effectiveAddress s rs1 imm, n)) (hstore : storeTarget s i = none)
      (htarget : transferTarget s i = none)
  | store (n : Nat) (rs2 rs1 : Reg) (imm : BitVec 12)
      (hexec : exec i s = storeFrom n rs2 rs1 imm s) (hdest : destination i = none)
      (hload : loadTarget s i = none) (hstore : storeTarget s i = some (effectiveAddress s rs1 imm, n))
      (htarget : transferTarget s i = none)
  | branch (c : Bool) (imm : BitVec 13) (hexec : exec i s = branchIf c imm s) (hdest : destination i = none)
      (hload : loadTarget s i = none) (hstore : storeTarget s i = none)
      (htarget : transferTarget s i = some (branchTarget s imm))
  | jump (rd : Reg) (a : Word) (hexec : exec i s = jumpTo rd a s) (hdest : destination i = some rd)
      (hload : loadTarget s i = none) (hstore : storeTarget s i = none) (htarget : transferTarget s i = some a)

/-- Every instruction is executed by one of the shared operations. -/
theorem exec_form (i : Instr) (s : State) : ExecForm s i := by
  cases i with
  | add | sub | sll | slt | sltu | xor | srl | sra | or | and
  | addi | slti | sltiu | xori | ori | andi | slli | srli | srai
  | lui | auipc
  | addiw | slliw | srliw | sraiw | addw | subw | sllw | srlw | sraw
  | mul | div | rem => exact .writeBack _ _ rfl rfl rfl rfl rfl
  | lb | lh | lw | ld | lbu | lhu | lwu => exact .load _ _ _ _ _ rfl rfl rfl rfl rfl
  | sb | sh | sw | sd => exact .store _ _ _ _ rfl rfl rfl rfl rfl
  | beq | bne | blt | bge | bltu | bgeu => exact .branch _ _ rfl rfl rfl rfl rfl
  | jal | jalr => exact .jump _ _ rfl rfl rfl rfl rfl

/-! How a step completes. -/

/-- A step that completes is the repetition of the final state (R276, log entry 2), or past the checks of R253 it is the
fetched instruction executed. -/
theorem step_next {s t : State} (h : step s = .next t) :
    (Ended s ∧ t = s) ∨
      (¬ Ended s ∧ isWordAddress s.pc = true ∧
        ∃ w i, fetchWord s s.pc = .ok w ∧ decode s.params.extM w = .instr i ∧ exec i s = .next t) := by
  obtain ⟨hend, hs⟩ | ⟨-, -, hs⟩ | ⟨hend, hpc, hfetch⟩ := step_cases s
  · exact .inl ⟨hend, by simpa [hs, eq_comm] using h⟩
  · simp [hs] at h
  · obtain ⟨f, -, hs⟩ | ⟨w, hw, ⟨i, hi, hs⟩ | ⟨-, hs⟩ | ⟨-, hs⟩⟩ := hfetch
    · simp [hs] at h
    · exact .inr ⟨hend, hpc, w, i, hw, hi, hs ▸ h⟩
    · simp [hs] at h
    · simp [hs] at h

/-! Runs. -/

/-- A run of `k + 1` steps is a step that completes and a run of `k` steps from there. -/
theorem runsTo_succ {k : Nat} {s t : State} : RunsTo (k + 1) s t ↔ ∃ u, step s = .next u ∧ RunsTo k u t := by
  cases hs : step s <;> simp [RunsTo, run, hs]

/-- What every step that completes keeps, every run keeps. -/
theorem runsTo_keeps {P : State → Prop} (hstep : ∀ u v, step u = .next v → P u → P v) {k : Nat} {s t : State}
    (hrun : RunsTo k s t) (hs : P s) : P t := by
  induction k generalizing s with
  | zero =>
    obtain rfl : s = t := by simpa [RunsTo] using hrun
    exact hs
  | succ k ih =>
    obtain ⟨u, hu, hrun⟩ := runsTo_succ.mp hrun
    exact ih hrun (hstep s u hu hs)

/-! The parameters (R5, log entry 1). -/

theorem memWrite_keeps_params {s t : State} {a : Word} {n : Nat} {v : Word} (h : memWrite s a n v = .ok t) :
    t.params = s.params := by
  obtain ⟨-, -, rfl⟩ := memWrite_ok.mp h
  rfl

theorem exec_keeps_params {i : Instr} {s t : State} (h : exec i s = .next t) : t.params = s.params := by
  cases exec_form i s with
  | writeBack rd v hexec =>
    obtain rfl := writeBack_next.mp (hexec ▸ h)
    simp
  | load n ext rd rs1 imm hexec =>
    obtain ⟨v, -, rfl⟩ := loadInto_next.mp (hexec ▸ h)
    simp
  | store n rs2 rs1 imm hexec =>
    obtain ⟨u, hu, rfl⟩ := storeFrom_next.mp (hexec ▸ h)
    exact (advance_params u).trans (memWrite_keeps_params hu)
  | branch c imm hexec =>
    obtain ⟨-, rfl⟩ | ⟨-, -, rfl⟩ := branchIf_next.mp (hexec ▸ h)
    · simp
    · simp
  | jump rd a hexec =>
    obtain ⟨-, rfl⟩ := jumpTo_next.mp (hexec ▸ h)
    simp

theorem step_keeps_params {s t : State} (h : step s = .next t) : t.params = s.params := by
  obtain ⟨-, rfl⟩ | ⟨-, -, w, i, -, -, hi⟩ := step_next h
  · rfl
  · exact exec_keeps_params hi

/-- Settles O22: every step keeps the parameters, so every run does. -/
theorem parametersNeverChange : Obligations.ParametersNeverChange := by
  intro k s t hrun
  exact runsTo_keeps (P := fun u => u.params = s.params) (fun _ _ hstep hu => (step_keeps_params hstep).trans hu) hrun rfl

end Sys2Proof.Machine
end

section
/-! PROOFS. What an instruction leaves in the registers, in `pc` and in memory, and what a step keeps: O19, O20, O26, O27. -/

namespace Sys2Proof.Machine

/-! Where an instruction leaves `pc` (R25, R160, R170). -/

theorem isJump_eq_false_of_no_target {i : Instr} {s : State} (h : transferTarget s i = none) : isJump i = false := by
  cases i with
  | jal | jalr => simp [transferTarget] at h
  | _ => rfl

theorem isJump_eq_false_of_no_destination {i : Instr} (h : destination i = none) : isJump i = false := by
  cases i with
  | jal | jalr => simp [destination] at h
  | _ => rfl

/-- An instruction that completes goes on in sequence and is then no jump, or it goes to its target, a word address. -/
theorem exec_next_pc {i : Instr} {s t : State} (h : exec i s = .next t) :
    (t.pc = s.pc + 4#64 ∧ isJump i = false) ∨ (transferTarget s i = some t.pc ∧ isWordAddress t.pc = true) := by
  cases exec_form i s with
  | writeBack rd v hexec _ _ _ htarget =>
    obtain rfl := writeBack_next.mp (hexec ▸ h)
    exact .inl ⟨by simp, isJump_eq_false_of_no_target htarget⟩
  | load n ext rd rs1 imm hexec _ _ _ htarget =>
    obtain ⟨v, -, rfl⟩ := loadInto_next.mp (hexec ▸ h)
    exact .inl ⟨by simp, isJump_eq_false_of_no_target htarget⟩
  | store n rs2 rs1 imm hexec _ _ _ htarget =>
    obtain ⟨u, hu, rfl⟩ := storeFrom_next.mp (hexec ▸ h)
    obtain ⟨-, -, rfl⟩ := memWrite_ok.mp hu
    exact .inl ⟨rfl, isJump_eq_false_of_no_target htarget⟩
  | branch c imm hexec hdest _ _ htarget =>
    obtain ⟨-, rfl⟩ | ⟨-, hword, rfl⟩ := branchIf_next.mp (hexec ▸ h)
    · exact .inl ⟨rfl, isJump_eq_false_of_no_destination hdest⟩
    · exact .inr ⟨htarget, hword⟩
  | jump rd a hexec _ _ _ htarget =>
    obtain ⟨hword, rfl⟩ := jumpTo_next.mp (hexec ▸ h)
    exact .inr ⟨htarget, hword⟩

theorem isWordAddress_add_four {a : Word} (h : isWordAddress a = true) : isWordAddress (a + 4#64) = true := by
  rw [isWordAddress_iff] at *
  rw [BitVec.toNat_add, BitVec.toNat_ofNat]
  omega

/-- An instruction executed at a word address leaves `pc` at a word address. -/
theorem exec_keeps_isWordAddress {i : Instr} {s t : State} (h : exec i s = .next t) (hpc : isWordAddress s.pc = true) :
    isWordAddress t.pc = true := by
  obtain ⟨hseq, -⟩ | ⟨-, hword⟩ := exec_next_pc h
  · exact hseq ▸ isWordAddress_add_four hpc
  · exact hword

/-! What an instruction leaves in memory (R30, R45). -/

/-- An instruction keeps the canonical form of memory (log entry 8): only a store writes, below the top of the address
space. -/
theorem exec_keeps_mem_wf {i : Instr} {s t : State} (h : exec i s = .next t) (hs : Memory.wf s.mem = true) :
    Memory.wf t.mem = true := by
  cases exec_form i s with
  | writeBack rd v hexec =>
    obtain rfl := writeBack_next.mp (hexec ▸ h)
    simpa using hs
  | load n ext rd rs1 imm hexec =>
    obtain ⟨v, -, rfl⟩ := loadInto_next.mp (hexec ▸ h)
    simpa using hs
  | store n rs2 rs1 imm hexec =>
    obtain ⟨u, hu, rfl⟩ := storeFrom_next.mp (hexec ▸ h)
    simpa using memWrite_keeps_wf hu hs
  | branch c imm hexec =>
    obtain ⟨-, rfl⟩ | ⟨-, -, rfl⟩ := branchIf_next.mp (hexec ▸ h)
    · exact hs
    · exact hs
  | jump rd a hexec =>
    obtain ⟨-, rfl⟩ := jumpTo_next.mp (hexec ▸ h)
    simpa using hs

theorem step_keeps_mem_wf {s t : State} (h : step s = .next t) (hs : Memory.wf s.mem = true) : Memory.wf t.mem = true := by
  obtain ⟨-, rfl⟩ | ⟨-, -, w, i, -, -, hi⟩ := step_next h
  · exact hs
  · exact exec_keeps_mem_wf hi hs

/-! The statements. -/

/-- Settles O20: a step that is not over has passed the alignment check of R253, and no instruction leaves that alignment. -/
theorem pcAlignedAfterStep : Obligations.PcAlignedAfterStep := by
  intro s t hend h
  obtain ⟨hended, -⟩ | ⟨-, hpc, w, i, -, -, hi⟩ := step_next h
  · exact absurd hended hend
  · exact (isWordAddress_iff t.pc).mp (exec_keeps_isWordAddress hi hpc)

/-- Settles O19 part by part: memory and parameters are kept by every step, and `pc` is aligned by O20 unless the run is
over, where the state stays the same. -/
theorem stepKeepsLegal : Obligations.StepKeepsLegal := by
  rintro s t ⟨hmem, hpc, hparams⟩ h
  refine ⟨step_keeps_mem_wf h hmem, ?_, step_keeps_params h ▸ hparams⟩
  by_cases hend : Ended s
  · obtain ⟨-, rfl⟩ | ⟨hgoes, -⟩ := step_next h
    · exact hpc
    · exact absurd hend hgoes
  · exact pcAlignedAfterStep s t hend h

/-- Settles O26, by the shared operation that executes the instruction: the only register written is its `rd`. -/
theorem onlyTheDestinationChanges : Obligations.OnlyTheDestinationChanges := by
  intro i s t r h hr
  have hne {rd : Reg} (hdest : destination i = some rd) : r ≠ rd := fun heq => hr (heq ▸ hdest)
  cases exec_form i s with
  | writeBack rd v hexec hdest =>
    obtain rfl := writeBack_next.mp (hexec ▸ h)
    simp [readReg_writeReg, hne hdest]
  | load n ext rd rs1 imm hexec hdest =>
    obtain ⟨v, -, rfl⟩ := loadInto_next.mp (hexec ▸ h)
    simp [readReg_writeReg, hne hdest]
  | store n rs2 rs1 imm hexec =>
    obtain ⟨u, hu, rfl⟩ := storeFrom_next.mp (hexec ▸ h)
    obtain ⟨-, -, rfl⟩ := memWrite_ok.mp hu
    simp
  | branch c imm hexec =>
    obtain ⟨-, rfl⟩ | ⟨-, -, rfl⟩ := branchIf_next.mp (hexec ▸ h)
    · simp
    · simp
  | jump rd a hexec hdest =>
    obtain ⟨-, rfl⟩ := jumpTo_next.mp (hexec ▸ h)
    simp [readReg_writeReg, hne hdest]

/-- Settles O27: an instruction without a target goes on in sequence, and a jump never does. -/
theorem nextInstruction : Obligations.NextInstruction := by
  intro i s t h
  obtain ⟨hseq, hjump⟩ | ⟨htarget, -⟩ := exec_next_pc h
  · exact ⟨fun _ => hseq, fun hj => by simp [hjump] at hj, .inl hseq⟩
  · exact ⟨fun hnone => by simp [hnone] at htarget, fun _ => htarget, .inr htarget⟩

end Sys2Proof.Machine
end

section
/-! PROOFS. What the checks before execution find, case by case, and that the word a loader places at `pc` is fetched, decoded
and executed: O9, O10, O11. -/

namespace Sys2Proof.Machine

/-! The word at an address (R42, R46). -/

/-- Four bytes in memory order, read as a value, are the word of these bytes. -/
theorem setWidth_valueOfBytes_four (b0 b1 b2 b3 : Byte) :
    (valueOfBytes [b0, b1, b2, b3]).setWidth 32 = wordOfBytes b0 b1 b2 b3 := by
  apply BitVec.eq_of_getLsbD_eq
  intro i hi
  rw [BitVec.getLsbD_setWidth, getLsbD_valueOfBytes _ _ (by omega)]
  simp only [wordOfBytes, BitVec.getLsbD_append]
  interval_cases i <;> simp

/-- A fetch from four executable bytes reads the word memory holds there. -/
theorem fetchWord_of_permitted {s : State} {a : Word} (h : AllPermitted (executableAt s.params) a 4) :
    fetchWord s a = .ok (memWord s a.toNat) :=
  fetchWord_ok.mpr ⟨(allBytes_iff ..).mpr h, (setWidth_valueOfBytes_four ..).symm⟩

theorem fetchWord_of_not_permitted {s : State} {a : Word} (h : ¬ AllPermitted (executableAt s.params) a 4) :
    fetchWord s a = .error (.instructionAccessFault a) :=
  fetchWord_error.mpr ⟨Bool.eq_false_iff.mpr (mt (allBytes_iff ..).mp h), rfl⟩

/-! The equations of `fetch`, one for each check of R253. -/

theorem fetch_of_ended {s : State} (h : Ended s) : fetch s = .ended := if_pos h

theorem fetch_of_misaligned {s : State} (hend : ¬ Ended s) (hpc : s.pc.toNat % 4 ≠ 0) :
    fetch s = .stop (.instructionAddressMisaligned s.pc) := by
  rw [fetch, if_neg hend, if_neg (mt (isWordAddress_iff _).mp hpc)]

theorem fetch_of_not_permitted {s : State} (hend : ¬ Ended s) (hpc : s.pc.toNat % 4 = 0)
    (hperm : ¬ AllPermitted (executableAt s.params) s.pc 4) : fetch s = .stop (.instructionAccessFault s.pc) := by
  rw [fetch, if_neg hend, if_pos ((isWordAddress_iff _).mpr hpc), fetchWord_of_not_permitted hperm]

/-- Past the first three checks the word at `pc` is decoded. -/
theorem fetch_of_fetches {s : State} {w : InstrWord} (h : Fetches s w) : fetch s = decoded s w := by
  obtain ⟨hend, hpc, hperm, rfl⟩ := h
  rw [fetch, if_neg hend, if_pos ((isWordAddress_iff _).mpr hpc), fetchWord_of_permitted hperm]

/-- Settles O9: the word at `pc` decides the step. -/
theorem stepRunsDecoded : Obligations.StepRunsDecoded := by
  intro s w i hw hi
  simp only [step, fetch_of_fetches hw, decoded, hi]

/-- Settles O10, one equation of `fetch` for each clause. -/
theorem stepChecksInOrder : Obligations.StepChecksInOrder := by
  intro s
  refine ⟨fun hend => ?_, fun hend hpc => ?_, fun hend hpc hperm => ?_, fun w hw hd => ?_, fun w hw hd => ?_⟩
  · simp only [step, fetch_of_ended hend]
  · simp only [step, fetch_of_misaligned hend hpc, raise]
  · simp only [step, fetch_of_not_permitted hend hpc hperm, raise]
  · simp only [step, fetch_of_fetches hw, decoded, hd]
  · simp only [step, fetch_of_fetches hw, decoded, hd, raise]

/-! The word of an instruction decodes to it (R100). -/

/-- The word of every instruction is a word of its own row. -/
theorem encodesRow (i : Instr) : Laws.EncodesRow.Statement i := by
  cases i with
  | add => exact Laws.EncodesRow.add ..
  | sub => exact Laws.EncodesRow.sub ..
  | sll => exact Laws.EncodesRow.sll ..
  | slt => exact Laws.EncodesRow.slt ..
  | sltu => exact Laws.EncodesRow.sltu ..
  | xor => exact Laws.EncodesRow.xor ..
  | srl => exact Laws.EncodesRow.srl ..
  | sra => exact Laws.EncodesRow.sra ..
  | or => exact Laws.EncodesRow.or ..
  | and => exact Laws.EncodesRow.and ..
  | addi => exact Laws.EncodesRow.addi ..
  | slti => exact Laws.EncodesRow.slti ..
  | sltiu => exact Laws.EncodesRow.sltiu ..
  | xori => exact Laws.EncodesRow.xori ..
  | ori => exact Laws.EncodesRow.ori ..
  | andi => exact Laws.EncodesRow.andi ..
  | slli => exact Laws.EncodesRow.slli ..
  | srli => exact Laws.EncodesRow.srli ..
  | srai => exact Laws.EncodesRow.srai ..
  | lb => exact Laws.EncodesRow.lb ..
  | lh => exact Laws.EncodesRow.lh ..
  | lw => exact Laws.EncodesRow.lw ..
  | ld => exact Laws.EncodesRow.ld ..
  | lbu => exact Laws.EncodesRow.lbu ..
  | lhu => exact Laws.EncodesRow.lhu ..
  | lwu => exact Laws.EncodesRow.lwu ..
  | sb => exact Laws.EncodesRow.sb ..
  | sh => exact Laws.EncodesRow.sh ..
  | sw => exact Laws.EncodesRow.sw ..
  | sd => exact Laws.EncodesRow.sd ..
  | beq => exact Laws.EncodesRow.beq ..
  | bne => exact Laws.EncodesRow.bne ..
  | blt => exact Laws.EncodesRow.blt ..
  | bge => exact Laws.EncodesRow.bge ..
  | bltu => exact Laws.EncodesRow.bltu ..
  | bgeu => exact Laws.EncodesRow.bgeu ..
  | jalr => exact Laws.EncodesRow.jalr ..
  | jal => exact Laws.EncodesRow.jal ..
  | lui => exact Laws.EncodesRow.lui ..
  | auipc => exact Laws.EncodesRow.auipc ..
  | addiw => exact Laws.EncodesRow.addiw ..
  | slliw => exact Laws.EncodesRow.slliw ..
  | srliw => exact Laws.EncodesRow.srliw ..
  | sraiw => exact Laws.EncodesRow.sraiw ..
  | addw => exact Laws.EncodesRow.addw ..
  | subw => exact Laws.EncodesRow.subw ..
  | sllw => exact Laws.EncodesRow.sllw ..
  | srlw => exact Laws.EncodesRow.srlw ..
  | sraw => exact Laws.EncodesRow.sraw ..
  | mul => exact Laws.EncodesRow.mul ..
  | div => exact Laws.EncodesRow.div ..
  | rem => exact Laws.EncodesRow.rem ..

/-- No two rows of the table bear the same mnemonic. -/
theorem mnemonics_nodup : (opcodeRows.map (·.mnemonic)).Nodup := by decide

/-- Some row of the table bears the mnemonic of the instruction and reads every operand back from its word. -/
def HasRow (i : Instr) : Prop := ∃ r ∈ opcodeRows, r.mnemonic = i.mnemonic ∧ r.build (encode i) = i

/-- The instructions stand in `Instr` in the order of the rows of the table. -/
theorem hasRow_of_ctorIdx {i : Instr} {r : OpcodeRow} (hr : opcodeRows[i.ctorIdx]? = some r)
    (hm : r.mnemonic = i.mnemonic) (hb : r.build (encode i) = i) : HasRow i := ⟨r, List.mem_of_getElem? hr, hm, hb⟩

/-- Every operand of a well-formed instruction is read back from its word. -/
theorem hasRow_of_wf {i : Instr} (hwf : i.wf = true) : HasRow i := by
  cases i with
  | beq rs1 rs2 imm | bne rs1 rs2 imm | blt rs1 rs2 imm | bge rs1 rs2 imm | bltu rs1 rs2 imm | bgeu rs1 rs2 imm =>
    have heven : imm.getLsbD 0 = false := beq_iff_eq.mp hwf
    exact hasRow_of_ctorIdx rfl rfl (by simp [encode, immB_encodeB _ _ _ _ _ heven])
  | jal rd imm =>
    have heven : imm.getLsbD 0 = false := beq_iff_eq.mp hwf
    exact hasRow_of_ctorIdx rfl rfl (by simp [encode, immJ_encodeJ _ _ _ heven])
  | _ => exact hasRow_of_ctorIdx rfl rfl (by simp [encode])

/-- The word of a well-formed instruction that is present decodes to it (R72 to R86, R100). -/
theorem decode_encode {ext : Bool} {i : Instr} (hwf : i.wf = true) (hext : i.needsM = true → ext = true) :
    decode ext (encode i) = .instr i := by
  obtain ⟨⟨r, hr, hrm, hneeds, hadm⟩, hopcode⟩ := encodesRow i
  obtain ⟨q, hq, hqm, hbuild⟩ := hasRow_of_wf hwf
  obtain rfl : r = q := List.inj_on_of_nodup_map mnemonics_nodup hr hq (hrm.trans hqm.symm)
  have hpresent : r ∈ presentRows ext := by
    cases hm : i.needsM with
    | false => exact List.mem_filter.mpr ⟨hr, by simp [hneeds, hm]⟩
    | true => exact List.mem_filter.mpr ⟨hr, by simp [hext hm]⟩
  rw [decode_of_row hopcode hpresent hadm, hbuild]

/-! The word a loader places at `pc` (log entry 19). -/

theorem isWordAddress_alignWord (a : Word) : isWordAddress (alignWord a) = true := by
  have hmask : (0xFFFFFFFFFFFFFFFC#64).extractLsb' 0 2 = 0#2 := rfl
  simp [isWordAddress, alignWord, BitVec.extractLsb'_and, hmask]

theorem fetchableAt_endPc_ne (p : Params) (a : Word) : (fetchableAt p a).endPc ≠ a := by
  simp only [fetchableAt]
  split
  · simp
  · assumption

/-- Under the parameters of `fetchableAt` the word at `a` is executable, by the map itself or by the region added to it. -/
theorem fetchableAt_permits (p : Params) {a : Word} (ha : a.toNat + 4 ≤ 2 ^ 64) :
    AllPermitted (executableAt (fetchableAt p a)) a 4 := by
  by_cases hp : allBytes (executableAt p) a.toNat 4 = true
  · intro k hk
    simpa [fetchableAt, hp, executableAt] using (allBytes_iff ..).mp hp k hk
  · intro k hk
    refine ⟨by omega, ?_⟩
    simp [fetchableAt, hp, executableAt, wordRegion, Region.contains, hk]

/-- A placed word is read back. -/
theorem memWord_putBytes (s : State) (a : Nat) (w : InstrWord) :
    memWord { s with mem := Memory.putBytes s.mem a (bytesOfWord w) } a = w := by
  simp only [memWord, byteAt_putBytes, bytesOfWord, List.length_cons, List.length_nil]
  simpa [wordOfBytes] using wordOfBytes_bytesOfWord w

theorem placeAtPc_fetches (s : State) (w : InstrWord) : Fetches (placeAtPc s w) w :=
  ⟨(fetchableAt_endPc_ne s.params _).symm, (isWordAddress_iff _).mp (isWordAddress_alignWord s.pc),
    fetchableAt_permits s.params (alignWord_le s.pc), memWord_putBytes _ _ w⟩

theorem withFetchWord_toNat (s : State) (w : InstrWord) : s.withFetchWord 32 w.toNat = placeAtPc s w := by
  simp [State.withFetchWord, Nat.mod_eq_of_lt w.isLt]

/-- Settles O11: the placed word is the one the step fetches, and it decodes to the instruction. -/
theorem placedInstructionRuns : Obligations.PlacedInstructionRuns := by
  intro s i hwf hext
  rw [withFetchWord_toNat]
  exact stepRunsDecoded _ _ i (placeAtPc_fetches s (encode i)) (decode_encode hwf hext)

end Sys2Proof.Machine
end

section
/-! PROOFS. The register file, the launch state and the reset state: O15 to O18. -/

namespace Sys2Proof.Machine

/-- Settles O15, by the one law of a read after a write. -/
theorem registersReadBack : Obligations.RegistersReadBack := by
  intro s r v
  refine ⟨readReg_zero s, ?_, fun q hq => ?_, writeReg_pc s r v, writeReg_mem s r v, writeReg_params s r v⟩
  · rw [readReg_writeReg, if_pos rfl]
  · rw [readReg_writeReg, if_neg hq]

/-- Register `k + 1` is entry `k` of the register file, which has no place for `x0`. -/
theorem readReg_ofNat_succ (s : State) (k : Fin 31) : readReg s (BitVec.ofNat 5 (k.val + 1)) = s.regs[k] := by
  have hr : (BitVec.ofNat 5 (k.val + 1)).toNat = k.val + 1 := by
    rw [BitVec.toNat_ofNat, Nat.mod_eq_of_lt (by omega)]
  simp [readReg, hr]

/-! The image of a launch (R271 a). -/

@[simp] theorem lastPlaced_nil (a : Nat) : lastPlaced [] a = none := rfl

/-- The last byte placed at an address is the last one the rest of the image places there, or else the first cell's. -/
theorem lastPlaced_cons (c : Host.Cell) (cs : List Host.Cell) (a : Nat) :
    lastPlaced (c :: cs) a = (lastPlaced cs a).or (if c.1 = a then some c.2 else none) := by
  unfold lastPlaced
  rw [List.reverse_cons, List.find?_append]
  by_cases h : c.1 = a <;> cases cs.reverse.find? (·.1 = a) <;> simp [h]

/-- A byte after an image was placed: the last one the image places there, the old one elsewhere. -/
theorem byteAt_placeCells (image : List Host.Cell) (m : Memory) {a : Nat} (ha : a < 2 ^ 64) :
    Memory.byteAt (placeCells m image) a = (lastPlaced image a).getD (Memory.byteAt m a) := by
  induction image generalizing m with
  | nil => rfl
  | cons c cs ih =>
    rw [placeCells, ih, lastPlaced_cons]
    cases lastPlaced cs a with
    | some b => rfl
    | none =>
      by_cases hc : c.1 = a
      · subst hc
        rw [if_pos ha, byteAt_put]
        simp
      · rw [if_neg hc]
        split
        · rw [byteAt_put, if_neg (Ne.symm hc)]
          rfl
        · rfl

/-- A launch that is as R25, R41 and R276 ask is in a legal state. -/
theorem launch_legal {p : Params} {resetPc : Word} (initRegs : Vector Word 31) (image : List Host.Cell)
    (hp : p.wf = true) (hpc : resetPc.toNat % 4 = 0) : Legal (State.launch p resetPc initRegs image) :=
  ⟨launch_mem_wf p resetPc initRegs image, hpc, hp⟩

/-- Settles O17: the registers, `pc` and the parameters stand in the launch state as supplied, and memory is the placed
image. -/
theorem launchState : Obligations.LaunchState := fun _ _ initRegs image =>
  ⟨rfl, rfl, rfl, readReg_ofNat_succ _, fun _ ha => byteAt_placeCells image [] ha, launch_legal initRegs image⟩

/-! The reset state (log entries 4 to 8). -/

theorem readReg_reset : ∀ r : Reg,
    readReg State.reset r = if r = 1#5 then 0x500000#64 else if r = 2#5 then 0x7FFFF000#64 else 0#64 := by
  decide

/-- Settles O16: the registers one by one, everything else as the definition of the reset state has it. -/
theorem resetValues : Obligations.ResetValues :=
  ⟨rfl, rfl, readReg_reset, rfl, rfl, rfl, rfl, rfl, rfl⟩

/-- Settles O18: reset is a legal launch. -/
theorem resetIsLegal : Obligations.ResetIsLegal := by
  unfold Obligations.ResetIsLegal
  rw [reset_is_launch]
  exact launch_legal resetRegs [] reset_params_wf rfl

end Sys2Proof.Machine
end

section
/-! PROOFS. The access primitives by cases, MemRead (R44), MemWrite (R45) and FetchWord (R46): O29, O30, O31. -/

namespace Sys2Proof.Machine

/-! The conditions of an access, in the words of the statements. -/

theorem misalignedFaults_eq_false_iff {p : Params} {a : Word} {n : Nat} :
    misalignedFaults p a n = false ↔ AlignmentOk p a n := by
  cases h : p.misalignedData <;> simp [misalignedFaults, AlignmentOk, h]

theorem misalignedFaults_eq_true_iff {p : Params} {a : Word} {n : Nat} :
    misalignedFaults p a n = true ↔ ¬ AlignmentOk p a n := by
  rw [← misalignedFaults_eq_false_iff, Bool.not_eq_false]

theorem allBytes_eq_false_iff {permitted : Nat → Bool} {a : Word} {n : Nat} :
    allBytes permitted a.toNat n = false ↔ ¬ AllPermitted permitted a n := by
  rw [← Bool.not_eq_true, allBytes_iff]

/-- What R45 asks of each byte of a store, as an implication. -/
theorem storableAt_iff {p : Params} {b : Nat} :
    storableAt p b = true ↔ writableAt p b = true ∧ (p.textWritable = false → executableAt p b = false) := by
  cases h : p.textWritable <;> simp [storableAt, h]

/-- No byte of an executable region may be stored to while TEXT_WRITABLE is false (R45, R54). -/
theorem storableAt_eq_false_of_executable {p : Params} {b : Nat} (htext : p.textWritable = false)
    (hexec : executableAt p b = true) : storableAt p b = false := by
  simp [storableAt, htext, hexec]

/-- An aligned access of a width that divides the size of the address space stays below its top. -/
theorem toNat_add_le_of_aligned {a : Word} {n : Nat} (hn : n ∣ 2 ^ 64) (ha : a.toNat % n = 0) : a.toNat + n ≤ 2 ^ 64 :=
  Nat.le_of_lt_add_of_dvd (Nat.add_lt_add_right a.isLt n) ((Nat.dvd_add_self_right).mpr (Nat.dvd_of_mod_eq_zero ha)) hn

/-! MemRead (R44). -/

theorem memRead_of_misaligned {s : State} {a : Word} {n : Nat} (h : ¬ AlignmentOk s.params a n) :
    memRead s a n = .error (.loadAddressMisaligned a) :=
  memRead_error.mpr (.inl ⟨misalignedFaults_eq_true_iff.mpr h, rfl⟩)

theorem memRead_of_not_permitted {s : State} {a : Word} {n : Nat} (hal : AlignmentOk s.params a n)
    (h : ¬ AllPermitted (readableAt s.params) a n) : memRead s a n = .error (.loadAccessFault a) :=
  memRead_error.mpr (.inr ⟨misalignedFaults_eq_false_iff.mpr hal, allBytes_eq_false_iff.mpr h, rfl⟩)

theorem memRead_of_permitted {s : State} {a : Word} {n : Nat} (hal : AlignmentOk s.params a n)
    (h : AllPermitted (readableAt s.params) a n) :
    memRead s a n = .ok (valueOfBytes (Memory.bytesAt s.mem a.toNat n)) :=
  memRead_ok.mpr ⟨misalignedFaults_eq_false_iff.mpr hal, (allBytes_iff ..).mpr h, rfl⟩

/-- The value of `n` bytes lies in the low `8n` bits. -/
theorem toNat_valueOfBytes_bytesAt_lt (m : Memory) (a n : Nat) :
    (valueOfBytes (Memory.bytesAt m a n)).toNat < 2 ^ (8 * n) :=
  Nat.lt_pow_two_of_testBit _ fun j hj => getLsbD_valueOfBytes_bytesAt_ge m a n j hj

/-- Settles O29, one equation of `memRead` for each clause. -/
theorem memReadRule : Obligations.MemReadRule := by
  intro s a n hn
  have hle : n ≤ 8 := by omega
  have hdvd : n ∣ 2 ^ 64 := by rcases hn with rfl | rfl | rfl | rfl <;> decide
  refine ⟨memRead_of_misaligned, memRead_of_not_permitted, fun hal hperm => ?_, toNat_add_le_of_aligned hdvd⟩
  exact ⟨_, memRead_of_permitted hal hperm, toNat_valueOfBytes_bytesAt_lt .., fun k hk =>
    extract_valueOfBytes_bytesAt _ _ _ _ hk hle⟩

/-! MemWrite (R45). -/

theorem memWrite_of_misaligned {s : State} {a v : Word} {n : Nat} (h : ¬ AlignmentOk s.params a n) :
    memWrite s a n v = .error (.storeAddressMisaligned a) :=
  memWrite_error.mpr (.inl ⟨misalignedFaults_eq_true_iff.mpr h, rfl⟩)

theorem memWrite_of_not_permitted {s : State} {a v : Word} {n : Nat} (hal : AlignmentOk s.params a n)
    (h : ¬ AllPermitted (storableAt s.params) a n) : memWrite s a n v = .error (.storeAccessFault a) :=
  memWrite_error.mpr (.inr ⟨misalignedFaults_eq_false_iff.mpr hal, allBytes_eq_false_iff.mpr h, rfl⟩)

theorem memWrite_of_permitted {s : State} {a : Word} {n : Nat} (v : Word) (hal : AlignmentOk s.params a n)
    (h : AllPermitted (storableAt s.params) a n) :
    memWrite s a n v = .ok { s with mem := Memory.putBytes s.mem a.toNat (bytesOfValue v n) } :=
  memWrite_ok.mpr ⟨misalignedFaults_eq_false_iff.mpr hal, (allBytes_iff ..).mpr h, rfl⟩

/-- A write that completes has passed its checks. -/
theorem memWrite_checks {s t : State} {a v : Word} {n : Nat} (h : memWrite s a n v = .ok t) :
    AlignmentOk s.params a n ∧ AllPermitted (storableAt s.params) a n := by
  obtain ⟨hal, hperm, -⟩ := memWrite_ok.mp h
  exact ⟨misalignedFaults_eq_false_iff.mp hal, (allBytes_iff ..).mp hperm⟩

theorem memWrite_byteAt_inside {s t : State} {a v : Word} {n k : Nat} (h : memWrite s a n v = .ok t) (hk : k < n) :
    Memory.byteAt t.mem (a.toNat + k) = v.extractLsb' (8 * k) 8 := by
  rw [memWrite_byteAt h, if_pos (by omega), Nat.add_sub_cancel_left]

theorem memWrite_byteAt_outside {s t : State} {a v : Word} {n b : Nat} (h : memWrite s a n v = .ok t)
    (hb : b < a.toNat ∨ a.toNat + n ≤ b) : Memory.byteAt t.mem b = Memory.byteAt s.mem b := by
  rw [memWrite_byteAt h, if_neg (by omega)]

/-- Settles O30: the conditions on the bytes are `storableAt` written out, and the rest is one lemma for each clause. -/
theorem memWriteRule : Obligations.MemWriteRule := by
  intro s a v n _
  refine ⟨memWrite_of_misaligned, fun hal hbad => ?_, fun hal hgood => ?_⟩
  · refine memWrite_of_not_permitted hal fun hperm => ?_
    obtain ⟨k, hk, hbad⟩ := hbad
    obtain ⟨hlt, hstorable⟩ := hperm k hk
    obtain ⟨hwritable, htext⟩ := storableAt_iff.mp hstorable
    obtain hpast | hro | ⟨hfixed, hexec⟩ := hbad
    · omega
    · simp [hwritable] at hro
    · simp [htext hfixed] at hexec
  · have hperm : AllPermitted (storableAt s.params) a n := fun k hk =>
      ⟨(hgood k hk).1, storableAt_iff.mpr (hgood k hk).2⟩
    have hw := memWrite_of_permitted v hal hperm
    exact ⟨_, hw, fun k hk => memWrite_byteAt_inside hw hk, fun b hb => memWrite_byteAt_outside hw hb, rfl, rfl, rfl⟩

/-! FetchWord (R46). -/

/-- The byte at the lowest address is the low byte of the word (R42). -/
theorem memWord_low_byte (s : State) (a : Nat) : (memWord s a).extractLsb 7 0 = Memory.byteAt s.mem a := by
  apply BitVec.eq_of_getLsbD_eq
  intro j hj
  have hlow : j < 8 := hj
  simp only [memWord, BitVec.getLsbD_extractLsb, BitVec.getLsbD_append]
  simp [hlow]

/-- The opcode field lies in the byte at the lowest address (R72). -/
theorem memWord_opcode (s : State) (a : Nat) :
    (memWord s a).extractLsb 6 0 = (Memory.byteAt s.mem a).extractLsb 6 0 := by
  rw [← memWord_low_byte s a]
  apply BitVec.eq_of_getLsbD_eq
  intro j hj
  have hlow : j < 8 := Nat.lt_succ_of_lt hj
  simp [hj, hlow]

/-- Settles O31: the fetched word is `memWord`, and the step of O10 reports the fault. -/
theorem fetchWordRule : Obligations.FetchWordRule := by
  intro s a ha
  refine ⟨fun hperm => ?_, fun hperm => ⟨fetchWord_of_not_permitted hperm, ?_⟩⟩
  · exact ⟨_, fetchWord_of_permitted hperm, rfl, memWord_low_byte s _, memWord_opcode s _⟩
  · rintro rfl hend
    obtain ⟨-, -, hfault, -, -⟩ := stepChecksInOrder s
    exact hfault hend ha hperm

end Sys2Proof.Machine
end

section
/-! PROOFS. Which bytes of memory an instruction, a step and a run can change, and on which bytes an instruction depends:
O21, O23, O24, O25. -/

namespace Sys2Proof.Machine

/-! What an instruction changes in memory (R45, R47). -/

/-- An instruction that completes stores nothing and leaves memory as it is, or it is a store and its write completed. -/
theorem exec_mem {i : Instr} {s t : State} (h : exec i s = .next t) :
    (storeTarget s i = none ∧ t.mem = s.mem) ∨
      ∃ a n v u, storeTarget s i = some (a, n) ∧ memWrite s a n v = .ok u ∧ t.mem = u.mem := by
  cases exec_form i s with
  | writeBack rd v hexec _ _ hstore =>
    obtain rfl := writeBack_next.mp (hexec ▸ h)
    exact .inl ⟨hstore, by simp⟩
  | load n ext rd rs1 imm hexec _ _ hstore =>
    obtain ⟨v, -, rfl⟩ := loadInto_next.mp (hexec ▸ h)
    exact .inl ⟨hstore, by simp⟩
  | store n rs2 rs1 imm hexec _ _ hstore =>
    obtain ⟨u, hu, rfl⟩ := storeFrom_next.mp (hexec ▸ h)
    exact .inr ⟨_, n, _, u, hstore, hu, rfl⟩
  | branch c imm hexec _ _ hstore =>
    obtain ⟨-, rfl⟩ | ⟨-, -, rfl⟩ := branchIf_next.mp (hexec ▸ h)
    · exact .inl ⟨hstore, rfl⟩
    · exact .inl ⟨hstore, rfl⟩
  | jump rd a hexec _ _ hstore =>
    obtain ⟨-, rfl⟩ := jumpTo_next.mp (hexec ▸ h)
    exact .inl ⟨hstore, by simp⟩

/-- Settles O24: a write that completed changed the bytes of the store's own target only. -/
theorem onlyStoresChangeMemory : Obligations.OnlyStoresChangeMemory := by
  intro i s t b h hb
  obtain ⟨-, hmem⟩ | ⟨a, n, v, u, htarget, hu, hmem⟩ := exec_mem h
  · rw [hmem]
  · rw [hmem, memWrite_byteAt_outside hu (hb a n htarget)]

/-! Steps and runs (R51). -/

/-- A step that completes is the repetition of the final state, or the instruction that the statements say it executes. -/
theorem step_next_executes {s t : State} (h : step s = .next t) : t = s ∨ ∃ i, Executes s i ∧ exec i s = .next t := by
  obtain ⟨-, rfl⟩ | ⟨hend, hpc, w, i, hw, hi, hexec⟩ := step_next h
  · exact .inl rfl
  · have hperm : AllPermitted (executableAt s.params) s.pc 4 := (allBytes_iff ..).mp (fetchWord_ok.mp hw).1
    have hword : memWord s s.pc.toNat = w := Except.ok.inj ((fetchWord_of_permitted hperm).symm.trans hw)
    exact .inr ⟨i, ⟨w, ⟨hend, (isWordAddress_iff _).mp hpc, hperm, hword⟩, hi⟩, hexec⟩

/-- A step keeps every byte that the instruction it executes does not store to. -/
theorem step_keeps_byte {s t : State} {b : Nat} (h : step s = .next t) (hb : ∀ i, Executes s i → NotStoredBy s i b) :
    Memory.byteAt t.mem b = Memory.byteAt s.mem b := by
  obtain rfl | ⟨i, hi, hexec⟩ := step_next_executes h
  · rfl
  · exact onlyStoresChangeMemory i s t b hexec (hb i hi)

/-- Settles O23, by induction on the length of the run: its first step keeps the byte, and so does the rest of it. -/
theorem bytesKeepTheirLastStore : Obligations.BytesKeepTheirLastStore := by
  intro k
  induction k with
  | zero =>
    intro s t b hrun _
    obtain rfl : s = t := by simpa [RunsTo] using hrun
    rfl
  | succ k ih =>
    intro s t b hrun hb
    obtain ⟨u, hu, hrest⟩ := runsTo_succ.mp hrun
    have hfirst : Memory.byteAt u.mem b = Memory.byteAt s.mem b :=
      step_keeps_byte hu fun i hi => hb 0 s i (Nat.succ_pos k) (run_zero s) hi
    have hlast : Memory.byteAt t.mem b = Memory.byteAt u.mem b :=
      ih u t b hrest fun j v i hj hv hi => hb (j + 1) v i (Nat.succ_lt_succ hj) (runsTo_succ.mpr ⟨u, hu, hv⟩) hi
    exact hlast.trans hfirst

/-! Executable regions (R54). -/

/-- While TEXT_WRITABLE is false, a byte of an executable region is none of those that an instruction which completes
stores to. -/
theorem notStoredBy_of_executable {i : Instr} {s t : State} {b : Nat} (htext : s.params.textWritable = false)
    (hexec : executableAt s.params b = true) (h : exec i s = .next t) : NotStoredBy s i b := by
  intro a n htarget
  obtain ⟨hnone, -⟩ | ⟨a', n', v, u, htarget', hu, -⟩ := exec_mem h
  · simp [hnone] at htarget
  · obtain ⟨rfl, rfl⟩ : a' = a ∧ n' = n := by simpa [htarget'] using htarget
    by_contra hb
    obtain ⟨k, hk, rfl⟩ : ∃ k, k < n' ∧ b = a'.toNat + k := ⟨b - a'.toNat, by omega, by omega⟩
    have hstorable := ((memWrite_checks hu).2 k hk).2
    simp [storableAt_eq_false_of_executable htext hexec] at hstorable

theorem step_keeps_executable_byte {s t : State} {b : Nat} (htext : s.params.textWritable = false)
    (hexec : executableAt s.params b = true) (h : step s = .next t) :
    Memory.byteAt t.mem b = Memory.byteAt s.mem b := by
  obtain rfl | ⟨i, -, hi⟩ := step_next_executes h
  · rfl
  · exact onlyStoresChangeMemory i s t b hi (notStoredBy_of_executable htext hexec hi)

/-- A run keeps every byte of the executable regions while TEXT_WRITABLE is false: the invariant that every step keeps says
so of the parameters too, which name the regions. -/
theorem runsTo_keeps_executable_byte {k : Nat} {s t : State} {b : Nat} (htext : s.params.textWritable = false)
    (hexec : executableAt s.params b = true) (hrun : RunsTo k s t) :
    Memory.byteAt t.mem b = Memory.byteAt s.mem b := by
  have hkeeps : t.params = s.params ∧ Memory.byteAt t.mem b = Memory.byteAt s.mem b := by
    refine runsTo_keeps (P := fun u => u.params = s.params ∧ Memory.byteAt u.mem b = Memory.byteAt s.mem b)
      (fun u v hstep hu => ?_) hrun ⟨rfl, rfl⟩
    obtain ⟨hparams, hbyte⟩ := hu
    rw [← hparams] at htext hexec
    exact ⟨(step_keeps_params hstep).trans hparams, (step_keeps_executable_byte htext hexec hstep).trans hbyte⟩
  exact hkeeps.2

/-- A fetch depends on the parameters and on the bytes of the executable regions only (R46). -/
theorem fetchWord_congr {s t : State} (hparams : t.params = s.params)
    (hbytes : ∀ b, executableAt s.params b = true → Memory.byteAt t.mem b = Memory.byteAt s.mem b) (a : Word) :
    fetchWord t a = fetchWord s a := by
  by_cases hperm : AllPermitted (executableAt s.params) a 4
  · have hbyte (k : Nat) (hk : k < 4) : Memory.byteAt t.mem (a.toNat + k) = Memory.byteAt s.mem (a.toNat + k) :=
      hbytes _ (hperm k hk).2
    have hword : memWord t a.toNat = memWord s a.toNat := by
      rw [memWord, memWord, hbyte 3 (by decide), hbyte 2 (by decide), hbyte 1 (by decide)]
      exact congrArg _ (hbyte 0 (by decide))
    rw [fetchWord_of_permitted hperm, fetchWord_of_permitted (hparams ▸ hperm), hword]
  · rw [fetchWord_of_not_permitted hperm, fetchWord_of_not_permitted (hparams ▸ hperm)]

/-- Settles O21: every step keeps the bytes of the executable regions, and a fetch reads no others. -/
theorem textNeverChanges : Obligations.TextNeverChanges := by
  intro k s t htext hrun
  have hbytes (b : Nat) (hexec : executableAt s.params b = true) : Memory.byteAt t.mem b = Memory.byteAt s.mem b :=
    runsTo_keeps_executable_byte htext hexec hrun
  exact ⟨hbytes, fetchWord_congr (parametersNeverChange k s t hrun) hbytes⟩

/-! On which bytes an instruction depends (R44, R47). -/

/-- The shared operation that executes an instruction in a state executes it with the same operands whatever memory is. -/
inductive ExecFormAnyMem (s : State) (m : Memory) (i : Instr) : Prop where
  | writeBack (rd : Reg) (v : Word) (hexec : exec i s = writeBack rd v s)
      (hexec' : exec i { s with mem := m } = writeBack rd v { s with mem := m })
  | load (n : Nat) (ext : Word → Word) (rd rs1 : Reg) (imm : BitVec 12) (hexec : exec i s = loadInto n ext rd rs1 imm s)
      (hexec' : exec i { s with mem := m } = loadInto n ext rd rs1 imm { s with mem := m })
      (hload : loadTarget s i = some (effectiveAddress s rs1 imm, n))
  | store (n : Nat) (rs2 rs1 : Reg) (imm : BitVec 12) (hexec : exec i s = storeFrom n rs2 rs1 imm s)
      (hexec' : exec i { s with mem := m } = storeFrom n rs2 rs1 imm { s with mem := m })
  | branch (c : Bool) (imm : BitVec 13) (hexec : exec i s = branchIf c imm s)
      (hexec' : exec i { s with mem := m } = branchIf c imm { s with mem := m })
  | jump (rd : Reg) (a : Word) (hexec : exec i s = jumpTo rd a s)
      (hexec' : exec i { s with mem := m } = jumpTo rd a { s with mem := m })

theorem exec_form_any_mem (i : Instr) (s : State) (m : Memory) : ExecFormAnyMem s m i := by
  cases i with
  | add | sub | sll | slt | sltu | xor | srl | sra | or | and
  | addi | slti | sltiu | xori | ori | andi | slli | srli | srai
  | lui | auipc
  | addiw | slliw | srliw | sraiw | addw | subw | sllw | srlw | sraw
  | mul | div | rem => exact .writeBack _ _ rfl rfl
  | lb | lh | lw | ld | lbu | lhu | lwu => exact .load _ _ _ _ _ rfl rfl rfl
  | sb | sh | sw | sd => exact .store _ _ _ _ rfl rfl
  | beq | bne | blt | bge | bltu | bgeu => exact .branch _ _ rfl rfl
  | jal | jalr => exact .jump _ _ rfl rfl

theorem writeReg_setMem (s : State) (m : Memory) (r : Reg) (v : Word) :
    writeReg { s with mem := m } r v = { writeReg s r v with mem := m } := by
  unfold writeReg
  split <;> rfl

theorem bytesAt_congr {m m' : Memory} {a n : Nat}
    (h : ∀ k, k < n → Memory.byteAt m' (a + k) = Memory.byteAt m (a + k)) :
    Memory.bytesAt m' a n = Memory.bytesAt m a n := by
  refine List.ext_getElem (by simp) fun k hk _ => ?_
  rw [getElem_bytesAt, getElem_bytesAt, h k (by simpa using hk)]

/-- A read depends on the parameters and on the bytes it addresses only (R44). -/
theorem memRead_setMem {s : State} {m : Memory} {a : Word} {n : Nat}
    (h : ∀ k, k < n → Memory.byteAt m (a.toNat + k) = Memory.byteAt s.mem (a.toNat + k)) :
    memRead { s with mem := m } a n = memRead s a n := by
  simp only [memRead, bytesAt_congr h]

/-- A write does not depend on memory (R45). -/
theorem memWrite_setMem {s t : State} {m : Memory} {a v : Word} {n : Nat} (h : memWrite s a n v = .ok t) :
    ∃ m', memWrite { s with mem := m } a n v = .ok { t with mem := m' } := by
  obtain ⟨hal, hperm⟩ := memWrite_checks h
  obtain ⟨-, -, rfl⟩ := memWrite_ok.mp h
  exact ⟨_, memWrite_of_permitted (s := { s with mem := m }) v hal hperm⟩

/-- With another memory that agrees on the bytes it loads, an instruction completes in the same state but for memory. -/
theorem exec_setMem {i : Instr} {s t : State} {m : Memory} (h : exec i s = .next t)
    (hm : ∀ a n, loadTarget s i = some (a, n) →
      ∀ k, k < n → Memory.byteAt m (a.toNat + k) = Memory.byteAt s.mem (a.toNat + k)) :
    ∃ m', exec i { s with mem := m } = .next { t with mem := m' } := by
  cases exec_form_any_mem i s m with
  | writeBack rd v hexec hexec' =>
    obtain rfl := writeBack_next.mp (hexec ▸ h)
    exact ⟨m, by rw [hexec', writeBack_next, writeReg_setMem s m]; rfl⟩
  | load n ext rd rs1 imm hexec hexec' hload =>
    obtain ⟨v, hv, rfl⟩ := loadInto_next.mp (hexec ▸ h)
    have hread := (memRead_setMem (hm _ n hload)).trans hv
    exact ⟨m, hexec'.trans (loadInto_next.mpr ⟨v, hread, by rw [writeReg_setMem s m]; rfl⟩)⟩
  | store n rs2 rs1 imm hexec hexec' =>
    obtain ⟨u, hu, rfl⟩ := storeFrom_next.mp (hexec ▸ h)
    obtain ⟨m', hwrite⟩ := memWrite_setMem (m := m) hu
    exact ⟨m', hexec'.trans (storeFrom_next.mpr ⟨_, hwrite, rfl⟩)⟩
  | branch c imm hexec hexec' =>
    refine ⟨m, hexec'.trans (branchIf_next.mpr ?_)⟩
    obtain ⟨hc, rfl⟩ | ⟨hc, hword, rfl⟩ := branchIf_next.mp (hexec ▸ h)
    · exact .inl ⟨hc, rfl⟩
    · exact .inr ⟨hc, hword, rfl⟩
  | jump rd a hexec hexec' =>
    obtain ⟨hword, rfl⟩ := jumpTo_next.mp (hexec ▸ h)
    exact ⟨m, hexec'.trans (jumpTo_next.mpr ⟨hword, by rw [writeReg_setMem s m]; rfl⟩)⟩

/-- Settles O25: registers, `pc` and parameters of the two next states are the same. -/
theorem onlyLoadsReadMemory : Obligations.OnlyLoadsReadMemory := by
  intro i s t m h hm
  obtain ⟨m', hexec⟩ := exec_setMem h hm
  exact ⟨_, hexec, readReg_setMem t m', rfl, rfl⟩

end Sys2Proof.Machine
end

section
/-! PROOFS. A read of bytes that a write has just written: O32 for reads of every width inside a double word, O33 for a load
after the store of the same width. -/

namespace Sys2Proof.Machine

/-- `n` bytes of memory that are bytes `o` to `o + n - 1` of a value have these bytes of it as their own value (R42). -/
theorem valueOfBytes_bytesAt_eq_extract {m : Memory} {a n o : Nat} {v : Word} (hn : n ≤ 8)
    (h : ∀ k, k < n → Memory.byteAt m (a + k) = v.extractLsb' (8 * (o + k)) 8) :
    valueOfBytes (Memory.bytesAt m a n) = (v.extractLsb' (8 * o) (8 * n)).setWidth 64 := by
  apply BitVec.eq_of_getLsbD_eq
  intro j hj
  by_cases hjn : j < 8 * n
  · have hbyte : (valueOfBytes (Memory.bytesAt m a n)).extractLsb' (8 * (j / 8)) 8 = v.extractLsb' (8 * (o + j / 8)) 8 :=
      (extract_valueOfBytes_bytesAt m a n (j / 8) (by omega) hn).trans (h (j / 8) (by omega))
    have hbit := congrArg (·.getLsbD (j % 8)) hbyte
    have hmod : j % 8 < 8 := Nat.mod_lt j (by decide)
    have hj' : 8 * (j / 8) + j % 8 = j := Nat.div_add_mod j 8
    have ho : 8 * (o + j / 8) + j % 8 = 8 * o + j := by omega
    simpa [hmod, hj', ho, hj, hjn] using hbit
  · rw [getLsbD_valueOfBytes_bytesAt_ge m a n j (by omega)]
    simp [hjn]

/-- An access inside an aligned one, at a multiple of its own width, is aligned. -/
theorem alignmentOk_inside {p : Params} {a b : Word} {N n o : Nat} (hal : AlignmentOk p a N) (hb : b.toNat = a.toNat + o)
    (hN : n ∣ N) (ho : n ∣ o) : AlignmentOk p b n :=
  hal.imp_left fun ha => by
    rw [hb]
    exact Nat.mod_eq_zero_of_dvd ((hN.trans (Nat.dvd_of_mod_eq_zero ha)).add ho)

/-- After a write of `N` bytes, a readable datum of `n` of them, at a multiple of `n` from the first, reads as the bits
written there (R42, R44, R45). -/
theorem memRead_of_memWrite {s t : State} {a v : Word} {N n o : Nat} (hw : memWrite s a N v = .ok t)
    (hread : AllPermitted (readableAt s.params) a N) (hn : n ≤ 8) (hpos : 0 < n) (hin : o + n ≤ N) (hN : n ∣ N)
    (ho : n ∣ o) :
    memRead t (a + BitVec.ofNat 64 o) n = .ok ((v.extractLsb' (8 * o) (8 * n)).setWidth 64) := by
  have hparams := memWrite_keeps_params hw
  have haddr : (a + BitVec.ofNat 64 o).toNat = a.toNat + o := by
    have hlt := (hread o (by omega)).1
    rw [BitVec.toNat_add, BitVec.toNat_ofNat]
    omega
  have hal : AlignmentOk t.params (a + BitVec.ofNat 64 o) n :=
    hparams ▸ alignmentOk_inside (memWrite_checks hw).1 haddr hN ho
  have hperm : AllPermitted (readableAt t.params) (a + BitVec.ofNat 64 o) n := by
    intro k hk
    rw [haddr, hparams, Nat.add_assoc]
    exact hread (o + k) (by omega)
  rw [memRead_of_permitted hal hperm, haddr]
  refine congrArg _ (valueOfBytes_bytesAt_eq_extract hn fun k hk => ?_)
  rw [Nat.add_assoc]
  exact memWrite_byteAt_inside hw (by omega)

/-- After a write of `n` bytes, the read of the same `n` bytes. -/
theorem memRead_of_memWrite_same {s t : State} {a v : Word} {n : Nat} (hw : memWrite s a n v = .ok t)
    (hread : AllPermitted (readableAt s.params) a n) (hn : n ≤ 8) (hpos : 0 < n) :
    memRead t a n = .ok ((v.extractLsb' 0 (8 * n)).setWidth 64) := by
  simpa using memRead_of_memWrite (o := 0) hw hread hn hpos (by omega) (Nat.dvd_refl n) (Nat.dvd_zero n)

/-- Settles O32: a datum of `n` bytes at index `k` stands `n * k` bytes from the first. -/
theorem mixedWidthAccess : Obligations.MixedWidthAccess := by
  intro s t a v hw hread
  refine ⟨fun k hk => ?_, fun k hk => ?_, fun k hk => ?_, ?_⟩
  · exact memRead_of_memWrite hw hread (by decide) (by decide) (by omega) (by decide) (Nat.one_dvd k)
  · rw [show 16 * k = 8 * (2 * k) by omega]
    exact memRead_of_memWrite hw hread (by decide) (by decide) (by omega) (by decide) (Nat.dvd_mul_right 2 k)
  · rw [show 32 * k = 8 * (4 * k) by omega]
    exact memRead_of_memWrite hw hread (by decide) (by decide) (by omega) (by decide) (Nat.dvd_mul_right 4 k)
  · simpa using memRead_of_memWrite_same hw hread (by decide) (by decide)

/-! A load after a store (R47, R51). -/

/-- A write back changes its register and `pc` and nothing else. -/
theorem writesReg_advance_writeReg (rd : Reg) (v : Word) (s : State) : WritesReg rd v s (advance (writeReg s rd v)) := by
  refine ⟨?_, fun r hr => ?_, ?_, fun b => ?_, ?_⟩
  · rw [readReg_advance, readReg_writeReg, if_pos rfl]
  · rw [readReg_advance, readReg_writeReg, if_neg hr]
  · rw [advance_pc, writeReg_pc]
  · rw [advance_mem, writeReg_mem]
  · rw [advance_params, writeReg_params]

/-- A store leaves the base register as it was, so the same displacement gives the same address. -/
theorem effectiveAddress_advance_of_memWrite {s t : State} {a v : Word} {n : Nat} (h : memWrite s a n v = .ok t)
    (rs1 : Reg) (imm : BitVec 12) : effectiveAddress (advance t) rs1 imm = effectiveAddress s rs1 imm := by
  obtain ⟨-, -, rfl⟩ := memWrite_ok.mp h
  rfl

/-- A load of `n` bytes right after a store of `n` bytes to the same place completes and writes the extended datum. -/
theorem loadInto_after_storeFrom {s t : State} {n : Nat} {rs2 rs1 : Reg} {imm : BitVec 12} (ext : Word → Word) (rd : Reg)
    (hn : n ≤ 8) (hpos : 0 < n) (h : storeFrom n rs2 rs1 imm s = .next t)
    (hread : AllPermitted (readableAt s.params) (effectiveAddress s rs1 imm) n) :
    ∃ u, loadInto n ext rd rs1 imm t = .next u ∧
      WritesReg rd (ext (((readReg s rs2).extractLsb' 0 (8 * n)).setWidth 64)) t u := by
  obtain ⟨u, hu, rfl⟩ := storeFrom_next.mp h
  have hv := memRead_of_memWrite_same hu hread hn hpos
  rw [← effectiveAddress_advance_of_memWrite hu] at hv
  exact ⟨_, loadInto_next.mpr ⟨_, hv, rfl⟩, writesReg_advance_writeReg ..⟩

/-- Sign extension from `n` bits sees these bits only. -/
theorem signExtendLow_setWidth {n : Nat} (x : BitVec n) (hn : n ≤ 64) :
    signExtendLow n (x.setWidth 64) = x.signExtend 64 := by
  rw [signExtendLow, BitVec.setWidth_setWidth_of_le _ hn, BitVec.setWidth_eq]

/-- The same for a load that extends the sign of its datum. -/
theorem loadInto_signExtendLow_after_storeFrom {s t : State} {n : Nat} {rs2 rs1 : Reg} {imm : BitVec 12} (rd : Reg)
    (hn : n ≤ 8) (hpos : 0 < n) (h : storeFrom n rs2 rs1 imm s = .next t)
    (hread : AllPermitted (readableAt s.params) (effectiveAddress s rs1 imm) n) :
    ∃ u, loadInto n (signExtendLow (8 * n)) rd rs1 imm t = .next u ∧
      WritesReg rd (((readReg s rs2).extractLsb' 0 (8 * n)).signExtend 64) t u := by
  have hload := loadInto_after_storeFrom (signExtendLow (8 * n)) rd hn hpos h hread
  rwa [signExtendLow_setWidth _ (by omega)] at hload

/-- Settles O33: `ld` takes the double word whole, and the three narrower loads extend the sign of the datum stored. -/
theorem storeThenLoad : Obligations.StoreThenLoad := by
  intro s t rs2 rs1 rd imm
  refine ⟨fun h hread => ?_, fun h hread => ?_, fun h hread => ?_, fun h hread => ?_⟩
  · obtain ⟨u, hu, hwrites⟩ := loadInto_after_storeFrom id rd (by decide) (by decide) h hread
    exact ⟨u, hu, by simpa using hwrites⟩
  · exact loadInto_signExtendLow_after_storeFrom rd (by decide) (by decide) h hread
  · exact loadInto_signExtendLow_after_storeFrom rd (by decide) (by decide) h hread
  · exact loadInto_signExtendLow_after_storeFrom rd (by decide) (by decide) h hread

end Sys2Proof.Machine
end

section
/-! PROOFS. The two directions of the round trip between words and instructions, and the rows of the opcode table against
words: O2, O3, O4. -/

namespace Sys2Proof

/-- Settles O2, by the row of the instruction's mnemonic. -/
theorem decodeOfEncode : Obligations.DecodeOfEncode := fun _ _ hwf hext => Machine.decode_encode hwf hext

/-! The rows a machine has (R100). -/

theorem mem_presentRows {ext : Bool} {r : OpcodeRow} :
    r ∈ presentRows ext ↔ r ∈ opcodeRows ∧ (r.needsM = true → ext = true) := by
  rw [presentRows, List.mem_filter]
  cases ext <;> simp

theorem admits_iff {r : OpcodeRow} {w : InstrWord} : r.admits w = true ↔ w &&& r.mask = r.pattern := beq_iff_eq

/-- In bits that the mask covers, a masked word is the word. -/
theorem extractLsb'_of_masked {w mask p : InstrWord} (h : w &&& mask = p) {start len : Nat}
    (hfixed : mask.extractLsb' start len = BitVec.allOnes len) : w.extractLsb' start len = p.extractLsb' start len := by
  rw [← h, BitVec.extractLsb'_and, hfixed, BitVec.and_allOnes]

/-! What a row reads from a word it admits, one lemma for each format (R73 to R78). -/

/-- What the row reads from a word it admits is a well-formed instruction, one of EXT_M exactly where the row is, and the
encoder gives the word back. -/
def RowFaithful (r : OpcodeRow) : Prop :=
  ∀ w, r.admits w = true → (r.build w).wf = true ∧ (r.build w).needsM = r.needsM ∧ encode (r.build w) = w

theorem rowFaithful_R {name : String} {p : InstrWord} {m : Bool} (mk : Reg → Reg → Reg → Instr)
    (h : ∀ rd rs1 rs2, (mk rd rs1 rs2).wf = true ∧ (mk rd rs1 rs2).needsM = m ∧
      encode (mk rd rs1 rs2) = encodeR (p.extractLsb' 25 7) rs2 rs1 (p.extractLsb' 12 3) rd (fieldOpcode p)) :
    RowFaithful ⟨name, p, 0xFE00707F#32, m, fun w => mk (fieldRd w) (fieldRs1 w) (fieldRs2 w)⟩ := by
  intro w hw
  have hmask : w &&& 0xFE00707F#32 = p := admits_iff.mp hw
  obtain ⟨hwf, hneeds, hcode⟩ := h (fieldRd w) (fieldRs1 w) (fieldRs2 w)
  have hfunct7 : w.extractLsb' 25 7 = p.extractLsb' 25 7 := extractLsb'_of_masked hmask (by decide)
  have hfunct3 : w.extractLsb' 12 3 = p.extractLsb' 12 3 := extractLsb'_of_masked hmask (by decide)
  have hopcode : fieldOpcode w = fieldOpcode p := extractLsb'_of_masked hmask (by decide)
  refine ⟨hwf, hneeds, ?_⟩
  rw [hcode, ← hfunct7, ← hfunct3, ← hopcode, encodeR_fields]

theorem rowFaithful_I {name : String} {p : InstrWord} {m : Bool} (mk : Reg → Reg → BitVec 12 → Instr)
    (h : ∀ rd rs1 imm, (mk rd rs1 imm).wf = true ∧ (mk rd rs1 imm).needsM = m ∧
      encode (mk rd rs1 imm) = encodeI imm rs1 (p.extractLsb' 12 3) rd (fieldOpcode p)) :
    RowFaithful ⟨name, p, 0x0000707F#32, m, fun w => mk (fieldRd w) (fieldRs1 w) (immI w)⟩ := by
  intro w hw
  have hmask : w &&& 0x0000707F#32 = p := admits_iff.mp hw
  obtain ⟨hwf, hneeds, hcode⟩ := h (fieldRd w) (fieldRs1 w) (immI w)
  have hfunct3 : w.extractLsb' 12 3 = p.extractLsb' 12 3 := extractLsb'_of_masked hmask (by decide)
  have hopcode : fieldOpcode w = fieldOpcode p := extractLsb'_of_masked hmask (by decide)
  refine ⟨hwf, hneeds, ?_⟩
  rw [hcode, ← hfunct3, ← hopcode, encodeI_fields]

theorem rowFaithful_Shift6 {name : String} {p : InstrWord} {m : Bool} (mk : Reg → Reg → BitVec 6 → Instr)
    (h : ∀ rd rs1 sh, (mk rd rs1 sh).wf = true ∧ (mk rd rs1 sh).needsM = m ∧
      encode (mk rd rs1 sh) = encodeShift6 (p.extractLsb' 26 6) sh rs1 (p.extractLsb' 12 3) rd (fieldOpcode p)) :
    RowFaithful ⟨name, p, 0xFC00707F#32, m, fun w => mk (fieldRd w) (fieldRs1 w) (fieldShamt6 w)⟩ := by
  intro w hw
  have hmask : w &&& 0xFC00707F#32 = p := admits_iff.mp hw
  obtain ⟨hwf, hneeds, hcode⟩ := h (fieldRd w) (fieldRs1 w) (fieldShamt6 w)
  have hfunct6 : w.extractLsb' 26 6 = p.extractLsb' 26 6 := extractLsb'_of_masked hmask (by decide)
  have hfunct3 : w.extractLsb' 12 3 = p.extractLsb' 12 3 := extractLsb'_of_masked hmask (by decide)
  have hopcode : fieldOpcode w = fieldOpcode p := extractLsb'_of_masked hmask (by decide)
  refine ⟨hwf, hneeds, ?_⟩
  rw [hcode, ← hfunct6, ← hfunct3, ← hopcode, encodeShift6_fields]

theorem rowFaithful_S {name : String} {p : InstrWord} {m : Bool} (mk : Reg → Reg → BitVec 12 → Instr)
    (h : ∀ rs2 rs1 imm, (mk rs2 rs1 imm).wf = true ∧ (mk rs2 rs1 imm).needsM = m ∧
      encode (mk rs2 rs1 imm) = encodeS imm rs2 rs1 (p.extractLsb' 12 3) (fieldOpcode p)) :
    RowFaithful ⟨name, p, 0x0000707F#32, m, fun w => mk (fieldRs2 w) (fieldRs1 w) (immS w)⟩ := by
  intro w hw
  have hmask : w &&& 0x0000707F#32 = p := admits_iff.mp hw
  obtain ⟨hwf, hneeds, hcode⟩ := h (fieldRs2 w) (fieldRs1 w) (immS w)
  have hfunct3 : w.extractLsb' 12 3 = p.extractLsb' 12 3 := extractLsb'_of_masked hmask (by decide)
  have hopcode : fieldOpcode w = fieldOpcode p := extractLsb'_of_masked hmask (by decide)
  refine ⟨hwf, hneeds, ?_⟩
  rw [hcode, ← hfunct3, ← hopcode, encodeS_fields]

/-- Bit 0 of the B-immediate is 0 (R84). -/
theorem evenBranchOffset_immB (w : InstrWord) : evenBranchOffset (immB w) = true := by
  simp only [evenBranchOffset, immB, BitVec.getLsbD_append]
  simp

theorem rowFaithful_B {name : String} {p : InstrWord} {m : Bool} (mk : Reg → Reg → BitVec 13 → Instr)
    (h : ∀ rs1 rs2 imm, (mk rs1 rs2 imm).wf = evenBranchOffset imm ∧ (mk rs1 rs2 imm).needsM = m ∧
      encode (mk rs1 rs2 imm) = encodeB imm rs2 rs1 (p.extractLsb' 12 3) (fieldOpcode p)) :
    RowFaithful ⟨name, p, 0x0000707F#32, m, fun w => mk (fieldRs1 w) (fieldRs2 w) (immB w)⟩ := by
  intro w hw
  have hmask : w &&& 0x0000707F#32 = p := admits_iff.mp hw
  obtain ⟨hwf, hneeds, hcode⟩ := h (fieldRs1 w) (fieldRs2 w) (immB w)
  have hfunct3 : w.extractLsb' 12 3 = p.extractLsb' 12 3 := extractLsb'_of_masked hmask (by decide)
  have hopcode : fieldOpcode w = fieldOpcode p := extractLsb'_of_masked hmask (by decide)
  refine ⟨hwf.trans (evenBranchOffset_immB w), hneeds, ?_⟩
  rw [hcode, ← hfunct3, ← hopcode, encodeB_fields]

theorem rowFaithful_U {name : String} {p : InstrWord} {m : Bool} (mk : Reg → BitVec 20 → Instr)
    (h : ∀ rd imm, (mk rd imm).wf = true ∧ (mk rd imm).needsM = m ∧ encode (mk rd imm) = encodeU imm rd (fieldOpcode p)) :
    RowFaithful ⟨name, p, 0x0000007F#32, m, fun w => mk (fieldRd w) (immU w)⟩ := by
  intro w hw
  have hmask : w &&& 0x0000007F#32 = p := admits_iff.mp hw
  obtain ⟨hwf, hneeds, hcode⟩ := h (fieldRd w) (immU w)
  have hopcode : fieldOpcode w = fieldOpcode p := extractLsb'_of_masked hmask (by decide)
  refine ⟨hwf, hneeds, ?_⟩
  rw [hcode, ← hopcode, encodeU_fields]

/-- Bit 0 of the J-immediate is 0 (R86). -/
theorem evenJumpOffset_immJ (w : InstrWord) : evenJumpOffset (immJ w) = true := by
  simp only [evenJumpOffset, immJ, BitVec.getLsbD_append]
  simp

theorem rowFaithful_J {name : String} {p : InstrWord} {m : Bool} (mk : Reg → BitVec 21 → Instr)
    (h : ∀ rd imm, (mk rd imm).wf = evenJumpOffset imm ∧ (mk rd imm).needsM = m ∧
      encode (mk rd imm) = encodeJ imm rd (fieldOpcode p)) :
    RowFaithful ⟨name, p, 0x0000007F#32, m, fun w => mk (fieldRd w) (immJ w)⟩ := by
  intro w hw
  have hmask : w &&& 0x0000007F#32 = p := admits_iff.mp hw
  obtain ⟨hwf, hneeds, hcode⟩ := h (fieldRd w) (immJ w)
  have hopcode : fieldOpcode w = fieldOpcode p := extractLsb'_of_masked hmask (by decide)
  refine ⟨hwf.trans (evenJumpOffset_immJ w), hneeds, ?_⟩
  rw [hcode, ← hopcode, encodeJ_fields]

/-! The rows of the table, in its order: the function codes in a row's pattern are those the encoder writes (R90 to R98). -/

theorem rowsOp_faithful : ∀ r ∈ rowsOp, RowFaithful r := by
  simp only [rowsOp, List.forall_mem_cons]
  refine ⟨rowFaithful_R .add ?_, rowFaithful_R .sub ?_, rowFaithful_R .sll ?_, rowFaithful_R .slt ?_,
    rowFaithful_R .sltu ?_, rowFaithful_R .xor ?_, rowFaithful_R .srl ?_, rowFaithful_R .sra ?_, rowFaithful_R .or ?_,
    rowFaithful_R .and ?_, List.forall_mem_nil _⟩ <;> exact fun _ _ _ => ⟨rfl, rfl, rfl⟩

theorem rowsOpImm_faithful : ∀ r ∈ rowsOpImm, RowFaithful r := by
  simp only [rowsOpImm, List.forall_mem_cons]
  refine ⟨rowFaithful_I .addi ?_, rowFaithful_I .slti ?_, rowFaithful_I .sltiu ?_, rowFaithful_I .xori ?_,
    rowFaithful_I .ori ?_, rowFaithful_I .andi ?_, rowFaithful_Shift6 .slli ?_, rowFaithful_Shift6 .srli ?_,
    rowFaithful_Shift6 .srai ?_, List.forall_mem_nil _⟩ <;> exact fun _ _ _ => ⟨rfl, rfl, rfl⟩

theorem rowsLoad_faithful : ∀ r ∈ rowsLoad, RowFaithful r := by
  simp only [rowsLoad, List.forall_mem_cons]
  refine ⟨rowFaithful_I .lb ?_, rowFaithful_I .lh ?_, rowFaithful_I .lw ?_, rowFaithful_I .ld ?_, rowFaithful_I .lbu ?_,
    rowFaithful_I .lhu ?_, rowFaithful_I .lwu ?_, List.forall_mem_nil _⟩ <;> exact fun _ _ _ => ⟨rfl, rfl, rfl⟩

theorem rowsStore_faithful : ∀ r ∈ rowsStore, RowFaithful r := by
  simp only [rowsStore, List.forall_mem_cons]
  refine ⟨rowFaithful_S .sb ?_, rowFaithful_S .sh ?_, rowFaithful_S .sw ?_, rowFaithful_S .sd ?_,
    List.forall_mem_nil _⟩ <;> exact fun _ _ _ => ⟨rfl, rfl, rfl⟩

theorem rowsBranch_faithful : ∀ r ∈ rowsBranch, RowFaithful r := by
  simp only [rowsBranch, List.forall_mem_cons]
  refine ⟨rowFaithful_B .beq ?_, rowFaithful_B .bne ?_, rowFaithful_B .blt ?_, rowFaithful_B .bge ?_,
    rowFaithful_B .bltu ?_, rowFaithful_B .bgeu ?_, List.forall_mem_nil _⟩ <;> exact fun _ _ _ => ⟨rfl, rfl, rfl⟩

theorem rowsJumpUpper_faithful : ∀ r ∈ rowsJumpUpper, RowFaithful r := by
  simp only [rowsJumpUpper, List.forall_mem_cons]
  exact ⟨rowFaithful_I .jalr fun _ _ _ => ⟨rfl, rfl, rfl⟩, rowFaithful_J .jal fun _ _ => ⟨rfl, rfl, rfl⟩,
    rowFaithful_U .lui fun _ _ => ⟨rfl, rfl, rfl⟩, rowFaithful_U .auipc fun _ _ => ⟨rfl, rfl, rfl⟩, List.forall_mem_nil _⟩

theorem rowsWord_faithful : ∀ r ∈ rowsWord, RowFaithful r := by
  simp only [rowsWord, List.forall_mem_cons]
  refine ⟨rowFaithful_I .addiw ?_, rowFaithful_R .slliw ?_, rowFaithful_R .srliw ?_, rowFaithful_R .sraiw ?_,
    rowFaithful_R .addw ?_, rowFaithful_R .subw ?_, rowFaithful_R .sllw ?_, rowFaithful_R .srlw ?_,
    rowFaithful_R .sraw ?_, List.forall_mem_nil _⟩ <;> exact fun _ _ _ => ⟨rfl, rfl, rfl⟩

theorem rowsMulDiv_faithful : ∀ r ∈ rowsMulDiv, RowFaithful r := by
  simp only [rowsMulDiv, List.forall_mem_cons]
  refine ⟨rowFaithful_R .mul ?_, rowFaithful_R .div ?_, rowFaithful_R .rem ?_, List.forall_mem_nil _⟩ <;>
    exact fun _ _ _ => ⟨rfl, rfl, rfl⟩

theorem opcodeRows_faithful : ∀ r ∈ opcodeRows, RowFaithful r := by
  simp only [opcodeRows, List.forall_mem_append]
  exact ⟨⟨⟨⟨⟨⟨⟨rowsOp_faithful, rowsOpImm_faithful⟩, rowsLoad_faithful⟩, rowsStore_faithful⟩, rowsBranch_faithful⟩,
    rowsJumpUpper_faithful⟩, rowsWord_faithful⟩, rowsMulDiv_faithful⟩

/-- Settles O3: the word was decoded by a row, and every row of the table is faithful. -/
theorem encodeOfDecode : Obligations.EncodeOfDecode := by
  intro ext w i h
  obtain ⟨-, r, hr, hadmits, rfl⟩ := decode_instr h
  obtain ⟨hrow, hpresent⟩ := mem_presentRows.mp hr
  obtain ⟨hwf, hneeds, hencode⟩ := opcodeRows_faithful r hrow w hadmits
  exact ⟨hwf, fun hm => hpresent (hneeds ▸ hm), hencode⟩

/-! Rows and words (R100). -/

theorem isUnspecifiedOpcode_iff {w : InstrWord} : isUnspecifiedOpcode w = true ↔ Machine.RefusedOpcode w := by
  simp [isUnspecifiedOpcode, fieldOpcode, Machine.RefusedOpcode, BitVec.extractLsb]

/-- The rows of EXT_M are three, by name (R100, R225). -/
theorem needsM_iff_mnemonic : ∀ r ∈ opcodeRows,
    r.needsM = false ↔ r.mnemonic ≠ "mul" ∧ r.mnemonic ≠ "div" ∧ r.mnemonic ≠ "rem" := by
  decide

/-- Settles O4: the search over pairwise disjoint rows finds each row that admits the word, so there is one only. -/
theorem rowsAreDisjoint : Obligations.RowsAreDisjoint := by
  refine ⟨fun w r q hr hq hrw hqw => ?_, fun ext w r hr hrw hrefused => ?_, fun r => ?_⟩
  · have hdisjoint := List.pairwise_map.mp patterns_disjoint
    have hfind := find_admits hdisjoint hr (admits_iff.mpr hrw)
    exact Option.some.inj (hfind.symm.trans (find_admits hdisjoint hq (admits_iff.mpr hqw)))
  · have hopcode : isUnspecifiedOpcode w = false := Bool.eq_false_iff.mpr (mt isUnspecifiedOpcode_iff.mp hrefused)
    exact decode_of_row hopcode hr (admits_iff.mpr hrw)
  · rw [mem_presentRows]
    refine and_congr_right fun hr => ?_
    rw [← needsM_iff_mnemonic r hr]
    simp

end Sys2Proof
end

section
/-! PROOFS. The words no row admits (R101), from what the rows of each opcode ask of the function codes: O5, O6, O7. -/

namespace Sys2Proof

/-- A word is illegal where it has no refused opcode and no present row admits it (R101, R253). -/
theorem decode_illegal_iff {ext : Bool} {w : InstrWord} :
    decode ext w = .illegal ↔ ¬ Machine.RefusedOpcode w ∧ ∀ r ∈ presentRows ext, ¬ r.admits w = true := by
  rw [← List.find?_eq_none, ← isUnspecifiedOpcode_iff, decode]
  cases isUnspecifiedOpcode w <;> cases (presentRows ext).find? (·.admits w) <;> simp

/-! The opcodes of the table (R90). -/

theorem masks_cover_opcode : ∀ r ∈ opcodeRows, fieldOpcode r.mask = BitVec.allOnes 7 := by decide

theorem patterns_have_listed_opcode : ∀ r ∈ opcodeRows, fieldOpcode r.pattern ∈ Machine.listedOpcodes := by decide

theorem fieldOpcode_of_admits {r : OpcodeRow} {w : InstrWord} (hr : r ∈ opcodeRows) (h : r.admits w = true) :
    fieldOpcode w = fieldOpcode r.pattern :=
  extractLsb'_of_masked (admits_iff.mp h) (masks_cover_opcode r hr)

theorem not_refusedOpcode_of_listed {w : InstrWord} (h : fieldOpcode w ∈ Machine.listedOpcodes) :
    ¬ Machine.RefusedOpcode w := by
  have hlisted : w.extractLsb 6 0 ∈ Machine.listedOpcodes := h
  rintro (hop | hop)
  · exact absurd (hop ▸ hlisted) (by decide)
  · exact absurd (hop ▸ hlisted) (by decide)

/-- A word whose opcode is not in the opcode map is illegal, unless it is refused. -/
theorem decode_illegal_of_unlisted {ext : Bool} {w : InstrWord} (hlisted : fieldOpcode w ∉ Machine.listedOpcodes)
    (hrefused : ¬ Machine.RefusedOpcode w) : decode ext w = .illegal := by
  refine decode_illegal_iff.mpr ⟨hrefused, fun r hr hadmits => hlisted ?_⟩
  obtain ⟨hrow, -⟩ := mem_presentRows.mp hr
  exact fieldOpcode_of_admits hrow hadmits ▸ patterns_have_listed_opcode r hrow

/-! The function codes of an opcode. -/

/-- `funct3`, `inst[14:12]` (R72). -/
def fieldFunct3 (w : InstrWord) : BitVec 3 := w.extractLsb' 12 3

/-- Each present row of an opcode fixes `funct3`, and either it fixes the upper field at `start` too and `P` holds of the
two codes, or `P` holds of its `funct3` with every upper field. -/
abbrev RowsAsk (ext : Bool) (op : BitVec 7) (start : Nat) {len : Nat} (P : BitVec 3 → BitVec len → Prop) : Prop :=
  ∀ r ∈ presentRows ext, fieldOpcode r.pattern = op → fieldFunct3 r.mask = BitVec.allOnes 3 ∧
    ((r.mask.extractLsb' start len = BitVec.allOnes len ∧ P (fieldFunct3 r.pattern) (r.pattern.extractLsb' start len)) ∨
      ∀ upper, P (fieldFunct3 r.pattern) upper)

/-- A word of a listed opcode with function codes that no present row of it asks for is illegal. -/
theorem decode_illegal_of_rowsAsk {ext : Bool} {op : BitVec 7} {start len : Nat} {P : BitVec 3 → BitVec len → Prop}
    (hask : RowsAsk ext op start P) (hlisted : op ∈ Machine.listedOpcodes) {w : InstrWord} (hop : fieldOpcode w = op)
    (hw : ¬ P (fieldFunct3 w) (w.extractLsb' start len)) : decode ext w = .illegal := by
  refine decode_illegal_iff.mpr ⟨not_refusedOpcode_of_listed (hop ▸ hlisted), fun r hr hadmits => hw ?_⟩
  have hrowop := fieldOpcode_of_admits (mem_presentRows.mp hr).1 hadmits
  obtain ⟨hfix3, hcodes⟩ := hask r hr (hrowop.symm.trans hop)
  rw [show fieldFunct3 w = fieldFunct3 r.pattern from extractLsb'_of_masked (admits_iff.mp hadmits) hfix3]
  obtain ⟨hfix, hP⟩ | hP := hcodes
  · rwa [extractLsb'_of_masked (admits_iff.mp hadmits) hfix]
  · exact hP _

/-- `funct7` and `funct3` of OP (R94), those of `mul`, `div` and `rem` with EXT_M. -/
abbrev OpCodes (ext : Bool) (f3 : BitVec 3) (f7 : BitVec 7) : Prop :=
  f7 = 0b0000000#7 ∨ (f7 = 0b0100000#7 ∧ (f3 = 0b000#3 ∨ f3 = 0b101#3)) ∨
    (ext = true ∧ f7 = 0b0000001#7 ∧ (f3 = 0b000#3 ∨ f3 = 0b100#3 ∨ f3 = 0b110#3))

/-- `funct3` and, of the shifts, `funct7` of OP-IMM-32 (R95). -/
abbrev OpImm32Codes (f3 : BitVec 3) (f7 : BitVec 7) : Prop :=
  f3 = 0b000#3 ∨ (f3 = 0b001#3 ∧ f7 = 0b0000000#7) ∨ (f3 = 0b101#3 ∧ (f7 = 0b0000000#7 ∨ f7 = 0b0100000#7))

/-- `funct7` and `funct3` of OP-32 (R96). -/
abbrev Op32Codes (f3 : BitVec 3) (f7 : BitVec 7) : Prop :=
  (f7 = 0b0000000#7 ∧ (f3 = 0b000#3 ∨ f3 = 0b001#3 ∨ f3 = 0b101#3)) ∨
    (f7 = 0b0100000#7 ∧ (f3 = 0b000#3 ∨ f3 = 0b101#3))

theorem rowsAsk_load (ext : Bool) : RowsAsk ext 0b0000011#7 12 fun f3 (_ : BitVec 3) => f3 ≠ 0b111#3 := by
  cases ext <;> decide

theorem rowsAsk_store (ext : Bool) : RowsAsk ext 0b0100011#7 14 fun _ (b : BitVec 1) => b ≠ 1#1 := by
  cases ext <;> decide

theorem rowsAsk_branch (ext : Bool) : RowsAsk ext 0b1100011#7 13 fun _ (b : BitVec 2) => b ≠ 0b01#2 := by
  cases ext <;> decide

theorem rowsAsk_jalr (ext : Bool) : RowsAsk ext 0b1100111#7 12 fun f3 (_ : BitVec 3) => f3 = 0b000#3 := by
  cases ext <;> decide

theorem rowsAsk_op (ext : Bool) : RowsAsk ext 0b0110011#7 25 (OpCodes ext) := by
  cases ext <;> decide

theorem rowsAsk_opImm32 (ext : Bool) : RowsAsk ext 0b0011011#7 25 OpImm32Codes := by
  cases ext <;> decide

theorem rowsAsk_op32 (ext : Bool) : RowsAsk ext 0b0111011#7 25 Op32Codes := by
  cases ext <;> decide

/-- The 6-bit function code of the shifts of OP-IMM (R93, R102). -/
theorem rowsAsk_opImm_shift (ext : Bool) : RowsAsk ext 0b0010011#7 26 fun f3 (f6 : BitVec 6) =>
    (f3 = 0b001#3 → f6 = 0b000000#6) ∧ (f3 = 0b101#3 → f6 = 0b000000#6 ∨ f6 = 0b010000#6) := by
  cases ext <;> decide

/-- Bit 25 of the shifts of OP-IMM-32 (R95, R102). -/
theorem rowsAsk_opImm32_shift (ext : Bool) : RowsAsk ext 0b0011011#7 25 fun f3 (b : BitVec 1) =>
    f3 = 0b001#3 ∨ f3 = 0b101#3 → b = 0#1 := by
  cases ext <;> decide

theorem extractLsb'_one_eq_one {w : InstrWord} {k : Nat} (h : w.getLsbD k = true) : w.extractLsb' k 1 = 1#1 := by
  apply BitVec.eq_of_getLsbD_eq
  intro i hi
  obtain rfl : i = 0 := by omega
  simp [h]

/-- Settles O6, by what the rows of the shifts ask of the code above the shift amount. -/
theorem reservedShiftWordsAreIllegal : Obligations.ReservedShiftWordsAreIllegal := by
  intro ext w
  refine ⟨fun hop hf3 hbit => ?_, fun hop hf3 hf6 => ?_, fun hop hf3 hf6 hf6' => ?_⟩
  · refine decode_illegal_of_rowsAsk (rowsAsk_opImm32_shift ext) (by decide) hop fun h => ?_
    exact absurd (h hf3) (by simp [extractLsb'_one_eq_one hbit])
  · exact decode_illegal_of_rowsAsk (rowsAsk_opImm_shift ext) (by decide) hop fun ⟨h, _⟩ => hf6 (h hf3)
  · exact decode_illegal_of_rowsAsk (rowsAsk_opImm_shift ext) (by decide) hop fun ⟨_, h⟩ => (h hf3).elim hf6 hf6'

/-- Settles O7: the opcode by R90, the function codes by what the rows of each opcode ask. -/
theorem unlistedCodesAreIllegal : Obligations.UnlistedCodesAreIllegal := by
  intro ext w
  refine ⟨decode_illegal_of_unlisted, fun hop hf3 => ?_, fun hop hbit => ?_, fun hop hbits => ?_, fun hop hf3 => ?_,
    fun hop hcodes => ?_, fun hop hcodes => ?_, fun hop hcodes => ?_⟩
  · exact decode_illegal_of_rowsAsk (rowsAsk_load ext) (by decide) hop (not_not.mpr hf3)
  · exact decode_illegal_of_rowsAsk (rowsAsk_store ext) (by decide) hop (not_not.mpr (extractLsb'_one_eq_one hbit))
  · exact decode_illegal_of_rowsAsk (rowsAsk_branch ext) (by decide) hop (not_not.mpr hbits)
  · exact decode_illegal_of_rowsAsk (rowsAsk_jalr ext) (by decide) hop hf3
  · exact decode_illegal_of_rowsAsk (rowsAsk_op ext) (by decide) hop hcodes
  · exact decode_illegal_of_rowsAsk (rowsAsk_opImm32 ext) (by decide) hop hcodes
  · exact decode_illegal_of_rowsAsk (rowsAsk_op32 ext) (by decide) hop hcodes

theorem step_of_decode_illegal {s : Machine.State} {w : InstrWord} (hw : Machine.Fetches s w)
    (h : decode s.params.extM w = .illegal) : Machine.step s = .fault (.illegalInstruction s.pc w) := by
  obtain ⟨-, -, -, -, hillegal⟩ := Machine.stepChecksInOrder s
  exact hillegal w hw h

/-- Every opcode of the opcode map and every refused one ends in `11` (R90, R101, R104). -/
theorem low_bits_of_known_opcode :
    ∀ op, op ∈ Machine.listedOpcodes ∨ op = 0b1110011#7 ∨ op = 0b0001111#7 → op.extractLsb' 0 2 = 0b11#2 := by decide

theorem low_bits_of_listed_or_refused {w : InstrWord}
    (h : fieldOpcode w ∈ Machine.listedOpcodes ∨ Machine.RefusedOpcode w) : w.extractLsb 1 0 = 0b11#2 := by
  have hlow : (fieldOpcode w).extractLsb' 0 2 = w.extractLsb 1 0 := BitVec.extractLsb'_extractLsb'_of_le (by decide)
  exact hlow.symm.trans (low_bits_of_known_opcode (fieldOpcode w) h)

/-- Settles O5 by the clause of R253 for illegal words: the three kinds of word named have no listed opcode, and no refused
one. -/
theorem unlistedWordIsIllegal : Obligations.UnlistedWordIsIllegal := by
  refine ⟨fun s w hw hrefused hrows => ?_, fun s w hw hkind => step_of_decode_illegal hw ?_⟩
  · exact step_of_decode_illegal hw
      (decode_illegal_iff.mpr ⟨hrefused, fun r hr hadmits => hrows r hr (admits_iff.mp hadmits)⟩)
  · obtain rfl | rfl | hlow := hkind
    · exact decode_illegal_of_unlisted (by decide) (by decide)
    · exact decode_illegal_of_unlisted (by decide) (by decide)
    · exact decode_illegal_of_unlisted (fun h => hlow (low_bits_of_listed_or_refused (.inl h)))
        fun h => hlow (low_bits_of_listed_or_refused (.inr h))

end Sys2Proof
end

section
/-! PROOFS. A constant rebuilt from its upper and lower part (R108), and the pair `auipc`, `addi` of `la` (R205): O58. -/

namespace Sys2Proof.Machine

/-! The two parts of a 32-bit constant (R108). -/

theorem toNat_hiPart (v : BitVec 32) : (hiPart v).toNat = (v.toNat / 4096 + v.toNat / 2048 % 2) % 2 ^ 20 := by
  simp only [hiPart, BitVec.toNat_add, BitVec.extractLsb'_toNat, BitVec.toNat_setWidth, Nat.shiftRight_eq_div_pow]
  omega

theorem toNat_loPart (v : BitVec 32) : (loPart v).toNat = v.toNat % 4096 := by
  simp [loPart, BitVec.extractLsb'_toNat]

theorem toInt_upper (imm : BitVec 20) : (imm ++ 0#12 : BitVec 32).toInt = (imm.toNat * 4096 : Int).bmod (2 ^ 32) := by
  rw [BitVec.toInt_eq_toNat_bmod, BitVec.toNat_append]
  simp [Nat.shiftLeft_eq]

/-- The two parts, each sign-extended, add up to the constant as a signed number, but for the constants whose upper part
is carried over into the sign (R204, R205). -/
theorem upperImm_hiPart_add_imm12_loPart (v : BitVec 32) :
    upperImm (hiPart v) + imm12 (loPart v) = BitVec.ofInt 64 (if HiCarries v then v.toInt - 2 ^ 32 else v.toInt) := by
  have hsum : (hiPart v ++ 0#12 : BitVec 32).toInt + (loPart v).toInt = if HiCarries v then v.toInt - 2 ^ 32 else v.toInt := by
    have hv := v.isLt
    rw [toInt_upper, toNat_hiPart, BitVec.toInt_eq_toNat_bmod, toNat_loPart, BitVec.toInt_eq_toNat_cond]
    simp only [HiCarries, Int.bmod]
    omega
  rw [upperImm, imm12, BitVec.signExtend, BitVec.signExtend, ← BitVec.ofInt_add, hsum]

/-! The pair of instructions. -/

/-- After an instruction that writes `v` to `rd`, an `addi` of `rd` to itself: the pair writes the sum and goes on. -/
theorem runs_then_addi {i : Instr} {rd : Reg} {v : Word} {s : State} (h : exec i s = writeBack rd v s) (lo : BitVec 12) :
    ∃ t, Runs [i, .addi rd rd lo] s t ∧ readReg t rd = (if rd = 0#5 then 0#64 else v + imm12 lo) ∧ SameRegsBut rd s t ∧
      SameMemory s t ∧ t.pc = s.pc + 8#64 ∧ t.params = s.params := by
  obtain ⟨hrd, hregs, hpc, hmem, hparams⟩ := writesReg_advance_writeReg rd v s
  set u := advance (writeReg s rd v)
  obtain ⟨hrd', hregs', hpc', hmem', hparams'⟩ := writesReg_advance_writeReg rd (readReg u rd + imm12 lo) u
  refine ⟨_, ⟨u, h, _, rfl, rfl⟩, ?_, fun r hr => (hregs' r hr).trans (hregs r hr), fun a => (hmem' a).trans (hmem a), ?_,
    hparams'.trans hparams⟩
  · rw [hrd', hrd]
    split <;> rfl
  · rw [hpc', hpc, BitVec.add_assoc]
    rfl

/-! The distance to a target (R108, log entry 23). -/

theorem pcDelta_eq (ind : BitVec 32) (pc : Word) : pcDelta ind pc = ind - pc.extractLsb' 0 32 := by
  rw [pcDelta, BitVec.setWidth_eq_extractLsb' (by decide)]

/-- A distance that has 32 bits and is no exception of R205 is the low half of the 64-bit distance, read with its sign. -/
theorem toInt_delta_of_near {target pc : Word} (hlow : -2 ^ 31 ≤ (target - pc).toInt)
    (hhigh : (target - pc).toInt ≤ 2 ^ 31 - 2049) :
    (target.extractLsb' 0 32 - pc.extractLsb' 0 32).toInt = (target - pc).toInt ∧
      ¬ HiCarries (target.extractLsb' 0 32 - pc.extractLsb' 0 32) := by
  have hd : target.extractLsb' 0 32 - pc.extractLsb' 0 32 = (target - pc).extractLsb' 0 32 := by
    apply BitVec.eq_of_toNat_eq
    simp only [BitVec.toNat_sub, BitVec.extractLsb'_toNat, Nat.shiftRight_zero]
    omega
  rw [hd, HiCarries]
  generalize target - pc = d at *
  simp only [BitVec.toInt_eq_toNat_cond, BitVec.extractLsb'_toNat, Nat.shiftRight_zero] at *
  omega

/-- Settles O58: the pair writes `pc` plus the two parts of the distance, and a near target is that distance from `pc`. -/
theorem loadAddressPseudo : Obligations.LoadAddressPseudo := by
  rintro s rd ind delta rfl
  rw [← pcDelta_eq]
  refine ⟨⟨_, _, rfl, toNat_hiPart _, toNat_loPart _⟩, ?_⟩
  obtain ⟨t, hruns, hrd, hframe⟩ :=
    runs_then_addi (i := .auipc rd (pcrelHi ind s.pc)) (s := s) rfl (pcrelLo ind s.pc)
  rw [BitVec.add_assoc, pcrelHi, pcrelLo, upperImm_hiPart_add_imm12_loPart] at hrd
  refine ⟨t, _, hruns, rfl, fun target hind hlow hhigh => ?_, hrd, hframe⟩
  obtain ⟨hdelta, hcarry⟩ := toInt_delta_of_near hlow hhigh
  rw [pcDelta_eq, hind, if_neg hcarry, hdelta, BitVec.ofInt_toInt, BitVec.add_comm,
    BitVec.sub_add_cancel]

end Sys2Proof.Machine
end

section
/-! PROOFS. What the assembler places and where its first free byte goes (R109, R112): O59. -/

namespace Sys2Proof.Machine

/-! The first free byte. -/

@[simp] theorem moveTo_here (m : Assembly) (a : Nat) : (m.moveTo a).here = a := by
  cases h : m.segment <;> simp [Assembly.moveTo, Assembly.here, h]

@[simp] theorem moveTo_image (m : Assembly) (a : Nat) : (m.moveTo a).image = m.image := by
  cases h : m.segment <;> simp [Assembly.moveTo, h]

/-! Placing bytes (R112). -/

theorem place_image (m : Assembly) (bs : List Byte) : (m.place bs).image = m.image ++ cellsAt m.here bs := rfl

theorem place_here (m : Assembly) (bs : List Byte) : (m.place bs).here = m.here + bs.length :=
  moveTo_here m _

theorem place_nil (m : Assembly) : m.place [] = m := by
  rcases m with ⟨_ | _⟩ <;> simp [Assembly.place, Assembly.here, Assembly.moveTo, cellsAt]

theorem cellsAt_append (a : Nat) (bs cs : List Byte) : cellsAt a (bs ++ cs) = cellsAt a bs ++ cellsAt (a + bs.length) cs := by
  induction bs generalizing a with
  | nil => rfl
  | cons b bs ih => simp [cellsAt, ih, Nat.add_assoc, Nat.add_comm 1]

/-- Bytes placed after bytes stand where the two lists placed as one stand. -/
theorem place_append (m : Assembly) (bs cs : List Byte) : m.place (bs ++ cs) = (m.place bs).place cs := by
  rcases m with ⟨_ | _⟩ <;> simp [Assembly.place, Assembly.here, Assembly.moveTo, cellsAt_append, Nat.add_assoc]

/-! The bytes of a datum, low byte first (R42). -/

theorem bytesOfValue_eq_map (v : Word) (n : Nat) :
    bytesOfValue v n = (List.range n).map fun k => v.extractLsb' (8 * k) 8 := by
  refine List.ext_getElem (by simp) fun k hk _ => ?_
  rw [getElem_bytesOfValue]
  simp

/-- A byte inside a datum is a byte of the value it is extended to. -/
theorem extractLsb'_setWidth {w : Nat} (v : BitVec w) {k : Nat} (hw : w ≤ 64) :
    (v.setWidth 64).extractLsb' k 8 = v.extractLsb' k 8 := by
  apply BitVec.eq_of_getLsbD_eq
  intro i hi
  simp only [BitVec.getLsbD_extractLsb', BitVec.getLsbD_setWidth]
  by_cases hk : k + i < 64
  · simp [hk]
  · simp [hk, BitVec.getLsbD_of_ge v (k + i) (by omega)]

theorem bytesOfValue_setWidth {w : Nat} (v : BitVec w) (hw : w ≤ 64) (n : Nat) :
    bytesOfValue (v.setWidth 64) n = (List.range n).map fun k => v.extractLsb' (8 * k) 8 := by
  simp only [bytesOfValue_eq_map, extractLsb'_setWidth v hw]

/-! Alignment (R109). -/

theorem alignUp_mod (a n : Nat) : alignUp a n % 2 ^ n = 0 := Nat.mul_mod_left _ _

/-- The next multiple is less than one multiple away. -/
theorem alignUp_bounds (a n : Nat) : a ≤ alignUp a n ∧ alignUp a n < a + 2 ^ n := by
  have hpos : 0 < 2 ^ n := Nat.two_pow_pos n
  have hdiv := Nat.div_add_mod' (a + 2 ^ n - 1) (2 ^ n)
  have hmod := Nat.mod_lt (a + 2 ^ n - 1) hpos
  unfold alignUp
  omega

/-- Settles O59: a list of data places the bytes of its first datum and then those of the rest. -/
theorem dataDirectives : Obligations.DataDirectives := by
  intro m h w d num n chars
  obtain ⟨hle, hlt⟩ := alignUp_bounds m.here n.val
  refine ⟨fun bs => ⟨rfl, rfl⟩, place_nil m, place_nil m, place_nil m, fun hs => ?_, fun ws => ?_, fun ds => ?_, rfl, rfl,
    moveTo_image m _, moveTo_here m _, fun bs => ⟨place_here m bs, place_image m bs⟩, moveTo_image m _, ?_, ?_, ?_⟩
  · simp only [Assembly.directive, List.flatMap_cons, place_append, bytesOfValue_setWidth h (by decide)]
    rfl
  · simp only [Assembly.directive, List.flatMap_cons, place_append, bytesOfValue_setWidth w (by decide)]
    rfl
  · simp only [Assembly.directive, List.flatMap_cons, place_append, bytesOfValue_eq_map d]
  · simpa only [Assembly.directive, moveTo_here] using alignUp_mod m.here n.val
  · simpa only [Assembly.directive, moveTo_here] using hle
  · simpa only [Assembly.directive, moveTo_here] using hlt

end Sys2Proof.Machine
end

section
/-! PROOFS. What a row of the table says of every word, and words the spec writes out: O1. -/

namespace Sys2Proof

/-! The words of one row (R100, R225). -/

theorem not_refusedOpcode_of_admits {r : OpcodeRow} {w : InstrWord} (hr : r ∈ opcodeRows) (h : r.admits w = true) :
    ¬ Machine.RefusedOpcode w :=
  not_refusedOpcode_of_listed (fieldOpcode_of_admits hr h ▸ patterns_have_listed_opcode r hr)

/-- A word that a present row admits is the instruction the row reads from it. -/
theorem decode_of_presentRow {ext : Bool} {r : OpcodeRow} {w : InstrWord} (hr : r ∈ presentRows ext)
    (hw : w &&& r.mask = r.pattern) : decode ext w = .instr (r.build w) := by
  obtain ⟨-, hdecode, -⟩ := rowsAreDisjoint
  exact hdecode ext w r hr hw (not_refusedOpcode_of_admits (mem_presentRows.mp hr).1 (admits_iff.mpr hw))

/-- A word of a row of EXT_M is illegal where EXT_M is false: no other row admits it. -/
theorem decode_illegal_of_needsM {r : OpcodeRow} {w : InstrWord} (hr : r ∈ opcodeRows) (hm : r.needsM = true)
    (hw : w &&& r.mask = r.pattern) : decode false w = .illegal := by
  obtain ⟨hunique, -, -⟩ := rowsAreDisjoint
  refine decode_illegal_iff.mpr ⟨not_refusedOpcode_of_admits hr (admits_iff.mpr hw), fun q hq hqw => ?_⟩
  obtain ⟨hqrow, hqpresent⟩ := mem_presentRows.mp hq
  obtain rfl : r = q := hunique w r q hr hqrow hw (admits_iff.mp hqw)
  exact Bool.false_ne_true (hqpresent hm)

/-- The row at a place of the table, if it is not of EXT_M, gives the encoding it spells out. -/
theorem encodedAs_of_row (n : Nat) {name : String} {p mask : InstrWord} {build : InstrWord → Instr}
    (hr : opcodeRows[n]? = some ⟨name, p, mask, false, build⟩) : Machine.EncodedAs p mask build := fun _ _ hw =>
  decode_of_presentRow (mem_presentRows.mpr ⟨List.mem_of_getElem? hr, fun h => absurd h Bool.false_ne_true⟩) hw

/-- The row at a place of the table, if it is of EXT_M, is there with EXT_M alone. -/
theorem encodedM_of_row (n : Nat) {name : String} {p : InstrWord} {mk : Reg → Reg → Reg → Instr}
    (hr : opcodeRows[n]? = some ⟨name, p, 0xFE00707F#32, true, fun w => mk (fieldRd w) (fieldRs1 w) (fieldRs2 w)⟩) :
    Machine.EncodedM p mk := fun _ hw =>
  have hrow := List.mem_of_getElem? hr
  ⟨decode_of_presentRow (mem_presentRows.mpr ⟨hrow, fun _ => rfl⟩) hw, decode_illegal_of_needsM hrow rfl hw⟩

/-! The words of the worked examples. -/

/-- A word that encodes a well-formed instruction of the base set decodes to it. -/
theorem decode_of_encode_eq {ext : Bool} {w : InstrWord} {i : Instr} (hw : encode i = w) (hwf : i.wf = true)
    (hm : i.needsM = false) : decode ext w = .instr i :=
  hw ▸ decodeOfEncode ext i hwf fun h => absurd (hm.symm.trans h) Bool.false_ne_true

/-- Settles O1: each word is the encoding of the instruction named, and `mul` is the row of EXT_M. -/
theorem knownWordsDecode : Obligations.KnownWordsDecode := by
  obtain ⟨hmul, hillegal⟩ := encodedM_of_row (mk := Instr.mul) 49 rfl 0x027302B3#32 (by decide)
  refine ⟨?_, ?_, ?_, ?_, ?_, ?_, ?_, ?_, ?_, ?_, ?_, ?_, hmul, hillegal⟩
  all_goals exact decode_of_encode_eq rfl rfl rfl

end Sys2Proof
end

section
/-! PROOFS. Sums and differences modulo 2^64, and the pseudo-instructions that copy, negate and complement: O34, O54. -/

namespace Sys2Proof.Machine

/-- An instruction executed as a write back completes, with the value written. -/
theorem writes_of_writeBack {i : Instr} {rd : Reg} {v : Word} {s : State} {P : Word → Prop}
    (h : exec i s = writeBack rd v s) (hv : P v) : Writes i rd s P :=
  ⟨v, hv, _, h, writesReg_advance_writeReg rd v s⟩

/-! Sums and differences as integers (R120). -/

/-- The sum with a sign-extended constant (R81, R122, R185). -/
theorem toNat_add_imm12 (x : Word) (imm : BitVec 12) : ((x + imm12 imm).toNat : Int) = (x.toNat + imm.toInt) % 2 ^ 64 := by
  rw [imm12, BitVec.signExtend, BitVec.toNat_add, BitVec.toNat_ofInt]
  omega

theorem toNat_sub_word (x y : Word) : ((x - y).toNat : Int) = (x.toNat - y.toNat) % 2 ^ 64 := by
  rw [BitVec.toNat_sub]
  omega

/-- Settles O34: the three are rows of the table, and each writes back the sum or difference. -/
theorem addSub : Obligations.AddSub := by
  refine ⟨encodedAs_of_row 0 rfl, encodedAs_of_row 10 rfl, encodedAs_of_row 1 rfl, fun s rd rs1 rs2 imm => ⟨?_, ?_, ?_⟩⟩
  · exact writes_of_writeBack rfl (BitVec.toNat_add ..)
  · exact writes_of_writeBack rfl (toNat_add_imm12 ..)
  · exact writes_of_writeBack rfl (toNat_sub_word ..)

/-! One instruction in place of a pseudo-instruction (R107). -/

theorem runs_singleton_of_writeBack {i : Instr} {rd : Reg} {v : Word} {s : State} (h : exec i s = writeBack rd v s) :
    ∃ t, Runs [i] s t ∧ WritesReg rd v s t :=
  ⟨_, ⟨_, h, rfl⟩, writesReg_advance_writeReg rd v s⟩

/-- A write to `x0` changes `pc` alone (R21). -/
theorem onlyPc_of_writesReg_zero {v : Word} {s t : State} (h : WritesReg 0#5 v s t) : OnlyPc (s.pc + 4#64) s t := by
  obtain ⟨-, hregs, hpc, hmem, hparams⟩ := h
  refine ⟨hpc, fun r => ?_, hmem, hparams⟩
  by_cases hr : r = 0#5
  · rw [hr, readReg_zero, readReg_zero]
  · exact hregs r hr

/-! The values written. -/

theorem add_imm12_zero (x : Word) : x + imm12 0#12 = x := BitVec.add_zero x

theorem toNat_zero_sub (x : Word) : ((0#64 - x).toNat : Int) = -x.toNat % 2 ^ 64 := by
  simpa using toNat_sub_word 0#64 x

/-- The constant -1, extended, has every bit set (R147). -/
theorem getLsbD_xor_imm12_neg_one (x : Word) {j : Nat} (hj : j < 64) : (x ^^^ imm12 0xFFF#12).getLsbD j = !x.getLsbD j := by
  have hones : imm12 0xFFF#12 = BitVec.allOnes 64 := rfl
  rw [hones, BitVec.xor_allOnes, BitVec.getLsbD_not, decide_eq_true hj, Bool.true_and]

/-- The low word of a value, extended, as an integer: the value's residue around 0 (R210). -/
theorem toInt_wordResult_lowWord (x : Word) : (wordResult (lowWord x)).toInt = Int.bmod x.toNat (2 ^ 32) := by
  rw [wordResult, lowWord, BitVec.toInt_signExtend_of_le (by decide), ← BitVec.setWidth_eq_extractLsb' (by decide),
    BitVec.toInt_setWidth]

/-- Settles O54: each expansion is one instruction that writes back, and the value it writes is the one its rule gives. -/
theorem copyPseudos : Obligations.CopyPseudos := by
  refine ⟨rfl, fun s pc rd rs1 => ⟨rfl, rfl, rfl, rfl, rfl, ?nop, ?neg, ?not, ?mv, ?sextW⟩⟩
  case nop =>
    obtain ⟨t, hruns, hwrites⟩ := runs_singleton_of_writeBack (i := .addi 0#5 0#5 0#12) (s := s) rfl
    exact ⟨t, hruns, onlyPc_of_writesReg_zero hwrites⟩
  case neg =>
    obtain ⟨t, hruns, hwrites⟩ := runs_singleton_of_writeBack (i := .sub rd 0#5 rs1) (s := s) rfl
    exact ⟨t, _, hruns, hwrites, toNat_zero_sub _⟩
  case not =>
    obtain ⟨t, hruns, hwrites⟩ := runs_singleton_of_writeBack (i := .xori rd rs1 0xFFF#12) (s := s) rfl
    exact ⟨t, _, hruns, hwrites, fun j hj => getLsbD_xor_imm12_neg_one _ hj⟩
  case mv => exact runs_singleton_of_writeBack (congrArg (writeBack rd · s) (add_imm12_zero (readReg s rs1)))
  case sextW =>
    obtain ⟨t, hruns, hwrites⟩ := runs_singleton_of_writeBack (i := .addiw rd rs1 0#12) (s := s) rfl
    rw [add_imm12_zero] at hwrites
    exact ⟨t, _, hruns, hwrites, toInt_wordResult_lowWord _⟩

end Sys2Proof.Machine
end

section
/-! PROOFS. The comparisons that write 1 or 0 in a register: O35. -/

namespace Sys2Proof.Machine

/-! The values compared, as integers (R8, R130). -/

theorem condWord_decide (p : Prop) [Decidable p] : condWord (decide p) = if p then 1#64 else 0#64 := by
  simp only [condWord, decide_eq_true_eq]

/-- Read as a signed integer, the extended constant is the constant (R81, R132). -/
theorem toInt_imm12 (imm : BitVec 12) : (imm12 imm).toInt = imm.toInt := BitVec.toInt_signExtend_of_le (by decide)

/-- Read as an unsigned integer, the extended constant is the signed constant modulo 2^64 (R134). -/
theorem toNat_imm12 (imm : BitVec 12) : ((imm12 imm).toNat : Int) = imm.toInt % 2 ^ 64 := by
  simpa using toNat_add_imm12 0#64 imm

/-- The signed comparison with an extended constant, as a 64-bit value (R132). -/
theorem condWord_condLessSigned_imm12 (x : Word) (imm : BitVec 12) :
    condWord (condLessSigned x (imm12 imm)) = if x.toInt < imm.toInt then 1#64 else 0#64 := by
  rw [condLessSigned, condWord_decide, toInt_imm12]

/-- The unsigned comparison with an extended constant, as a 64-bit value (R134). -/
theorem condWord_condLessUnsigned_imm12 (x : Word) (imm : BitVec 12) :
    condWord (condLessUnsigned x (imm12 imm)) = if (x.toNat : Int) < imm.toInt % 2 ^ 64 then 1#64 else 0#64 := by
  simp only [condLessUnsigned, condWord_decide, ← toNat_imm12, Int.ofNat_lt]

/-- Settles O35: the four are rows of the table, and each writes back its comparison as 1 or 0. -/
theorem comparisons : Obligations.Comparisons := by
  refine ⟨encodedAs_of_row 3 rfl, encodedAs_of_row 11 rfl, encodedAs_of_row 4 rfl, encodedAs_of_row 12 rfl,
    fun s rd rs1 rs2 imm => ⟨?slt, ?slti, ?sltu, ?sltiu⟩⟩
  case slt => exact writes_of_writeBack rfl (condWord_decide _)
  case slti => exact writes_of_writeBack rfl (condWord_condLessSigned_imm12 ..)
  case sltu => exact writes_of_writeBack rfl (condWord_decide _)
  case sltiu => exact writes_of_writeBack rfl (condWord_condLessUnsigned_imm12 ..)

end Sys2Proof.Machine
end

section
/-! PROOFS. The logic instructions, bit by bit: O36. -/

namespace Sys2Proof.Machine

/-- The extended constant has its own 12 bits and copies of bit 11 above them (R81, R140). -/
theorem getLsbD_imm12 (imm : BitVec 12) {j : Nat} (hj : j < 64) : (imm12 imm).getLsbD j = imm.getLsbD (min j 11) := by
  rw [imm12, BitVec.getLsbD_signExtend, decide_eq_true hj, Bool.true_and]
  split
  case isTrue hlow => rw [Nat.min_eq_left (by omega)]
  case isFalse hhigh => rw [Nat.min_eq_right (by omega), BitVec.msb_eq_getLsbD_last]

/-! A bit of the result is the operation on that bit of the register and of the constant (R142, R144, R146). -/

theorem getLsbD_or_imm12 (x : Word) (imm : BitVec 12) {j : Nat} (hj : j < 64) :
    (x ||| imm12 imm).getLsbD j = (x.getLsbD j || imm.getLsbD (min j 11)) := by
  rw [BitVec.getLsbD_or, getLsbD_imm12 imm hj]

theorem getLsbD_and_imm12 (x : Word) (imm : BitVec 12) {j : Nat} (hj : j < 64) :
    (x &&& imm12 imm).getLsbD j = (x.getLsbD j && imm.getLsbD (min j 11)) := by
  rw [BitVec.getLsbD_and, getLsbD_imm12 imm hj]

theorem getLsbD_xor_imm12 (x : Word) (imm : BitVec 12) {j : Nat} (hj : j < 64) :
    (x ^^^ imm12 imm).getLsbD j = (x.getLsbD j != imm.getLsbD (min j 11)) := by
  rw [BitVec.getLsbD_xor, getLsbD_imm12 imm hj]

/-- Settles O36: the six are rows of the table, and each writes back its operation, taken bit by bit. -/
theorem logic : Obligations.Logic := by
  refine ⟨encodedAs_of_row 8 rfl, encodedAs_of_row 14 rfl, encodedAs_of_row 9 rfl, encodedAs_of_row 15 rfl,
    encodedAs_of_row 5 rfl, encodedAs_of_row 13 rfl, fun s rd rs1 rs2 imm => ⟨?or, ?ori, ?and, ?andi, ?xor, ?xori⟩⟩
  case or => exact writes_of_writeBack rfl fun _ _ => BitVec.getLsbD_or
  case ori => exact writes_of_writeBack rfl fun _ => getLsbD_or_imm12 _ imm
  case and => exact writes_of_writeBack rfl fun _ _ => BitVec.getLsbD_and
  case andi => exact writes_of_writeBack rfl fun _ => getLsbD_and_imm12 _ imm
  case xor => exact writes_of_writeBack rfl fun _ _ => BitVec.getLsbD_xor
  case xori => exact writes_of_writeBack rfl fun _ => getLsbD_xor_imm12 _ imm

end Sys2Proof.Machine
end

section
/-! PROOFS. The shifts of a register, as multiplication and division by a power of two: O37, O38. -/

namespace Sys2Proof.Machine

/-! What each shift does to the number a bit vector stands for, at every width (R151 to R153). -/

theorem toNat_shiftLeft_eq_mul {w : Nat} (x : BitVec w) (n : Nat) : (x <<< n).toNat = x.toNat * 2 ^ n % 2 ^ w := by
  rw [BitVec.toNat_shiftLeft, Nat.shiftLeft_eq]

theorem toNat_ushiftRight_eq_div {w : Nat} (x : BitVec w) (n : Nat) : (x >>> n).toNat = x.toNat / 2 ^ n := by
  rw [BitVec.toNat_ushiftRight, Nat.shiftRight_eq_div_pow]

/-- The division of integers rounds down, as the arithmetic shift does (R153). -/
theorem toInt_sshiftRight_eq_div {w : Nat} (x : BitVec w) (n : Nat) : (x.sshiftRight n).toInt = x.toInt / 2 ^ n := by
  rw [BitVec.toInt_sshiftRight, Int.shiftRight_eq_div_pow, Nat.cast_pow, Nat.cast_ofNat]

/-- The low six bits of a register, as a number (R150, decision D21). -/
theorem shiftAmount64_eq_mod (y : Word) : shiftAmount64 y = y.toNat % 64 := by
  rw [shiftAmount64, BitVec.extractLsb'_toNat, Nat.shiftRight_zero]

/-- Settles O37: the three are rows of the table, and each writes back its shift, read as a product or a quotient. -/
theorem shiftsByConstant : Obligations.ShiftsByConstant := by
  refine ⟨encodedAs_of_row 16 rfl, encodedAs_of_row 17 rfl, encodedAs_of_row 18 rfl, fun s rd rs1 sh =>
    ⟨?slli, ?srli, ?srai⟩⟩
  case slli => exact writes_of_writeBack rfl (toNat_shiftLeft_eq_mul ..)
  case srli => exact writes_of_writeBack rfl (toNat_ushiftRight_eq_div ..)
  case srai => exact writes_of_writeBack rfl (toInt_sshiftRight_eq_div ..)

/-- Settles O38: as for the constant amounts, with the second register modulo 64 for the amount. -/
theorem shiftsByRegister : Obligations.ShiftsByRegister := by
  refine ⟨encodedAs_of_row 2 rfl, encodedAs_of_row 6 rfl, encodedAs_of_row 7 rfl, fun s rd rs1 rs2 => ?_⟩
  rw [← shiftAmount64_eq_mod]
  refine ⟨?sll, ?srl, ?sra⟩
  case sll => exact writes_of_writeBack rfl (toNat_shiftLeft_eq_mul ..)
  case srl => exact writes_of_writeBack rfl (toNat_ushiftRight_eq_div ..)
  case sra => exact writes_of_writeBack rfl (toInt_sshiftRight_eq_div ..)

end Sys2Proof.Machine
end

section
/-! PROOFS. The unconditional jumps, the pseudo-instructions they stand for, and the jump to itself: O14, O39, O40, O55. -/

namespace Sys2Proof.Machine

/-! What a jump changes (R160). -/

/-- A jump changes `pc` and its link register and nothing else. -/
theorem jumpsTo_setPc_writeReg (rd : Reg) (a : Word) (s : State) :
    JumpsTo rd a s (setPc (writeReg s rd (s.pc + 4#64)) a) := by
  refine ⟨rfl, ?_, fun r hr => ?_, fun b => ?_, ?_⟩
  · rw [readReg_setPc, readReg_writeReg, if_pos rfl]
  · rw [readReg_setPc, readReg_writeReg, if_neg hr]
  · rw [setPc_mem, writeReg_mem]
  · rw [setPc_params, writeReg_params]

/-- The register `x0` is never among those that change (R21). -/
theorem sameRegs_of_sameRegsBut_zero {s t : State} (h : SameRegsBut 0#5 s t) : SameRegs s t := by
  intro r
  by_cases hr : r = 0#5
  · rw [hr, readReg_zero, readReg_zero]
  · exact h r hr

/-- A jump whose link register is `x0` changes `pc` alone. -/
theorem onlyPc_of_jumpsTo_zero {a : Word} {s t : State} (h : JumpsTo 0#5 a s t) : OnlyPc a s t := by
  obtain ⟨hpc, -, hregs, hmem, hparams⟩ := h
  exact ⟨hpc, sameRegs_of_sameRegsBut_zero hregs, hmem, hparams⟩

/-- An instruction executed as a jump to `a` goes there if `a` is a word address, and faults otherwise. -/
theorem transfersTo_of_jumpTo {i : Instr} {rd : Reg} {a : Word} {s : State} (h : exec i s = jumpTo rd a s) :
    TransfersTo i a s (JumpsTo rd a s) := by
  refine ⟨fun ha => ?_, fun ha => ?_⟩
  · exact ⟨_, h.trans (jumpTo_next.mpr ⟨(isWordAddress_iff a).mpr ha, rfl⟩), jumpsTo_setPc_writeReg rd a s⟩
  · exact h.trans (jumpTo_fault.mpr ⟨Bool.eq_false_iff.mpr (mt (isWordAddress_iff a).mp ha), rfl⟩)

theorem transfersTo_imp {i : Instr} {a : Word} {s : State} {P Q : State → Prop} (h : TransfersTo i a s P)
    (hPQ : ∀ t, P t → Q t) : TransfersTo i a s Q := by
  obtain ⟨hcompletes, hfaults⟩ := h
  refine ⟨fun ha => ?_, hfaults⟩
  obtain ⟨t, ht, hP⟩ := hcompletes ha
  exact ⟨t, ht, hPQ t hP⟩

/-- An instruction executed as a jump to `a` that saves nothing goes there with `pc` alone changed, or faults. -/
theorem transfersTo_of_jumpTo_zero {i : Instr} {a : Word} {s : State} (h : exec i s = jumpTo 0#5 a s) :
    TransfersTo i a s (OnlyPc a s) := transfersTo_imp (transfersTo_of_jumpTo h) fun _ => onlyPc_of_jumpsTo_zero

/-! The displacements, as integers (R86, R87). -/

/-- Clearing bit 0 of the displacement of `jalr` is rounding it down to an even number (R87). -/
theorem toInt_clear_bit_zero (imm : BitVec 12) :
    (imm.extractLsb' 1 11 ++ 0#1 : BitVec 12).toInt = 2 * (imm.toInt / 2) := by
  have hnat : (imm.extractLsb' 1 11 ++ 0#1 : BitVec 12).toNat = 2 * (imm.toNat / 2) := by
    have := imm.isLt
    rw [BitVec.toNat_append, BitVec.extractLsb'_toNat]
    simp only [Nat.shiftLeft_eq, Nat.shiftRight_eq_div_pow, BitVec.toNat_ofNat, Nat.zero_mod, Nat.or_zero]
    omega
  simp only [BitVec.toInt_eq_toNat_cond, hnat]
  omega

theorem jalrOffset_eq_ofInt (imm : BitVec 12) : jalrOffset imm = BitVec.ofInt 64 (2 * (imm.toInt / 2)) := by
  rw [jalrOffset, BitVec.signExtend, toInt_clear_bit_zero]

theorem exec_jal (rd : Reg) (imm : BitVec 21) (s : State) :
    exec (.jal rd imm) s = jumpTo rd (s.pc + BitVec.ofInt 64 imm.toInt) s := rfl

theorem exec_jalr (rd rs1 : Reg) (imm : BitVec 12) (s : State) :
    exec (.jalr rd rs1 imm) s = jumpTo rd (readReg s rs1 + BitVec.ofInt 64 (2 * (imm.toInt / 2))) s :=
  congrArg (fun off => jumpTo rd (readReg s rs1 + off) s) (jalrOffset_eq_ofInt imm)

/-- Without a displacement `jalr` goes where its register says (R164, R166, R167). -/
theorem exec_jalr_zero (rd rs1 : Reg) (s : State) : exec (.jalr rd rs1 0#12) s = jumpTo rd (readReg s rs1) s :=
  congrArg (jumpTo rd · s) (BitVec.add_zero (readReg s rs1))

/-- Settles O39: `jal` is a row of the table, executed as a jump to `pc` plus its displacement. -/
theorem jumpAndLink : Obligations.JumpAndLink :=
  ⟨encodedAs_of_row 37 rfl, fun s rd imm => transfersTo_of_jumpTo (exec_jal rd imm s)⟩

/-- Settles O40: `jalr` is a row of the table, executed as a jump to its register plus its displacement rounded down to an
even number. -/
theorem jumpAndLinkRegister : Obligations.JumpAndLinkRegister :=
  ⟨encodedAs_of_row 36 rfl, fun s rd rs1 imm => transfersTo_of_jumpTo (exec_jalr rd rs1 imm s)⟩

/-- Settles O55: each expansion is one jump, with a link register that is `ra` or, where nothing is saved, `x0`. -/
theorem jumpPseudos : Obligations.JumpPseudos := by
  refine ⟨rfl, fun s pc rs1 imm => ⟨rfl, rfl, rfl, rfl, rfl, ?j, ?jr, ?jal, ?jalr, ?ret⟩⟩
  case j => exact transfersTo_of_jumpTo_zero (exec_jal 0#5 imm s)
  case jr => exact transfersTo_of_jumpTo_zero (exec_jalr_zero 0#5 rs1 s)
  case jal => exact transfersTo_of_jumpTo (exec_jal 1#5 imm s)
  case jalr => exact transfersTo_of_jumpTo (exec_jalr_zero 1#5 rs1 s)
  case ret => exact transfersTo_of_jumpTo_zero (exec_jalr_zero 0#5 1#5 s)

/-! The jump to itself (R264). -/

/-- A jump that saves nothing and goes to its own address leaves the whole state as it was. -/
theorem exec_jal_zero_zero {s : State} (hpc : s.pc.toNat % 4 = 0) : exec (.jal 0#5 0#21) s = .next s := by
  have htarget : s.pc + BitVec.ofInt 64 (0#21 : BitVec 21).toInt = s.pc := BitVec.add_zero s.pc
  rw [exec_jal, htarget]
  exact jumpTo_next.mpr ⟨(isWordAddress_iff s.pc).mpr hpc, rfl⟩

theorem step_of_fetches_jump_to_self {s : State} (h : Fetches s 0x0000006F#32) : step s = .next s := by
  have hdecode : decode s.params.extM 0x0000006F#32 = .instr (.jal 0#5 0#21) := decode_of_encode_eq rfl rfl rfl
  have ⟨_, hpc, _⟩ := h
  exact (stepRunsDecoded s _ _ h hdecode).trans (exec_jal_zero_zero hpc)

/-- A state that a step leads back to is where every run from it leads. -/
theorem runsTo_iff_eq_of_step_self {s : State} (h : step s = .next s) (k : Nat) (t : State) : RunsTo k s t ↔ t = s := by
  induction k with
  | zero => simp [RunsTo, eq_comm]
  | succ k ih => simp [runsTo_succ, h, ih]

/-- Settles O14: every run from such a state leads back to it, and there the run is not over. -/
theorem jumpToSelfNeverEnds : Obligations.JumpToSelfNeverEnds := by
  intro s hw
  have hruns := runsTo_iff_eq_of_step_self (step_of_fetches_jump_to_self hw)
  refine ⟨fun k => (hruns k s).mpr rfl, ?_⟩
  rintro ⟨t, k, hrun, hended⟩
  obtain rfl := (hruns k t).mp hrun
  obtain ⟨hgoes, -⟩ := hw
  exact hgoes hended

end Sys2Proof.Machine
end

section
/-! PROOFS. The conditional branches and the pseudo-instructions that exchange their registers: O41, O42, O43, O56. -/

namespace Sys2Proof.Machine

/-! What the conditions say of the two values (R8). -/

/-- Two 64-bit values are equal if they are the same number (R171). -/
theorem condEqual_iff (x y : Word) : condEqual x y = true ↔ x.toNat = y.toNat := by
  rw [condEqual, beq_iff_eq, BitVec.toNat_inj]

theorem condLessSigned_iff (x y : Word) : condLessSigned x y = true ↔ x.toInt < y.toInt := decide_eq_true_iff

theorem condLessUnsigned_iff (x y : Word) : condLessUnsigned x y = true ↔ x.toNat < y.toNat := decide_eq_true_iff

/-! The common rule (R170). -/

/-- A branch that is taken is a jump to its target that saves nothing. -/
theorem branchIf_true (imm : BitVec 13) (s : State) :
    branchIf true imm s = jumpTo 0#5 (s.pc + BitVec.ofInt 64 imm.toInt) s := rfl

theorem branchIf_false (imm : BitVec 13) (s : State) : branchIf false imm s = .next (advance s) := rfl

/-- Going on in sequence changes `pc` alone. -/
theorem onlyPc_advance (s : State) : OnlyPc (s.pc + 4#64) s (advance s) :=
  ⟨advance_pc s, readReg_advance s, fun _ => by rw [advance_mem], advance_params s⟩

/-- An instruction executed as a branch on a condition branches when what the condition decides holds. -/
theorem branchesWhen_of_branchIf {c : Bool} {p : Prop} {i : Instr} {imm : BitVec 13} {s : State}
    (h : exec i s = branchIf c imm s) (hc : c = true ↔ p) : BranchesWhen p i imm s := by
  refine ⟨fun hp => ?taken, fun hp => ?notTaken⟩
  case taken =>
    obtain rfl : c = true := hc.mpr hp
    exact transfersTo_of_jumpTo_zero (h.trans (branchIf_true imm s))
  case notTaken =>
    obtain rfl : c = false := Bool.eq_false_iff.mpr (mt hc.mp hp)
    exact ⟨_, h.trans (branchIf_false imm s), onlyPc_advance s⟩

/-- An instruction executed as a branch on a condition negated branches when what the condition decides does not hold. -/
theorem branchesWhen_of_branchIf_not {c : Bool} {p : Prop} {i : Instr} {imm : BitVec 13} {s : State}
    (h : exec i s = branchIf (!c) imm s) (hc : c = true ↔ p) : BranchesWhen (¬ p) i imm s :=
  branchesWhen_of_branchIf h (Bool.not_iff_not.trans (not_congr hc))

/-- Settles O41: the two are rows of the table, and branch on the equality of the registers and on its negation. -/
theorem branchesOnEquality : Obligations.BranchesOnEquality := by
  refine ⟨encodedAs_of_row 30 rfl, encodedAs_of_row 31 rfl, fun s rs1 rs2 imm => ⟨?beq, ?bne⟩⟩
  case beq => exact branchesWhen_of_branchIf rfl (condEqual_iff ..)
  case bne => exact branchesWhen_of_branchIf_not rfl (condEqual_iff ..)

/-- Settles O42: the two are rows of the table, and `blt` branches where the first register is less as a signed integer,
`bge` where it is not. -/
theorem branchesSigned : Obligations.BranchesSigned := by
  refine ⟨encodedAs_of_row 33 rfl, encodedAs_of_row 32 rfl, fun s rs1 rs2 imm => ⟨?bge, ?blt⟩⟩
  case bge =>
    rw [ge_iff_le, ← not_lt]
    exact branchesWhen_of_branchIf_not rfl (condLessSigned_iff ..)
  case blt => exact branchesWhen_of_branchIf rfl (condLessSigned_iff ..)

/-- Settles O43: as for the signed branches, with the registers read as unsigned integers. -/
theorem branchesUnsigned : Obligations.BranchesUnsigned := by
  refine ⟨encodedAs_of_row 35 rfl, encodedAs_of_row 34 rfl, fun s rs1 rs2 imm => ⟨?bgeu, ?bltu⟩⟩
  case bgeu =>
    rw [ge_iff_le, ← not_lt]
    exact branchesWhen_of_branchIf_not rfl (condLessUnsigned_iff ..)
  case bltu => exact branchesWhen_of_branchIf rfl (condLessUnsigned_iff ..)

/-- Settles O56 by O42 and O43 for the registers exchanged: `x > y` is `y < x`, and `x ≤ y` is `y ≥ x`. -/
theorem branchPseudos : Obligations.BranchPseudos := by
  obtain ⟨-, -, hsigned⟩ := branchesSigned
  obtain ⟨-, -, hunsigned⟩ := branchesUnsigned
  intro s pc rs1 rs2 imm
  obtain ⟨hbge, hblt⟩ := hsigned s rs2 rs1 imm
  obtain ⟨hbgeu, hbltu⟩ := hunsigned s rs2 rs1 imm
  exact ⟨rfl, rfl, rfl, rfl, hblt, hbge, hbltu, hbgeu⟩

end Sys2Proof.Machine
end

section
/-! PROOFS. The loads and the stores, with the address, the faults in their order, and what is written: O44, O45, O46. -/

namespace Sys2Proof.Machine

/-- The effective address is the base register plus the displacement, modulo 2^64 (R185). -/
theorem isEffectiveAddress_effectiveAddress (rs1 : Reg) (imm : BitVec 12) (s : State) :
    IsEffectiveAddress (effectiveAddress s rs1 imm) rs1 imm s := toNat_add_imm12 (readReg s rs1) imm

/-! The value a load extends (R44, R47). -/

/-- A value with the bits of the datum below, and above it zeros or copies of the datum's top bit, is the datum loaded. -/
theorem isLoaded_of_getLsbD {n : Nat} {signed : Bool} {a v : Word} {s : State} (hn : n ≤ 8)
    (hlow : ∀ j, j < 8 * n → v.getLsbD j = (valueOfBytes (Memory.bytesAt s.mem a.toNat n)).getLsbD j)
    (hhigh : ∀ j, 8 * n ≤ j → j < 64 → v.getLsbD j = (signed && v.getLsbD (8 * n - 1))) :
    IsLoaded n signed a s v := by
  refine ⟨fun k hk => ?_, hhigh⟩
  rw [← extract_valueOfBytes_bytesAt s.mem a.toNat n k hk hn]
  apply BitVec.eq_of_getLsbD_eq
  intro j hj
  rw [BitVec.getLsbD_extractLsb', BitVec.getLsbD_extractLsb', hlow (8 * k + j) (by omega)]

theorem getLsbD_signExtendLow_lt {m j : Nat} (v : Word) (hj : j < m) (hm : m ≤ 64) :
    (signExtendLow m v).getLsbD j = v.getLsbD j := by
  have hj64 : j < 64 := by omega
  rw [signExtendLow, BitVec.getLsbD_signExtend, if_pos hj]
  simp [hj, hj64]

/-- Above bit `m - 1`, sign extension from `m` bits repeats that bit. -/
theorem getLsbD_signExtendLow_ge {m j : Nat} (v : Word) (hm : 0 < m) (hj : m ≤ j) (hj64 : j < 64) :
    (signExtendLow m v).getLsbD j = v.getLsbD (m - 1) := by
  rw [signExtendLow, BitVec.getLsbD_signExtend, if_neg (Nat.not_lt.mpr hj), BitVec.msb_eq_getLsbD_last]
  simp [hj64, hm]

theorem getLsbD_zeroExtendLow_lt {m j : Nat} (v : Word) (hj : j < m) (hm : m ≤ 64) :
    (zeroExtendLow m v).getLsbD j = v.getLsbD j := by
  have hj64 : j < 64 := by omega
  simp [zeroExtendLow, hj, hj64]

theorem getLsbD_zeroExtendLow_ge {m j : Nat} (v : Word) (hj : m ≤ j) : (zeroExtendLow m v).getLsbD j = false := by
  simp [zeroExtendLow, Nat.not_lt.mpr hj]

/-- Sign extension gives the loaded datum of a signed load (R188, R191, R194). -/
theorem isLoaded_signExtendLow {n : Nat} (a : Word) (s : State) (hpos : 0 < n) (hn : n ≤ 8) :
    IsLoaded n true a s (signExtendLow (8 * n) (valueOfBytes (Memory.bytesAt s.mem a.toNat n))) := by
  refine isLoaded_of_getLsbD hn (fun j hj => getLsbD_signExtendLow_lt _ hj (by omega)) fun j hj hj64 => ?_
  rw [getLsbD_signExtendLow_ge _ (by omega) hj hj64, getLsbD_signExtendLow_lt _ (by omega) (by omega), Bool.true_and]

/-- Zero extension gives the loaded datum of an unsigned load (R189, R192, R195). -/
theorem isLoaded_zeroExtendLow {n : Nat} (a : Word) (s : State) (hn : n ≤ 8) :
    IsLoaded n false a s (zeroExtendLow (8 * n) (valueOfBytes (Memory.bytesAt s.mem a.toNat n))) := by
  refine isLoaded_of_getLsbD hn (fun j hj => getLsbD_zeroExtendLow_lt _ hj (by omega)) fun j hj _ => ?_
  rw [getLsbD_zeroExtendLow_ge _ hj, Bool.false_and]

/-- A double word has no bits left to extend (R186). -/
theorem isLoaded_double_word (a : Word) (s : State) :
    IsLoaded 8 true a s (valueOfBytes (Memory.bytesAt s.mem a.toNat 8)) :=
  isLoaded_of_getLsbD (Nat.le_refl 8) (fun _ _ => rfl) fun _ hj hj64 => absurd hj64 (Nat.not_lt.mpr hj)

/-! The rule of the loads (R44, R47, R185). -/

/-- An instruction executed as a load that extends its datum as asked follows the rule of the loads. -/
theorem loads_of_loadInto {n : Nat} {signed : Bool} {ext : Word → Word} {i : Instr} {rd rs1 : Reg} {imm : BitVec 12}
    {s : State} (h : exec i s = loadInto n ext rd rs1 imm s)
    (hext : ∀ a, IsLoaded n signed a s (ext (valueOfBytes (Memory.bytesAt s.mem a.toNat n)))) :
    Loads n signed i rd rs1 imm s := by
  refine ⟨isEffectiveAddress_effectiveAddress rs1 imm s, fun hal => ?misaligned, fun hal hperm => ?notPermitted,
    fun hal hperm => ?completes⟩
  case misaligned => exact h.trans (loadInto_fault.mpr (memRead_of_misaligned hal))
  case notPermitted => exact h.trans (loadInto_fault.mpr (memRead_of_not_permitted hal hperm))
  case completes =>
    have hread := memRead_of_permitted hal hperm
    exact ⟨_, hext _, _, h.trans (loadInto_next.mpr ⟨_, hread, rfl⟩), writesReg_advance_writeReg ..⟩

/-- Settles O44: the four are rows of the table, `ld` takes the double word whole and the others extend its sign. -/
theorem loadsSigned : Obligations.LoadsSigned := by
  refine ⟨encodedAs_of_row 22 rfl, encodedAs_of_row 21 rfl, encodedAs_of_row 20 rfl, encodedAs_of_row 19 rfl,
    fun s rd rs1 imm => ⟨?ld, ?lw, ?lh, ?lb⟩⟩
  case ld => exact loads_of_loadInto rfl fun a => isLoaded_double_word a s
  case lw => exact loads_of_loadInto rfl fun a => isLoaded_signExtendLow a s (by decide) (by decide)
  case lh => exact loads_of_loadInto rfl fun a => isLoaded_signExtendLow a s (by decide) (by decide)
  case lb => exact loads_of_loadInto rfl fun a => isLoaded_signExtendLow a s (by decide) (by decide)

/-- Settles O45: the three are rows of the table, and each extends its datum by zeros. -/
theorem loadsUnsigned : Obligations.LoadsUnsigned := by
  refine ⟨encodedAs_of_row 25 rfl, encodedAs_of_row 24 rfl, encodedAs_of_row 23 rfl,
    fun s rd rs1 imm => ⟨?lwu, ?lhu, ?lbu⟩⟩
  case lwu => exact loads_of_loadInto rfl fun a => isLoaded_zeroExtendLow a s (by decide)
  case lhu => exact loads_of_loadInto rfl fun a => isLoaded_zeroExtendLow a s (by decide)
  case lbu => exact loads_of_loadInto rfl fun a => isLoaded_zeroExtendLow a s (by decide)

/-! The rule of the stores (R45, R47, R185). -/

/-- A write that completes and the next instruction in sequence: the addressed bytes and `pc` change and nothing else. -/
theorem storesBytes_advance_of_memWrite {s t : State} {a v : Word} {n : Nat} (h : memWrite s a n v = .ok t) :
    StoresBytes n a v s (advance t) := by
  refine ⟨fun k hk => ?inside, fun b hb => ?outside, ?frame⟩
  case inside => rw [advance_mem, memWrite_byteAt_inside h hk]
  case outside => rw [advance_mem, memWrite_byteAt_outside h hb]
  case frame =>
    obtain ⟨-, -, rfl⟩ := memWrite_ok.mp h
    exact ⟨fun _ => rfl, rfl, rfl⟩

/-- An instruction executed as a store follows the rule of the stores. -/
theorem stores_of_storeFrom {n : Nat} {i : Instr} {rs2 rs1 : Reg} {imm : BitVec 12} {s : State}
    (h : exec i s = storeFrom n rs2 rs1 imm s) : Stores n i rs2 rs1 imm s := by
  refine ⟨isEffectiveAddress_effectiveAddress rs1 imm s, fun hal => ?misaligned, fun hal hperm => ?notPermitted,
    fun hal hperm => ?completes⟩
  case misaligned => exact h.trans (storeFrom_fault.mpr (memWrite_of_misaligned hal))
  case notPermitted => exact h.trans (storeFrom_fault.mpr (memWrite_of_not_permitted hal hperm))
  case completes =>
    have hwrite := memWrite_of_permitted (readReg s rs2) hal hperm
    exact ⟨_, h.trans (storeFrom_next.mpr ⟨_, hwrite, rfl⟩), storesBytes_advance_of_memWrite hwrite⟩

/-- Settles O46: the four are rows of the table, and each is executed as a store of its width. -/
theorem storesRule : Obligations.StoresRule := by
  refine ⟨encodedAs_of_row 29 rfl, encodedAs_of_row 28 rfl, encodedAs_of_row 27 rfl, encodedAs_of_row 26 rfl,
    fun s rs2 rs1 imm => ⟨?sd, ?sw, ?sh, ?sb⟩⟩
  case sd => exact stores_of_storeFrom rfl
  case sw => exact stores_of_storeFrom rfl
  case sh => exact stores_of_storeFrom rfl
  case sb => exact stores_of_storeFrom rfl

end Sys2Proof.Machine
end

section
/-! PROOFS. The 20-bit constants of `lui` and `auipc`, and the pair `lui`, `addi` of `li` (R204): O47, O57. -/

namespace Sys2Proof.Machine

/-! The upper constant as an integer (R83). -/

/-- Read as a signed integer, the upper constant is the signed 20-bit constant times 4096 (R201). -/
theorem toInt_upperImm (imm : BitVec 20) : (upperImm imm).toInt = imm.toInt * 4096 := by
  rw [upperImm, BitVec.toInt_signExtend_of_le (by decide), toInt_upper, BitVec.toInt_eq_toNat_cond, Int.bmod]
  have himm := imm.isLt
  omega

theorem toNat_add_upperImm (pc : Word) (imm : BitVec 20) :
    ((pc + upperImm imm).toNat : Int) = (pc.toNat + imm.toInt * 4096) % 2 ^ 64 := by
  rw [← toInt_upperImm, BitVec.toNat_add, BitVec.toInt_eq_toNat_cond]
  omega

/-- Settles O47: the two are rows of the table, and each writes back its constant, alone or added to `pc`. -/
theorem upperImmediates : Obligations.UpperImmediates := by
  refine ⟨encodedAs_of_row 38 rfl, encodedAs_of_row 39 rfl, fun s rd imm => ⟨?lui, ?auipc⟩⟩
  case lui => exact writes_of_writeBack rfl (toInt_upperImm imm)
  case auipc => exact writes_of_writeBack rfl (toNat_add_upperImm s.pc imm)

/-! The constant `li` leaves (R204). -/

/-- The signed constant, less 2^32 in the cases R204 excepts. -/
def liValue (val : BitVec 32) : Int := if HiCarries val then val.toInt - 2 ^ 32 else val.toInt

/-- The value is in the range of 64-bit signed integers. -/
theorem toInt_ofInt_liValue (val : BitVec 32) : (BitVec.ofInt 64 (liValue val)).toInt = liValue val := by
  have hval := val.isLt
  refine BitVec.toInt_ofInt_eq_self (by decide) ?_ ?_
  all_goals
    rw [liValue, BitVec.toInt_eq_toNat_cond]
    omega

/-- Taking 2^32 away leaves the low 32 bits as they are. -/
theorem extractLsb'_ofInt_liValue (val : BitVec 32) : (BitVec.ofInt 64 (liValue val)).extractLsb' 0 32 = val := by
  have hval := val.isLt
  apply BitVec.eq_of_toNat_eq
  rw [BitVec.extractLsb'_toNat, BitVec.toNat_ofInt, liValue, BitVec.toInt_eq_toNat_cond, Nat.shiftRight_zero]
  omega

/-- Settles O57: the pair writes the two parts of the constant, added up. -/
theorem loadImmediatePseudo : Obligations.LoadImmediatePseudo := by
  intro s pc rd val
  refine ⟨⟨_, _, rfl, toNat_hiPart val, toNat_loPart val⟩, ?_⟩
  obtain ⟨t, hruns, hrd, hframe⟩ := runs_then_addi (i := .lui rd (hiPart val)) (s := s) rfl (loPart val)
  rw [upperImm_hiPart_add_imm12_loPart] at hrd
  exact ⟨t, _, hruns, toInt_ofInt_liValue val, extractLsb'_ofInt_liValue val, hrd, hframe⟩

end Sys2Proof.Machine
end

section
/-! PROOFS. The instructions with a 32-bit result, sign-extended (R210): O48, O49, O50. -/

namespace Sys2Proof.Machine

/-! The low word and the extended result as integers (R210). -/

theorem toNat_lowWord (x : Word) : (lowWord x).toNat = x.toNat % 2 ^ 32 := by
  rw [lowWord, BitVec.extractLsb'_toNat, Nat.shiftRight_zero]

/-- Read as a signed integer, the low word is the value's residue around 0. -/
theorem toInt_lowWord (x : Word) : (lowWord x).toInt = Int.bmod x.toNat (2 ^ 32) := by
  rw [lowWord, ← BitVec.setWidth_eq_extractLsb' (by decide), BitVec.toInt_setWidth]

theorem toInt_wordResult (v : BitVec 32) : (wordResult v).toInt = v.toInt := BitVec.toInt_signExtend_of_le (by decide)

/-! Sums and differences: the carry out of 64 bits does not reach the low word (R211, R215, R216). -/

/-- An integer known modulo 2^64 is known modulo 2^32. -/
theorem toInt_wordResult_lowWord_of_emod {x : Word} {n : Int} (h : (x.toNat : Int) = n % 2 ^ 64) :
    (wordResult (lowWord x)).toInt = n.bmod (2 ^ 32) := by
  have hmod : (x.toNat : Int) % (2 ^ 32 : Nat) = n % (2 ^ 32 : Nat) := h ▸ Int.emod_emod_of_dvd n (by decide)
  rw [toInt_wordResult_lowWord, ← Int.emod_bmod, hmod, Int.emod_bmod]

/-- Settles O48: the three are rows of the table, and each writes back the low word of its 64-bit result, extended. -/
theorem wordAddSub : Obligations.WordAddSub := by
  refine ⟨encodedAs_of_row 40 rfl, encodedAs_of_row 44 rfl, encodedAs_of_row 45 rfl, fun s rd rs1 rs2 imm =>
    ⟨?addiw, ?addw, ?subw⟩⟩
  case addiw => exact writes_of_writeBack rfl (toInt_wordResult_lowWord_of_emod (toNat_add_imm12 ..))
  case addw => exact writes_of_writeBack rfl (toInt_wordResult_lowWord_of_emod (congrArg Nat.cast (BitVec.toNat_add ..)))
  case subw => exact writes_of_writeBack rfl (toInt_wordResult_lowWord_of_emod (toNat_sub_word ..))

/-! Shifts of the low word, for every amount (R212 to R214, R217 to R219). -/

/-- What is shifted out at bit 31 is a multiple of 2^32. -/
theorem toInt_wordResult_shiftLeft (x : Word) (n : Nat) :
    (wordResult (lowWord x <<< n)).toInt = Int.bmod (x.toNat % 2 ^ 32 * 2 ^ n : Nat) (2 ^ 32) := by
  rw [toInt_wordResult, BitVec.toInt_eq_toNat_bmod, toNat_shiftLeft_eq_mul, toNat_lowWord, Int.natCast_emod, Int.emod_bmod]

theorem toInt_wordResult_ushiftRight (x : Word) (n : Nat) :
    (wordResult (lowWord x >>> n)).toInt = Int.bmod (x.toNat % 2 ^ 32 / 2 ^ n : Nat) (2 ^ 32) := by
  rw [toInt_wordResult, BitVec.toInt_eq_toNat_bmod, toNat_ushiftRight_eq_div, toNat_lowWord]

theorem toInt_wordResult_sshiftRight (x : Word) (n : Nat) :
    (wordResult ((lowWord x).sshiftRight n)).toInt = Int.bmod x.toNat (2 ^ 32) / 2 ^ n := by
  rw [toInt_wordResult, toInt_sshiftRight_eq_div, toInt_lowWord]

/-- The low five bits of a register, as a number (R217 to R219). -/
theorem shiftAmount32_eq_mod (y : Word) : shiftAmount32 y = y.toNat % 32 := by
  rw [shiftAmount32, BitVec.extractLsb'_toNat, Nat.shiftRight_zero]

/-- Settles O49: the three are rows of the table, and each writes back the low word shifted, read as a product or a
quotient. -/
theorem wordShiftsByConstant : Obligations.WordShiftsByConstant := by
  refine ⟨encodedAs_of_row 41 rfl, encodedAs_of_row 42 rfl, encodedAs_of_row 43 rfl, fun s rd rs1 sh =>
    ⟨?slliw, ?srliw, ?sraiw⟩⟩
  case slliw => exact writes_of_writeBack rfl (toInt_wordResult_shiftLeft ..)
  case srliw => exact writes_of_writeBack rfl (toInt_wordResult_ushiftRight ..)
  case sraiw => exact writes_of_writeBack rfl (toInt_wordResult_sshiftRight ..)

/-- Settles O50: as for the constant amounts, with the second register modulo 32 for the amount. -/
theorem wordShiftsByRegister : Obligations.WordShiftsByRegister := by
  refine ⟨encodedAs_of_row 46 rfl, encodedAs_of_row 47 rfl, encodedAs_of_row 48 rfl, fun s rd rs1 rs2 => ?_⟩
  rw [← shiftAmount32_eq_mod]
  refine ⟨?sllw, ?srlw, ?sraw⟩
  case sllw => exact writes_of_writeBack rfl (toInt_wordResult_shiftLeft ..)
  case srlw => exact writes_of_writeBack rfl (toInt_wordResult_ushiftRight ..)
  case sraw => exact writes_of_writeBack rfl (toInt_wordResult_sshiftRight ..)

end Sys2Proof.Machine
end

section
/-! PROOFS. Product, quotient and remainder (R226 to R228): O51, O52, O53. -/

namespace Sys2Proof.Machine

/-! The product (R226). -/

/-- The signed product and the product of the bit vectors agree modulo 2^64. -/
theorem toNat_mul_eq_toInt_mul_toInt (x y : Word) : ((x * y).toNat : Int) = x.toInt * y.toInt % 2 ^ 64 := by
  have hmul : x * y = BitVec.ofInt 64 (x.toInt * y.toInt) := by
    rw [BitVec.ofInt_mul, BitVec.ofInt_toInt, BitVec.ofInt_toInt]
  rw [hmul, BitVec.toNat_ofInt]
  omega

/-- Settles O51: `mul` is a row of EXT_M, and the product it writes back is that of both readings. -/
theorem multiply : Obligations.Multiply :=
  ⟨encodedM_of_row 49 rfl, fun _ _ _ _ =>
    writes_of_writeBack rfl ⟨BitVec.toNat_mul .., toNat_mul_eq_toInt_mul_toInt ..⟩⟩

/-! The three cases of the quotient and of the remainder (R227, R228). -/

theorem divOverflows_iff {n d : Word} : divOverflows n d = true ↔ n.toInt = -2 ^ 63 ∧ d.toInt = -1 := by
  simp [divOverflows]

section Cases

variable {c : DivNumerics} {n d : Word}

theorem quotient_of_zero (hd : d.toInt = 0) : quotient c n d = divCorner c.divByZero Config.freeQuotientByZero n :=
  if_pos hd

theorem quotient_of_overflow (hn : n.toInt = -2 ^ 63) (hd : d.toInt = -1) : quotient c n d = c.divOverflow := by
  rw [quotient, if_neg (by omega), if_pos (divOverflows_iff.mpr ⟨hn, hd⟩)]

/-- Away from the corners the rounded quotient has 64 bits. -/
theorem toInt_quotient (hd : d.toInt ≠ 0) (hover : ¬ (n.toInt = -2 ^ 63 ∧ d.toInt = -1)) :
    (quotient c n d).toInt = n.toInt.tdiv d.toInt := by
  have hbounded : n ≠ BitVec.intMin 64 ∨ d ≠ -1#64 := by
    by_contra h
    push Not at h
    obtain ⟨rfl, rfl⟩ := h
    exact hover (by decide)
  rw [quotient, if_neg hd, if_neg (mt divOverflows_iff.mp hover), BitVec.toInt_ofInt, ← BitVec.toInt_sdiv,
    BitVec.toInt_sdiv_of_ne_or_ne n d hbounded]

theorem remainder_of_zero (hd : d.toInt = 0) : remainder c n d = divCorner c.remByZero Config.freeRemainderByZero n :=
  if_pos hd

theorem remainder_of_overflow (hn : n.toInt = -2 ^ 63) (hd : d.toInt = -1) : remainder c n d = c.remOverflow := by
  rw [remainder, if_neg (by omega), if_pos (divOverflows_iff.mpr ⟨hn, hd⟩)]

/-- Away from the corners the remainder is that of the division rounded toward zero. -/
theorem toInt_remainder (hd : d.toInt ≠ 0) (hover : ¬ (n.toInt = -2 ^ 63 ∧ d.toInt = -1)) :
    (remainder c n d).toInt = n.toInt.tmod d.toInt := by
  rw [remainder, if_neg hd, if_neg (mt divOverflows_iff.mp hover), ← Int.tmod_def, ← BitVec.toInt_srem,
    BitVec.ofInt_toInt, BitVec.toInt_srem]

end Cases

/-- The remainder of a division rounded toward zero is never on the other side of 0 than the dividend (R228). -/
theorem tmod_sign_of_dividend (n d : Int) : (n.tmod d < 0 → n < 0) ∧ (0 < n.tmod d → 0 < n) := by
  refine ⟨fun hneg => ?_, fun hpos => ?_⟩
  · by_contra hn
    have := Int.tmod_nonneg d (not_lt.mp hn)
    omega
  · by_contra hn
    have hopp := Int.tmod_nonneg d (neg_nonneg.mpr (not_lt.mp hn))
    rw [Int.neg_tmod] at hopp
    omega

/-- Settles O52: `div` is a row of EXT_M and writes back the quotient, and each clause is one of its cases. -/
theorem divide : Obligations.Divide := by
  refine ⟨encodedM_of_row 50 rfl, fun s rd rs1 rs2 => writes_of_writeBack rfl ?_⟩
  refine ⟨quotient_of_zero, quotient_of_overflow, toInt_quotient, fun hstd => ⟨fun hd => ?_, fun hn hd => ?_⟩⟩
  · rw [quotient_of_zero hd, hstd]
    rfl
  · rw [quotient_of_overflow hn hd, hstd]
    rfl

end Sys2Proof.Machine

namespace Sys2Proof

/-- Settles O53: `rem` is a row of EXT_M and writes back the remainder, and each clause is one of its cases. -/
theorem remainder : Obligations.Remainder := by
  refine ⟨encodedM_of_row 51 rfl, fun s rd rs1 rs2 => Machine.writes_of_writeBack rfl ?_⟩
  refine ⟨Machine.remainder_of_zero, Machine.remainder_of_overflow, fun hd hover => ?_,
    fun hstd => ⟨fun hd => ?_, fun hn hd => ?_⟩⟩
  · rw [Machine.toInt_remainder hd hover, ← Int.tmod_def]
    exact ⟨rfl, Machine.tmod_sign_of_dividend ..⟩
  · rw [Machine.remainder_of_zero hd, hstd]
    rfl
  · rw [Machine.remainder_of_overflow hn hd, hstd]
    rfl

end Sys2Proof
end

section
/-! PROOFS. The faults of an instruction (R242), and the outcome of a run: stopped for good, or ended in one state (R241,
R251, R253, R264, R276): O8, O12, O13, O28. -/

namespace Sys2Proof.Machine

/-! Transfers: a jump, or a branch whose condition decides (R160, R170). -/

/-- An instruction with a target goes there as a jump, if it transfers, or else goes on in sequence. -/
inductive TransferForm (s : State) (i : Instr) (a : Word) : Prop where
  | taken (rd : Reg) (htransfers : Transfers s i) (hexec : exec i s = jumpTo rd a s)
  | notTaken (htransfers : ¬ Transfers s i) (hexec : exec i s = .next (advance s))

theorem transferForm_of_branchIf {i : Instr} {imm : BitVec 13} {c : Bool} {s : State}
    (h : exec i s = branchIf c imm s) (hc : c = true ↔ Transfers s i) : TransferForm s i (branchTarget s imm) := by
  cases c with
  | true => exact .taken 0#5 (hc.mp rfl) h
  | false => exact .notTaken (mt hc.mpr Bool.false_ne_true) h

/-- The condition of a branch that is written with a negation. -/
theorem not_eq_true_iff_of_iff_not {c : Bool} {p q : Prop} (hc : c = true ↔ p) (hq : q ↔ ¬ p) : (!c) = true ↔ q :=
  (Bool.not_iff_not.trans (not_congr hc)).trans hq.symm

theorem transferForm_of_target {i : Instr} {s : State} {a : Word} (h : transferTarget s i = some a) :
    TransferForm s i a := by
  cases i with
  | jal | jalr =>
    obtain rfl := Option.some.inj h
    exact .taken _ trivial rfl
  | beq =>
    obtain rfl := Option.some.inj h
    exact transferForm_of_branchIf rfl (condEqual_iff ..)
  | bne =>
    obtain rfl := Option.some.inj h
    exact transferForm_of_branchIf rfl (not_eq_true_iff_of_iff_not (condEqual_iff ..) Iff.rfl)
  | blt =>
    obtain rfl := Option.some.inj h
    exact transferForm_of_branchIf rfl (condLessSigned_iff ..)
  | bge =>
    obtain rfl := Option.some.inj h
    exact transferForm_of_branchIf rfl (not_eq_true_iff_of_iff_not (condLessSigned_iff ..) not_lt.symm)
  | bltu =>
    obtain rfl := Option.some.inj h
    exact transferForm_of_branchIf rfl (condLessUnsigned_iff ..)
  | bgeu =>
    obtain rfl := Option.some.inj h
    exact transferForm_of_branchIf rfl (not_eq_true_iff_of_iff_not (condLessUnsigned_iff ..) not_lt.symm)
  | _ => exact absurd h (Option.some_ne_none a).symm

/-! The rows of the fault table, by what the instruction addresses (R242). -/

section FaultTable

variable {s : State} {i : Instr} {f : Fault}

/-- An instruction that addresses nothing has no row in the fault table. -/
theorem not_raisable_of_no_address (hload : loadTarget s i = none) (hstore : storeTarget s i = none)
    (htarget : transferTarget s i = none) : ¬ Raisable s i f := by
  cases f <;> simp [Raisable, hload, hstore, htarget]

theorem raisable_of_load {a : Word} {n : Nat} (hload : loadTarget s i = some (a, n)) (hstore : storeTarget s i = none)
    (htarget : transferTarget s i = none) :
    Raisable s i f ↔ (¬ AlignmentOk s.params a n ∧ f = .loadAddressMisaligned a) ∨
      (AlignmentOk s.params a n ∧ ¬ AllPermitted (readableAt s.params) a n ∧ f = .loadAccessFault a) := by
  cases f with
  | loadAddressMisaligned | loadAccessFault => grind [Raisable]
  | _ => simp [Raisable, hstore, htarget]

theorem raisable_of_store {a : Word} {n : Nat} (hload : loadTarget s i = none) (hstore : storeTarget s i = some (a, n))
    (htarget : transferTarget s i = none) :
    Raisable s i f ↔ (¬ AlignmentOk s.params a n ∧ f = .storeAddressMisaligned a) ∨
      (AlignmentOk s.params a n ∧ ¬ AllPermitted (storableAt s.params) a n ∧ f = .storeAccessFault a) := by
  cases f with
  | storeAddressMisaligned | storeAccessFault => grind [Raisable]
  | _ => simp [Raisable, hload, htarget]

theorem raisable_of_target {a : Word} (hload : loadTarget s i = none) (hstore : storeTarget s i = none)
    (htarget : transferTarget s i = some a) :
    Raisable s i f ↔ Transfers s i ∧ a.toNat % 4 ≠ 0 ∧ f = .instructionAddressMisaligned a := by
  cases f with
  | instructionAddressMisaligned => grind [Raisable]
  | _ => simp [Raisable, hload, hstore]

end FaultTable

/-! The faults of an instruction (R242). -/

theorem memRead_error_iff {s : State} {a : Word} {n : Nat} {f : Fault} :
    memRead s a n = .error f ↔ (¬ AlignmentOk s.params a n ∧ f = .loadAddressMisaligned a) ∨
      (AlignmentOk s.params a n ∧ ¬ AllPermitted (readableAt s.params) a n ∧ f = .loadAccessFault a) := by
  rw [memRead_error, misalignedFaults_eq_true_iff, misalignedFaults_eq_false_iff, allBytes_eq_false_iff]

theorem memWrite_error_iff {s : State} {a v : Word} {n : Nat} {f : Fault} :
    memWrite s a n v = .error f ↔ (¬ AlignmentOk s.params a n ∧ f = .storeAddressMisaligned a) ∨
      (AlignmentOk s.params a n ∧ ¬ AllPermitted (storableAt s.params) a n ∧ f = .storeAccessFault a) := by
  rw [memWrite_error, misalignedFaults_eq_true_iff, misalignedFaults_eq_false_iff, allBytes_eq_false_iff]

theorem exec_fault_iff_of_target {i : Instr} {s : State} {a : Word} {f : Fault} (h : transferTarget s i = some a) :
    exec i s = .fault f ↔ Transfers s i ∧ a.toNat % 4 ≠ 0 ∧ f = .instructionAddressMisaligned a := by
  cases transferForm_of_target h with
  | taken rd htransfers hexec =>
    rw [hexec, jumpTo_fault, ← Bool.not_eq_true, isWordAddress_iff]
    simp only [htransfers, true_and, ne_eq]
  | notTaken htransfers hexec => simp [hexec, htransfers]

theorem exec_fault_iff_raisable {i : Instr} {s : State} {f : Fault} : exec i s = .fault f ↔ Raisable s i f := by
  cases exec_form i s with
  | writeBack rd v hexec _ hload hstore htarget =>
    exact iff_of_false (hexec ▸ writeBack_ne_fault) (not_raisable_of_no_address hload hstore htarget)
  | load n ext rd rs1 imm hexec _ hload hstore htarget =>
    rw [hexec, loadInto_fault, memRead_error_iff, raisable_of_load hload hstore htarget]
  | store n rs2 rs1 imm hexec _ hload hstore htarget =>
    rw [hexec, storeFrom_fault, memWrite_error_iff, raisable_of_store hload hstore htarget]
  | branch c imm _ _ hload hstore htarget | jump rd a _ _ hload hstore htarget =>
    rw [exec_fault_iff_of_target htarget, raisable_of_target hload hstore htarget]

theorem exec_ne_refused (i : Instr) (s : State) (r : Refusal) : exec i s ≠ .refused r := by
  cases exec_form i s with
  | writeBack _ _ hexec => exact hexec ▸ writeBack_ne_refused
  | load _ _ _ _ _ hexec => exact hexec ▸ loadInto_ne_refused
  | store _ _ _ _ hexec => exact hexec ▸ storeFrom_ne_refused
  | branch _ _ hexec => exact hexec ▸ branchIf_ne_refused
  | jump _ _ hexec => exact hexec ▸ jumpTo_ne_refused

/-- An instruction that raises nothing of the fault table completes. -/
theorem exec_completes {i : Instr} {s : State} (h : ∀ f, ¬ Raisable s i f) : ∃ t, exec i s = .next t := by
  cases hexec : exec i s with
  | next t => exact ⟨t, rfl⟩
  | fault f => exact absurd (exec_fault_iff_raisable.mp hexec) (h f)
  | refused r => exact absurd hexec (exec_ne_refused i s r)

/-- Settles O28, by the shared operation that executes the instruction and the rows of the fault table for it. -/
theorem faultsAsListed : Obligations.FaultsAsListed := fun i s =>
  ⟨fun _ => exec_fault_iff_raisable, exec_ne_refused i s, fun hload hstore htarget =>
    exec_completes fun _ => not_raisable_of_no_address hload hstore htarget⟩

/-! Where a step stops (R251, R253). -/

theorem decode_unspecified_iff {ext : Bool} {w : InstrWord} : decode ext w = .unspecified ↔ RefusedOpcode w := by
  rw [← isUnspecifiedOpcode_iff, decode]
  cases isUnspecifiedOpcode w <;> cases (presentRows ext).find? (·.admits w) <;> simp

/-- A word of 32 bits has the length of an instruction (R70). -/
theorem decode_ne_wrongLength (ext : Bool) (w : InstrWord) : decode ext w ≠ .wrongLength := by
  rw [decode]
  cases isUnspecifiedOpcode w <;> cases (presentRows ext).find? (·.admits w) <;> simp

theorem step_of_refusedOpcode {s : State} {w : InstrWord} (hw : Fetches s w) (hop : RefusedOpcode w) :
    step s = .refused (.unspecifiedInstruction s.pc w) := by
  obtain ⟨-, -, -, hunspecified, -⟩ := stepChecksInOrder s
  exact hunspecified w hw (decode_unspecified_iff.mpr hop)

/-- Settles O8: the step is refused, and a run stays at the refusal of its first step. -/
theorem refusedOpcodesAreRefused : Obligations.RefusedOpcodesAreRefused := by
  intro s w hw hop
  have hs := step_of_refusedOpcode hw hop
  exact ⟨hs, fun _ => run_succ_of_refused hs⟩

/-- A step that meets a condition of R253 faults or is refused. -/
theorem step_of_stepStops {s : State} (h : StepStops s) : (∃ f, step s = .fault f) ∨ ∃ r, step s = .refused r := by
  obtain ⟨-, hmisaligned, hdenied, -, -⟩ := stepChecksInOrder s
  obtain ⟨hend, hstop⟩ := h
  by_cases hpc : s.pc.toNat % 4 = 0
  case neg => exact .inl ⟨_, hmisaligned hend hpc⟩
  by_cases hperm : AllPermitted (executableAt s.params) s.pc 4
  case neg => exact .inl ⟨_, hdenied hend hpc hperm⟩
  obtain ⟨w, hw, hstop⟩ := (hstop.resolve_left (not_not.mpr hpc)).resolve_left (not_not.mpr hperm)
  by_cases hop : RefusedOpcode w
  case pos => exact .inr ⟨_, step_of_refusedOpcode hw hop⟩
  obtain hrows | ⟨i, f, hi, hf⟩ := hstop.resolve_left hop
  · exact .inl ⟨_, step_of_decode_illegal hw
      (decode_illegal_iff.mpr ⟨hop, fun r hr hadmits => hrows r hr (admits_iff.mp hadmits)⟩)⟩
  · exact .inl ⟨f, (stepRunsDecoded s w i hw hi).trans (exec_fault_iff_raisable.mpr hf)⟩

/-- A step that meets none of the conditions of R253 goes on: the word at `pc` decodes to an instruction, which raises
nothing. -/
theorem step_of_not_stepStops {s : State} (h : ¬ StepStops s) : ∃ t, step s = .next t := by
  by_cases hend : Ended s
  case pos =>
    obtain ⟨hended, -⟩ := stepChecksInOrder s
    exact ⟨s, hended hend⟩
  have hgoes := not_and.mp h hend
  simp only [not_or, not_not, not_exists, not_and] at hgoes
  obtain ⟨hpc, hperm, hword⟩ := hgoes
  have hw : Fetches s (memWord s s.pc.toNat) := ⟨hend, hpc, hperm, rfl⟩
  obtain ⟨hop, hrows, hraises⟩ := hword _ hw
  cases hdecode : decode s.params.extM (memWord s s.pc.toNat) with
  | instr i => exact stepRunsDecoded s _ i hw hdecode ▸ exec_completes fun f => hraises i f hdecode
  | unspecified => exact absurd (decode_unspecified_iff.mp hdecode) (not_or.mpr hop)
  | illegal =>
    obtain ⟨-, hnone⟩ := decode_illegal_iff.mp hdecode
    exact absurd (fun r hr hrw => hnone r hr (admits_iff.mpr hrw)) hrows
  | wrongLength => exact absurd hdecode (decode_ne_wrongLength _ _)

/-- A run that goes on for ever at a fault or a refusal never ends: only its start, where it is not over, is reached. -/
theorem not_endsIn_of_run_ne_next {s t : State} (hend : ¬ Ended s) (h : ∀ k u, run (k + 1) s ≠ .next u) :
    ¬ EndsIn s t := by
  rintro ⟨k, hrun, hended⟩
  cases k with
  | zero =>
    obtain rfl : s = t := by simpa [RunsTo] using hrun
    exact hend hended
  | succ k => exact h k t hrun

/-- Settles O13: a run stays at the fault or refusal of its first step. -/
theorem stoppedRunsNeverEnd : Obligations.StoppedRunsNeverEnd := by
  refine fun s => ⟨fun hstop => ?_, step_of_not_stepStops⟩
  have ⟨hend, _⟩ := hstop
  obtain ⟨f, hf⟩ | ⟨r, hr⟩ := step_of_stepStops hstop
  · have hruns (k : Nat) : run (k + 1) s = .fault f := run_succ_of_fault hf
    exact ⟨fun t => not_endsIn_of_run_ne_next hend (by simp [hruns]), .inl ⟨f, hruns⟩⟩
  · have hruns (k : Nat) : run (k + 1) s = .refused r := run_succ_of_refused hr
    exact ⟨fun t => not_endsIn_of_run_ne_next hend (by simp [hruns]), .inr ⟨r, hruns⟩⟩

/-! The one final state (R276). -/

/-- A run goes on from the state it has led to. -/
theorem run_add_of_runsTo {k : Nat} {s t : State} (h : RunsTo k s t) (j : Nat) : run (k + j) s = run j t := by
  induction k generalizing s with
  | zero =>
    obtain rfl : s = t := by simpa [RunsTo] using h
    rw [Nat.zero_add]
  | succ k ih =>
    obtain ⟨u, hu, hrun⟩ := runsTo_succ.mp h
    rw [Nat.succ_add, run_succ_of_next hu, ih hrun]

/-- A run that has stopped stays as it is (R241). -/
theorem run_add_of_stopped {k : Nat} {s : State} (h : ∀ t, ¬ RunsTo k s t) (j : Nat) : run (k + j) s = run k s := by
  induction k generalizing s with
  | zero => exact absurd rfl (h s)
  | succ k ih =>
    rw [Nat.succ_add]
    cases hs : step s with
    | next u =>
      rw [run_succ_of_next hs, run_succ_of_next hs]
      exact ih fun t hrun => h t (runsTo_succ.mpr ⟨u, hs, hrun⟩)
    | fault f => rw [run_succ_of_fault hs, run_succ_of_fault hs]
    | refused r => rw [run_succ_of_refused hs, run_succ_of_refused hs]

/-- A run that has ended stays in its final state (log entry 2). -/
theorem runsTo_add_of_ended {k : Nat} {s t : State} (h : RunsTo k s t) (hend : Ended t) (j : Nat) :
    RunsTo (k + j) s t := by
  obtain ⟨hstays, -⟩ := stepChecksInOrder t
  exact (run_add_of_runsTo h j).trans ((runsTo_iff_eq_of_step_self (hstays hend) j t).mpr rfl)

/-- No number of steps of a run that ends meets a fault or a refusal. -/
theorem exists_runsTo_of_endsIn {s t : State} (h : EndsIn s t) (j : Nat) : ∃ u, RunsTo j s u := by
  obtain ⟨k, hrun, hend⟩ := h
  by_contra hstopped
  have hstays := run_add_of_stopped (not_exists.mp hstopped) k
  refine hstopped ⟨t, hstays.symm.trans ?_⟩
  rw [Nat.add_comm]
  exact runsTo_add_of_ended hrun hend j

/-- Two states a run ends in are the state of the longer of the two. -/
theorem endsIn_unique {s t u : State} (ht : EndsIn s t) (hu : EndsIn s u) : u = t := by
  obtain ⟨k, hrunt, hendt⟩ := ht
  obtain ⟨j, hrunu, hendu⟩ := hu
  have hlongt := runsTo_add_of_ended hrunt hendt j
  have hlongu := runsTo_add_of_ended hrunu hendu k
  rw [Nat.add_comm] at hlongu
  exact Host.Outcome.next.inj (hlongu.symm.trans hlongt)

/-- Settles O12: both runs stand in the same state once they are long enough, and none of the steps stops. -/
theorem oneFinalState : Obligations.OneFinalState := by
  intro s t h
  have hnext := exists_runsTo_of_endsIn h
  refine ⟨fun u => endsIn_unique h, fun k f hf => ?_, fun k r hr => ?_⟩
  · obtain ⟨u, hu⟩ := hnext k
    simp [RunsTo, hf] at hu
  · obtain ⟨u, hu⟩ := hnext k
    simp [RunsTo, hr] at hu

end Sys2Proof.Machine
end
